-- ==== Sys2Proof/Word.lean ====
section
/-! DEFINITION. The word of the block: every port transfer and every register read is one whole 32-bit word
(20_memory.md R49); a byte-wide transport carries it as four bytes. -/

namespace Sys2Proof

/-- A port word: a command word, a data word, a read address, an output sample or a read result (R49, R70). -/
abbrev Word := BitVec 32

/-- One byte of a byte-wide transport (R49). -/
abbrev Byte := BitVec 8

end Sys2Proof
end

