-- ==== Sys2Proof/Config.lean ====
section
/-! DEFINITION. What this hardware fixes (00_scope.md section 4) and the two free values of the model.
A constant of binary32 is its bit pattern. -/

namespace Sys2Proof.Config

/-- TABLE_SIZE (00_scope.md R4, D7). -/
abbrev tableSize : Nat := 2000

/-- SAMPLE_LIMIT, the ceiling of resync rule B (00_scope.md R5, D7). -/
def sampleLimit : Nat := 10000000

/-- FREQ_MIN, 0.5 Hz (00_scope.md R6). -/
def freqMin : Word := 0x3F000000#32

/-- FREQ_MAX, 20.0 Hz (00_scope.md R6). -/
def freqMax : Word := 0x41A00000#32

/-- DEPTH_MIN, 0.0 percent (00_scope.md R6). -/
def depthMin : Word := 0x00000000#32

/-- DEPTH_MAX, 100.0 percent (00_scope.md R6). -/
def depthMax : Word := 0x42C80000#32

/-- SR_MIN, 1.0 Hz (00_scope.md section 4, D11). -/
def rateMin : Word := 0x3F800000#32

/-- SR_MAX, 16777216.0 Hz (00_scope.md section 4, D11). -/
def rateMax : Word := 0x4B800000#32

/-- WAVE_SINE: the one value of WAVE that selects the sine table (00_scope.md R6, 41_parameters.md R97). -/
def waveSine : Word := 1#32

/-- K2000: the table size as binary32 (00_scope.md section 4). -/
def k2000 : Word := 0x44FA0000#32

/-- K100 (00_scope.md section 4; 42_process.md R111). -/
def k100 : Word := 0x42C80000#32

/-- K001: the binary32 value nearest 0.01 (00_scope.md section 4, D3). -/
def k001 : Word := 0x3C23D70A#32

/-- NAN_CANON: the NaN an operation creates from operands none of which is a NaN (00_scope.md section 4, D19). -/
def nanCanon : Word := 0x7FC00000#32

/-- FREE VALUE (notes/assumptions/8.md, DESIGN CHOICE, safe). The table index of a sample step whose product p is a
NaN, an infinity or negative. The spec defines floor only for a finite p and the remainder only for a number that is
not negative (00_scope.md section 5), and R104 says that no run reaches such a p. Nothing is known of it but that it
is an index. -/
opaque freeIndex : Word → Fin tableSize

/-- FREE VALUE (notes/assumptions/9.md, DESIGN CHOICE, safe). The payload and sign of the NaN that an operation gives
when BOTH operands are NaNs. No rule states it, and D19 says that no run reaches it. -/
opaque freeNaN : Word → Word → Word

end Sys2Proof.Config
end

