-- ==== Sys2Proof/Machine/Float.lean ====
section
/-! DEFINITION. IEEE 754 binary32 with roundTiesToEven (00_scope.md R8, 20_memory.md R50, 93 G1): each operation
computes the exact value as an integer or a fraction and rounds it once (notes/assumptions/10.md). Magnitudes are
counted in UNITS, the smallest subnormal 2^-149, of which every finite value is a whole number. -/

namespace Sys2Proof.Machine.F32

/-- How many units make 1.0. -/
def unitsPerOne : Nat := 2 ^ 149

/-- The magnitude bits of infinity. -/
def infMag : Nat := 0x7F800000

/-- Bit 31 (R50). -/
def sign (v : Word) : Bool := v.getLsbD 31

/-- Bits 30:23, the biased exponent (R50). -/
def expField (v : Word) : Nat := (v.extractLsb' 23 8).toNat

/-- Bits 22:0, the fraction (R50). -/
def fracField (v : Word) : Nat := (v.extractLsb' 0 23).toNat

/-- Exponent bits all ones and fraction not zero (00_scope.md R8). -/
def isNaN (v : Word) : Bool := expField v == 255 && fracField v != 0

/-- Exponent bits all ones and fraction zero. -/
def isInf (v : Word) : Bool := expField v == 255 && fracField v == 0

/-- Exponent bits not all ones. -/
def isFinite (v : Word) : Bool := expField v != 255

/-- Either zero. -/
def isZero (v : Word) : Bool := expField v == 0 && fracField v == 0

/-- `quiet`: bit 22 set, the other bits kept (00_scope.md R8). -/
def quiet (v : Word) : Word := v ||| 0x00400000#32

/-- The magnitude of a finite value in units; of an infinity, 2^277, which is above every finite magnitude. -/
def units (v : Word) : Nat :=
  if expField v = 0 then fracField v else (fracField v + 2 ^ 23) * 2 ^ (expField v - 1)

/-- The signed value in units. -/
def value (v : Word) : Int := if sign v then -(units v : Int) else (units v : Int)

/-- The word of a sign and the 31 magnitude bits. -/
def pack (negative : Bool) (mag : Nat) : Word := BitVec.ofNat 32 (if negative then 2 ^ 31 + mag else mag)

/-- The spacing of binary32 values, as a power of two of units, at a magnitude of `q` whole units. -/
def spacing (q : Nat) : Nat := Nat.log2 q - 23

/-- `n / d` rounded to an integer, ties to even. -/
def roundDiv (n d : Nat) : Nat :=
  if d < 2 * (n % d) ∨ (2 * (n % d) = d ∧ (n / d) % 2 = 1) then n / d + 1 else n / d

/-- The magnitude bits of the binary32 value nearest to `n / d` units, ties to even; past the largest finite value,
infinity. The significand, with its leading one at 2^23, is added to the spacing's exponent at bit 23, so a carry out
of the significand steps to the next exponent by itself. -/
def roundMag (n d : Nat) : Nat :=
  min infMag (spacing (n / d) * 2 ^ 23 + roundDiv n (d * 2 ^ spacing (n / d)))

/-- The result of an operation with a NaN among its operands: the NaN operand made quiet (D19; notes/assumptions/9.md);
with two NaN operands, which no run reaches, a quiet NaN nothing else is known of. -/
def nanResult (a b : Word) : Word :=
  if isNaN a && isNaN b then Config.freeNaN a b ||| 0x7FC00000#32
  else if isNaN a then quiet a else quiet b

/-- The other sign. -/
def negate (v : Word) : Word := v ^^^ 0x80000000#32

/-- `fmul`: the product, rounded (00_scope.md R8; special values 42_process.md R114). -/
def fmul (a b : Word) : Word :=
  if isNaN a || isNaN b then nanResult a b
  else if isInf a || isInf b then
    if isZero a || isZero b then Config.nanCanon else pack (sign a != sign b) infMag
  else pack (sign a != sign b) (roundMag (units a * units b) unitsPerOne)

/-- `fadd`: the sum, rounded. An exact zero sum is +0.0 unless both operands are negative zeros. -/
def fadd (a b : Word) : Word :=
  if isNaN a || isNaN b then nanResult a b
  else if isInf a then
    if isInf b && (sign a != sign b) then Config.nanCanon else a
  else if isInf b then b
  else if value a + value b = 0 then pack (sign a && sign b) 0
  else pack (decide (value a + value b < 0)) (roundMag (value a + value b).natAbs 1)

/-- `fsub`: the difference, rounded. -/
def fsub (a b : Word) : Word :=
  if isNaN a || isNaN b then nanResult a b else fadd a (negate b)

/-- `fdiv`: the quotient, rounded. -/
def fdiv (a b : Word) : Word :=
  if isNaN a || isNaN b then nanResult a b
  else if isInf a then
    if isInf b then Config.nanCanon else pack (sign a != sign b) infMag
  else if isInf b then pack (sign a != sign b) 0
  else if isZero b then
    if isZero a then Config.nanCanon else pack (sign a != sign b) infMag
  else pack (sign a != sign b) (roundMag (units a * unitsPerOne) (units b))

/-- `cvt_f32`: an unsigned integer converted, rounded (00_scope.md R8, 42_process.md R102). -/
def cvt (n : Nat) : Word := pack false (roundMag (n * unitsPerOne) 1)

/-- `<f`, quiet: false with a NaN operand; the zeros are equal. -/
def lt (a b : Word) : Bool := !isNaN a && !isNaN b && decide (value a < value b)

/-- `<=f`, quiet. -/
def le (a b : Word) : Bool := !isNaN a && !isNaN b && decide (value a ≤ value b)

/-- `==f`, quiet. -/
def feq (a b : Word) : Bool := !isNaN a && !isNaN b && decide (value a = value b)

/-- `!=f`, quiet: true with a NaN operand. -/
def fne (a b : Word) : Bool := !feq a b

/-- `floor` of a finite value that is not negative, as an integer without a width. -/
def floor (v : Word) : Nat := units v / unitsPerOne

/-- The decimal number `digits × 10^-places` as the nearest binary32 value, ties to even (30_encoding.md R82). -/
def ofDecimal (negative : Bool) (digits places : Nat) : Word :=
  pack negative (roundMag (digits * unitsPerOne) (10 ^ places))

end Sys2Proof.Machine.F32
end

