-- ==== Sys2Proof/Syntax.lean ====
section
/-! DEFINITION. The syntax: the block's commands (30_encoding.md R72), one constructor of `Instr` per row of
spec/opcode_table.json, and the lines of the assembler (R81 to R83). -/

namespace Sys2Proof

/-- The ports on which the host sends words (10_state.md section 1). -/
inductive Port where
  /-- CMD, driven by the stream agent (R20). -/
  | cmd
  /-- PAR, driven by the parameter agent (R21). -/
  | par
  /-- RD, driven by any agent (R23). -/
  | rd
deriving DecidableEq, Repr

/-- A command together with its operands. The samples of a PROCESS are no part of it: each is the operand of a sample
step of its own (42_process.md R99). -/
inductive Instr where
  /-- INIT with its data word, the sample rate (R85). -/
  | init (d : Word)
  /-- RESET (R86). -/
  | reset
  /-- PROCESS with S = 0 and its sample count (R99). -/
  | process (cnt : BitVec 24)
  /-- PROCESS with S = 1. The CNT field is not used and may hold any value (R76, R100). -/
  | processS (cnt : BitVec 24)
  /-- SET_FREQ with its data word (R89). -/
  | setFreq (d : Word)
  /-- SET_DEPTH with its data word (R90). -/
  | setDepth (d : Word)
  /-- SET_WAVE with its data word (R91). -/
  | setWave (k : Word)
  /-- RD with its 4-bit read address (R117). -/
  | rd (a : BitVec 4)
deriving DecidableEq, Repr

/-- The commands of format F1, which take one data word (30_encoding.md R73). -/
inductive DataOp where
  | init
  | setFreq
  | setDepth
  | setWave
deriving DecidableEq, Repr

/-- A numeric operand of the assembler (30_encoding.md R82). -/
inductive Literal where
  /-- A bit pattern: 0x and eight hexadecimal digits, used as it is. -/
  | bits (w : Word)
  /-- A decimal literal: its sign, its digits read as one number, and how many of them stand after the point. -/
  | decimal (negative : Bool) (digits : Nat) (places : Nat)
deriving DecidableEq, Repr

/-- One form of the table of 30_encoding.md R81, or a pseudo-instruction of R83, before its checks. -/
inductive AsmForm where
  | init (rate : Literal)
  | reset
  | process (n : Nat) (samples : List Literal)
  | processS (n : Nat)
  | setFreq (f : Literal)
  | setDepth (d : Literal)
  | setWave (k : Nat)
  | rd (a : Nat)
  | presetSlow
  | presetFast
deriving DecidableEq, Repr

/-- A line of the assembler: a form, and whether the `@PAR` prefix stands before it (30_encoding.md R81). -/
structure AsmLine where
  onPar : Bool
  form : AsmForm
deriving DecidableEq, Repr

end Sys2Proof
end

