-- ==== Sys2Proof/Machine/State.lean ====
section
/-! DEFINITION. The state of the block (10_state.md section 2, 70_reset_and_hazards.md R132), as plain data. -/

namespace Sys2Proof.Machine

/-- What stops the block for good. NOTHING does, so there is no constructor: no latch, sample step or read faults
(60_exceptions.md R118), and the interface faults of R119 are states the block enters and RST leaves (R122, R125):
next states of the model. -/
inductive Fault where
deriving DecidableEq, Repr

/-- Why the model gives no meaning. -/
inductive Refusal where
  /-- Raised by `exec` for an instruction whose meaning is not written yet; safe. No arm raises it now. -/
  | notModelled (mnemonic : String)
deriving DecidableEq, Repr

/-- The codes of CAUSE (60_exceptions.md R119). Codes 5 to 15 are never recorded (notes/assumptions/14.md). -/
inductive Cause where
  /-- 0: no fault. -/
  | none
  /-- 1: an opcode that is not legal on its port (30_encoding.md R79). -/
  | illegalOpcode
  /-- 2: a legal opcode with a reserved bit set (30_encoding.md R80). -/
  | reservedBits
  /-- 3: an INIT rate that is a NaN or out of range (40_lifecycle.md R85). -/
  | badSampleRate
  /-- 4: a PROCESS or PROCESS.S with CFG = 0 (30_encoding.md R74). -/
  | notConfigured
deriving DecidableEq, Repr

/-- The tables of the ROM, and the value of LAT_SEL (10_state.md R36, 21_wavetable_rom.md R63). -/
inductive Table where
  /-- LAT_SEL = 0. -/
  | sine
  /-- LAT_SEL = 1. -/
  | square
deriving DecidableEq, Repr

/-- One move of the host's agents (10_state.md R25; notes/assumptions/1.md). -/
inductive HostMove where
  /-- A pulse on RST (R24). -/
  | rst
  /-- A word sent on CMD, PAR or RD (R20, R21, R23). -/
  | send (p : Port) (w : Word)
deriving DecidableEq, Repr

/-- Every piece of state of one block. Values of binary32 are bit patterns (10_state.md section 2.2). -/
structure State where
  /-- SAMPLE_RATE (R28). -/
  sampleRate : Word
  /-- FREQ (R29). -/
  freq : Word
  /-- DEPTH (R30). -/
  depth : Word
  /-- WAVE (R31). -/
  wave : Word
  /-- SAMPLES (R32). -/
  samples : Word
  /-- CUR_SCALE (R33). -/
  curScale : Word
  /-- PEND_SCALE (R34). -/
  pendScale : Word
  /-- LAT_DEPTH (R35). -/
  latDepth : Word
  /-- LAT_SEL (R36). -/
  latSel : Table
  /-- REMAIN (R37). -/
  remain : BitVec 24
  /-- CFG (R38). -/
  cfg : Bool
  /-- FAULT (R39). -/
  fault : Bool
  /-- CAUSE (R39, R119). -/
  cause : Cause
  /-- The CMD decoder: a format F1 command word taken whose data word has not arrived (R132, R133). -/
  cmdDec : Option DataOp
  /-- The PAR decoder (R132, R133). -/
  parDec : Option DataOp
  /-- Words waiting on CMD in FAULTED, oldest first (60_exceptions.md R123, R133). -/
  cmdWait : List Word
  /-- Words waiting on PAR in FAULTED, oldest first (R123, R133). -/
  parWait : List Word
  /-- The OUT sequence, oldest first (R22). -/
  out : List Word
  /-- The words answered on RD, oldest first (R23): the model's record, no register (notes/assumptions/7.md). -/
  rdOut : List Word
  /-- What the host's agents do next, oldest first: the model's form of the agents (notes/assumptions/1.md). -/
  host : List HostMove
deriving DecidableEq, Repr

/-- The block right after RST (70_reset_and_hazards.md R132), before the host has done anything. -/
def State.reset : State where
  sampleRate := 0x00000000#32
  freq := 0x40000000#32
  depth := 0x42480000#32
  wave := 1#32
  samples := 0#32
  curScale := 0x00000000#32
  pendScale := 0x00000000#32
  latDepth := 0x00000000#32
  latSel := .sine
  remain := 0#24
  cfg := false
  fault := false
  cause := .none
  cmdDec := Option.none
  parDec := Option.none
  cmdWait := []
  parWait := []
  out := []
  rdOut := []
  host := []

end Sys2Proof.Machine
end

