-- ==== Sys2Proof/Machine/Operands.lean ====
section
/-! DEFINITION. How operands and parameters are checked and clamped: the INIT rate (40_lifecycle.md R85) and the three
parameters at a latch (41_parameters.md R95 to R97). Data words are taken as raw patterns (30_encoding.md R75), so the
forms of an operand are these checks. -/

namespace Sys2Proof.Machine

/-- The rates INIT takes: no NaN, and in [1.0, 16777216.0] (R85). -/
def rateLegal (d : Word) : Bool :=
  !F32.isNaN d && F32.le Config.rateMin d && F32.le d Config.rateMax

/-- `clampF` (R95). -/
def clampF (v : Word) : Word :=
  if F32.isNaN v then Config.freqMin
  else if F32.lt v Config.freqMin then Config.freqMin
  else if F32.lt Config.freqMax v then Config.freqMax
  else v

/-- `clampD` (R96): a negative zero is kept. -/
def clampD (v : Word) : Word :=
  if F32.isNaN v then Config.depthMin
  else if F32.lt v Config.depthMin then Config.depthMin
  else if F32.lt Config.depthMax v then Config.depthMax
  else v

/-- The table a value of WAVE selects: SINE for 1, compared in full, SQUARE for every other value (R97). -/
def selectTable (wave : Word) : Table := if wave = Config.waveSine then .sine else .square

/-- samplesPerCycle, the first of R94's two divisions. No register keeps it. -/
def samplesPerCycle (s : State) : Word := F32.fdiv s.sampleRate (clampF s.freq)

/-- The scale a latch asks for: R94's two divisions, each rounded. -/
def requestedScale (s : State) : Word := F32.fdiv Config.k2000 (samplesPerCycle s)

end Sys2Proof.Machine
end

