-- ==== Sys2Proof/Machine/Flags.lean ====
section
/-! DEFINITION. The status bits, each computed from other state (10_state.md R40), and the states of the block and of
the resync machine that they show (R42, R43). -/

namespace Sys2Proof.Machine

/-- The code of a cause in STATUS bits 7:4 (60_exceptions.md R119). -/
def Cause.code : Cause → BitVec 4
  | .none => 0#4
  | .illegalOpcode => 1#4
  | .reservedBits => 2#4
  | .badSampleRate => 3#4
  | .notConfigured => 4#4

/-- The bit of LAT_SEL (10_state.md R36). -/
def Table.bit : Table → BitVec 1
  | .sine => 0#1
  | .square => 1#1

/-- BUSY, STATUS bit 2: a PROCESS still takes samples (R40). -/
def busy (s : State) : Bool := s.remain != 0#24

/-- PENDING, STATUS bit 3: PEND_SCALE !=f CUR_SCALE (R40, R43). -/
def pending (s : State) : Bool := F32.fne s.pendScale s.curScale

/-- STATUS (R40): bits 31:8 read 0. -/
def statusWord (s : State) : Word :=
  0#24 ++ s.cause.code ++ BitVec.ofBool (pending s) ++ BitVec.ofBool (busy s) ++ BitVec.ofBool s.fault ++
    BitVec.ofBool s.cfg

/-- The four states of the block (R42). -/
inductive BlockState where
  | unconfigured
  | idle
  | inBlock
  | faulted
deriving DecidableEq, Repr

/-- The state the block is in (R42). -/
def blockState (s : State) : BlockState :=
  if s.fault then .faulted
  else if !s.cfg then .unconfigured
  else if s.remain = 0#24 then .idle
  else .inBlock

/-- The two states of the resync machine (R43). -/
inductive ResyncState where
  | synced
  | pending
deriving DecidableEq, Repr

/-- The state the resync machine is in (R43). -/
def resyncState (s : State) : ResyncState := if pending s then .pending else .synced

end Sys2Proof.Machine
end

