-- ==== Sys2Proof/Machine/Ops.lean ====
section
/-! DEFINITION. The operations the meanings share: fault entry and the one way out of it, the register read map, the
ports' outputs and the decoders. -/

namespace Sys2Proof.Machine

/-- Fault entry (60_exceptions.md R122): FAULT and CAUSE, and nothing else. There is no handler and no vector; the
block is FAULTED from here on. -/
def raiseFault (c : Cause) (s : State) : State := { s with fault := true, cause := c }

/-- RST (70_reset_and_hazards.md R132, R133): every register at its power-on value, both decoders at a command word,
the words waiting on the ports lost. What the host has received stays received, and what it does next is its own
(notes/assumptions/6.md). RST is the only way out of FAULTED (60_exceptions.md R125): there is no return. -/
def powerOn (s : State) : State := { State.reset with out := s.out, rdOut := s.rdOut, host := s.host }

/-- `emit(v)`: a word on OUT (10_state.md R22). -/
def emit (v : Word) (s : State) : State := { s with out := s.out ++ [v] }

/-- The word of register address `a` (10_state.md R41, 43_readback.md R117). -/
def readReg (a : BitVec 4) (s : State) : Word :=
  match a with
  | 0x0#4 => statusWord s
  | 0x1#4 => s.sampleRate
  | 0x2#4 => s.freq
  | 0x3#4 => s.depth
  | 0x4#4 => s.wave
  | 0x5#4 => s.samples
  | 0x6#4 => s.curScale
  | 0x7#4 => s.pendScale
  | 0x8#4 => s.latDepth
  | 0x9#4 => s.latSel.bit.setWidth 32
  | 0xA#4 => s.remain.setWidth 32
  | _ => 0x00000000#32

/-- A word answered on RD (10_state.md R23). -/
def answer (v : Word) (s : State) : State := { s with rdOut := s.rdOut ++ [v] }

/-- What the decoder of a port waits for. RD words are whole, so its decoder never waits. -/
def decoder (p : Port) (s : State) : Option DataOp :=
  match p with
  | .cmd => s.cmdDec
  | .par => s.parDec
  | .rd => Option.none

/-- The decoder of a port, set. -/
def setDecoder (p : Port) (op : Option DataOp) (s : State) : State :=
  match p with
  | .cmd => { s with cmdDec := op }
  | .par => { s with parDec := op }
  | .rd => s

/-- A word that FAULTED leaves untaken on its port (60_exceptions.md R123). -/
def holdWord (p : Port) (w : Word) (s : State) : State :=
  match p with
  | .cmd => { s with cmdWait := s.cmdWait ++ [w] }
  | .par => { s with parWait := s.parWait ++ [w] }
  | .rd => s

/-- The host's moves still to come, after some of them have happened. -/
def withHost (moves : List HostMove) (s : State) : State := { s with host := moves }

end Sys2Proof.Machine
end

