-- ==== Sys2Proof/Machine/Lifecycle.lean ====
section
/-! DEFINITION. INIT and RESET (40_lifecycle.md). -/

namespace Sys2Proof.Machine

/-- The writes of an INIT whose rate is legal (R85). FREQ, DEPTH, WAVE, FAULT and CAUSE are kept. -/
def configure (rate : Word) (s : State) : State :=
  { s with
    sampleRate := rate
    cfg := true
    samples := 0#32
    curScale := 0x00000000#32
    pendScale := 0x00000000#32
    latDepth := 0x00000000#32
    latSel := .sine
    remain := 0#24 }

/-- The writes of a RESET (R86): PEND_SCALE and everything else is kept (90_conflicts.md C6). -/
def clearPhase (s : State) : State := { s with samples := 0#32, curScale := 0x00000000#32 }

/-- INIT (R85): the check runs before any write. -/
def execInit (d : Word) (s : State) : Host.Outcome State Fault Refusal :=
  if rateLegal d then .next (configure d s) else .next (raiseFault .badSampleRate s)

/-- RESET (R86). -/
def execReset (s : State) : Host.Outcome State Fault Refusal := .next (clearPhase s)

end Sys2Proof.Machine
end

