-- ==== Sys2Proof/Machine/Parameters.lean ====
section
/-! DEFINITION. The parameter writes and the latch (41_parameters.md). -/

namespace Sys2Proof.Machine

/-- SET_FREQ (R89): the pattern unchanged, whatever it is. -/
def execSetFreq (d : Word) (s : State) : Host.Outcome State Fault Refusal := .next { s with freq := d }

/-- SET_DEPTH (R90). -/
def execSetDepth (d : Word) (s : State) : Host.Outcome State Fault Refusal := .next { s with depth := d }

/-- SET_WAVE (R91). -/
def execSetWave (k : Word) (s : State) : Host.Outcome State Fault Refusal := .next { s with wave := k }

/-- The latch (R93): the parameters read and clamped in one step, the scale asked for, and the count of samples. -/
def latch (cnt : BitVec 24) (s : State) : State :=
  { s with
    pendScale := requestedScale s
    latDepth := clampD s.depth
    latSel := selectTable s.wave
    remain := cnt }

end Sys2Proof.Machine
end

