-- ==== Sys2Proof/Machine/Rom.lean ====
section
/-! DEFINITION. The wavetable ROM: exactly the listing of 21_wavetable_rom.md section 4 (R69, which wins over every
other statement), ten entries a row as there. It is never written (R63, R67), so it is a constant and no state. -/

namespace Sys2Proof.Machine

/-- SINE, entries 0 to 99 (R69). -/
def sineRom00 : List Nat := [
  0x3F000000, 0x3F0066F2, 0x3F00CDE3, 0x3F0134D4, 0x3F019BC4, 0x3F0202B3, 0x3F0269A0, 0x3F02D08C, 0x3F033777, 0x3F039E5F,
  0x3F040545, 0x3F046C28, 0x3F04D308, 0x3F0539E5, 0x3F05A0BF, 0x3F060796, 0x3F066E68, 0x3F06D536, 0x3F073C00, 0x3F07A2C5,
  0x3F080985, 0x3F087040, 0x3F08D6F5, 0x3F093DA5, 0x3F09A44F, 0x3F0A0AF3, 0x3F0A7190, 0x3F0AD826, 0x3F0B3EB5, 0x3F0BA53D,
  0x3F0C0BBE, 0x3F0C7236, 0x3F0CD8A7, 0x3F0D3F0F, 0x3F0DA56F, 0x3F0E0BC6, 0x3F0E7214, 0x3F0ED858, 0x3F0F3E93, 0x3F0FA4C4,
  0x3F100AEB, 0x3F107108, 0x3F10D71A, 0x3F113D21, 0x3F11A31D, 0x3F12090D, 0x3F126EF2, 0x3F12D4CB, 0x3F133A98, 0x3F13A058,
  0x3F14060B, 0x3F146BB2, 0x3F14D14B, 0x3F1536D7, 0x3F159C56, 0x3F1601C6, 0x3F166728, 0x3F16CC7B, 0x3F1731C0, 0x3F1796F6,
  0x3F17FC1C, 0x3F186133, 0x3F18C63B, 0x3F192B32, 0x3F199019, 0x3F19F4EF, 0x3F1A59B5, 0x3F1ABE69, 0x3F1B230D, 0x3F1B879E,
  0x3F1BEC1E, 0x3F1C508C, 0x3F1CB4E7, 0x3F1D1930, 0x3F1D7D67, 0x3F1DE18A, 0x3F1E4599, 0x3F1EA996, 0x3F1F0D7E, 0x3F1F7152,
  0x3F1FD512, 0x3F2038BD, 0x3F209C54, 0x3F20FFD5, 0x3F216341, 0x3F21C698, 0x3F2229D8, 0x3F228D03, 0x3F22F017, 0x3F235314,
  0x3F23B5FB, 0x3F2418CB, 0x3F247B83, 0x3F24DE24, 0x3F2540AC, 0x3F25A31D, 0x3F260575, 0x3F2667B5, 0x3F26C9DC, 0x3F272BEA]

/-- SINE, entries 100 to 199 (R69). -/
def sineRom01 : List Nat := [
  0x3F278DDE, 0x3F27EFB9, 0x3F28517A, 0x3F28B321, 0x3F2914AE, 0x3F297620, 0x3F29D778, 0x3F2A38B4, 0x3F2A99D5, 0x3F2AFADA,
  0x3F2B5BC4, 0x3F2BBC91, 0x3F2C1D42, 0x3F2C7DD7, 0x3F2CDE4F, 0x3F2D3EAA, 0x3F2D9EE8, 0x3F2DFF08, 0x3F2E5F0A, 0x3F2EBEEE,
  0x3F2F1EB5, 0x3F2F7E5C, 0x3F2FDDE5, 0x3F303D4F, 0x3F309C9A, 0x3F30FBC5, 0x3F315AD1, 0x3F31B9BD, 0x3F321888, 0x3F327733,
  0x3F32D5BE, 0x3F333428, 0x3F339270, 0x3F33F097, 0x3F344E9D, 0x3F34AC81, 0x3F350A42, 0x3F3567E2, 0x3F35C55F, 0x3F3622B9,
  0x3F367FF0, 0x3F36DD03, 0x3F3739F4, 0x3F3796C0, 0x3F37F369, 0x3F384FED, 0x3F38AC4D, 0x3F390889, 0x3F39649F, 0x3F39C090,
  0x3F3A1C5C, 0x3F3A7803, 0x3F3AD383, 0x3F3B2EDE, 0x3F3B8A12, 0x3F3BE520, 0x3F3C4007, 0x3F3C9AC7, 0x3F3CF560, 0x3F3D4FD1,
  0x3F3DAA1B, 0x3F3E043D, 0x3F3E5E36, 0x3F3EB808, 0x3F3F11B1, 0x3F3F6B31, 0x3F3FC488, 0x3F401DB5, 0x3F4076BA, 0x3F40CF94,
  0x3F412845, 0x3F4180CB, 0x3F41D928, 0x3F423159, 0x3F428960, 0x3F42E13C, 0x3F4338EC, 0x3F439071, 0x3F43E7CA, 0x3F443EF8,
  0x3F4495F9, 0x3F44ECCE, 0x3F454376, 0x3F4599F2, 0x3F45F040, 0x3F464661, 0x3F469C55, 0x3F46F21B, 0x3F4747B3, 0x3F479D1D,
  0x3F47F259, 0x3F484766, 0x3F489C45, 0x3F48F0F4, 0x3F494575, 0x3F4999C6, 0x3F49EDE7, 0x3F4A41D9, 0x3F4A959A, 0x3F4AE92B]

/-- SINE, entries 200 to 299 (R69). -/
def sineRom02 : List Nat := [
  0x3F4B3C8C, 0x3F4B8FBC, 0x3F4BE2BB, 0x3F4C358A, 0x3F4C8827, 0x3F4CDA92, 0x3F4D2CCC, 0x3F4D7ED3, 0x3F4DD0A9, 0x3F4E224C,
  0x3F4E73BD, 0x3F4EC4FB, 0x3F4F1606, 0x3F4F66DE, 0x3F4FB783, 0x3F5007F4, 0x3F505831, 0x3F50A83A, 0x3F50F80F, 0x3F5147B0,
  0x3F51971C, 0x3F51E653, 0x3F523556, 0x3F528423, 0x3F52D2BB, 0x3F53211D, 0x3F536F4A, 0x3F53BD40, 0x3F540B01, 0x3F54588B,
  0x3F54A5DE, 0x3F54F2FB, 0x3F553FE0, 0x3F558C8F, 0x3F55D906, 0x3F562546, 0x3F56714E, 0x3F56BD1E, 0x3F5708B6, 0x3F575416,
  0x3F579F3D, 0x3F57EA2C, 0x3F5834E2, 0x3F587F5E, 0x3F58C9A2, 0x3F5913AC, 0x3F595D7C, 0x3F59A713, 0x3F59F06F, 0x3F5A3992,
  0x3F5A827A, 0x3F5ACB27, 0x3F5B139A, 0x3F5B5BD2, 0x3F5BA3CF, 0x3F5BEB90, 0x3F5C3316, 0x3F5C7A60, 0x3F5CC16F, 0x3F5D0842,
  0x3F5D4ED8, 0x3F5D9532, 0x3F5DDB50, 0x3F5E2130, 0x3F5E66D4, 0x3F5EAC3B, 0x3F5EF165, 0x3F5F3651, 0x3F5F7B00, 0x3F5FBF71,
  0x3F6003A4, 0x3F604799, 0x3F608B4F, 0x3F60CEC7, 0x3F611201, 0x3F6154FC, 0x3F6197B7, 0x3F61DA34, 0x3F621C71, 0x3F625E6F,
  0x3F62A02E, 0x3F62E1AC, 0x3F6322EB, 0x3F6363E9, 0x3F63A4A7, 0x3F63E525, 0x3F642562, 0x3F64655E, 0x3F64A519, 0x3F64E494,
  0x3F6523CD, 0x3F6562C4, 0x3F65A17A, 0x3F65DFEE, 0x3F661E21, 0x3F665C11, 0x3F6699BF, 0x3F66D72B, 0x3F671454, 0x3F67513B]

/-- SINE, entries 300 to 399 (R69). -/
def sineRom03 : List Nat := [
  0x3F678DDE, 0x3F67CA3F, 0x3F68065D, 0x3F684237, 0x3F687DCE, 0x3F68B921, 0x3F68F431, 0x3F692EFC, 0x3F696984, 0x3F69A3C8,
  0x3F69DDC7, 0x3F6A1781, 0x3F6A50F7, 0x3F6A8A29, 0x3F6AC315, 0x3F6AFBBC, 0x3F6B341E, 0x3F6B6C3B, 0x3F6BA412, 0x3F6BDBA4,
  0x3F6C12F0, 0x3F6C49F6, 0x3F6C80B6, 0x3F6CB730, 0x3F6CED63, 0x3F6D2350, 0x3F6D58F6, 0x3F6D8E56, 0x3F6DC36F, 0x3F6DF841,
  0x3F6E2CCB, 0x3F6E610F, 0x3F6E950B, 0x3F6EC8BF, 0x3F6EFC2C, 0x3F6F2F51, 0x3F6F622E, 0x3F6F94C3, 0x3F6FC710, 0x3F6FF915,
  0x3F702AD1, 0x3F705C45, 0x3F708D70, 0x3F70BE52, 0x3F70EEEB, 0x3F711F3B, 0x3F714F42, 0x3F717F00, 0x3F71AE75, 0x3F71DD9F,
  0x3F720C80, 0x3F723B18, 0x3F726965, 0x3F729769, 0x3F72C522, 0x3F72F291, 0x3F731FB6, 0x3F734C90, 0x3F737920, 0x3F73A565,
  0x3F73D15F, 0x3F73FD0F, 0x3F742873, 0x3F74538C, 0x3F747E5A, 0x3F74A8DD, 0x3F74D314, 0x3F74FD00, 0x3F75269F, 0x3F754FF4,
  0x3F7578FC, 0x3F75A1B8, 0x3F75CA28, 0x3F75F24C, 0x3F761A24, 0x3F7641AF, 0x3F7668EE, 0x3F768FE0, 0x3F76B686, 0x3F76DCDF,
  0x3F7702EA, 0x3F7728A9, 0x3F774E1B, 0x3F777340, 0x3F779817, 0x3F77BCA1, 0x3F77E0DE, 0x3F7804CD, 0x3F78286E, 0x3F784BC2,
  0x3F786EC8, 0x3F789180, 0x3F78B3EA, 0x3F78D606, 0x3F78F7D4, 0x3F791953, 0x3F793A84, 0x3F795B67, 0x3F797BFC, 0x3F799C41]

/-- SINE, entries 400 to 499 (R69). -/
def sineRom04 : List Nat := [
  0x3F79BC38, 0x3F79DBE1, 0x3F79FB3A, 0x3F7A1A45, 0x3F7A3900, 0x3F7A576D, 0x3F7A758A, 0x3F7A9359, 0x3F7AB0D8, 0x3F7ACE07,
  0x3F7AEAE7, 0x3F7B0778, 0x3F7B23B9, 0x3F7B3FAA, 0x3F7B5B4C, 0x3F7B769E, 0x3F7B91A0, 0x3F7BAC52, 0x3F7BC6B4, 0x3F7BE0C6,
  0x3F7BFA88, 0x3F7C13FA, 0x3F7C2D1C, 0x3F7C45ED, 0x3F7C5E6E, 0x3F7C769E, 0x3F7C8E7E, 0x3F7CA60D, 0x3F7CBD4C, 0x3F7CD43A,
  0x3F7CEAD7, 0x3F7D0124, 0x3F7D171F, 0x3F7D2CCA, 0x3F7D4224, 0x3F7D572C, 0x3F7D6BE4, 0x3F7D804A, 0x3F7D9460, 0x3F7DA824,
  0x3F7DBB97, 0x3F7DCEB8, 0x3F7DE188, 0x3F7DF407, 0x3F7E0634, 0x3F7E1810, 0x3F7E299A, 0x3F7E3AD3, 0x3F7E4BBA, 0x3F7E5C4F,
  0x3F7E6C92, 0x3F7E7C84, 0x3F7E8C24, 0x3F7E9B72, 0x3F7EAA6E, 0x3F7EB918, 0x3F7EC771, 0x3F7ED577, 0x3F7EE32B, 0x3F7EF08D,
  0x3F7EFD9D, 0x3F7F0A5B, 0x3F7F16C7, 0x3F7F22E0, 0x3F7F2EA8, 0x3F7F3A1D, 0x3F7F4540, 0x3F7F5010, 0x3F7F5A8E, 0x3F7F64BA,
  0x3F7F6E93, 0x3F7F781A, 0x3F7F814E, 0x3F7F8A30, 0x3F7F92C0, 0x3F7F9AFD, 0x3F7FA2E7, 0x3F7FAA7F, 0x3F7FB1C4, 0x3F7FB8B7,
  0x3F7FBF57, 0x3F7FC5A4, 0x3F7FCB9F, 0x3F7FD147, 0x3F7FD69D, 0x3F7FDBA0, 0x3F7FE050, 0x3F7FE4AD, 0x3F7FE8B8, 0x3F7FEC70,
  0x3F7FEFD5, 0x3F7FF2E7, 0x3F7FF5A7, 0x3F7FF814, 0x3F7FFA2E, 0x3F7FFBF5, 0x3F7FFD6A, 0x3F7FFE8B, 0x3F7FFF5A, 0x3F7FFFD7]

/-- SINE, entries 500 to 599 (R69). -/
def sineRom05 : List Nat := [
  0x3F800000, 0x3F7FFFD7, 0x3F7FFF5A, 0x3F7FFE8B, 0x3F7FFD6A, 0x3F7FFBF5, 0x3F7FFA2E, 0x3F7FF814, 0x3F7FF5A7, 0x3F7FF2E7,
  0x3F7FEFD5, 0x3F7FEC70, 0x3F7FE8B8, 0x3F7FE4AD, 0x3F7FE050, 0x3F7FDBA0, 0x3F7FD69D, 0x3F7FD147, 0x3F7FCB9F, 0x3F7FC5A4,
  0x3F7FBF57, 0x3F7FB8B7, 0x3F7FB1C4, 0x3F7FAA7F, 0x3F7FA2E7, 0x3F7F9AFD, 0x3F7F92C0, 0x3F7F8A30, 0x3F7F814E, 0x3F7F781A,
  0x3F7F6E93, 0x3F7F64BA, 0x3F7F5A8E, 0x3F7F5010, 0x3F7F4540, 0x3F7F3A1D, 0x3F7F2EA8, 0x3F7F22E0, 0x3F7F16C7, 0x3F7F0A5B,
  0x3F7EFD9D, 0x3F7EF08D, 0x3F7EE32B, 0x3F7ED577, 0x3F7EC771, 0x3F7EB918, 0x3F7EAA6E, 0x3F7E9B72, 0x3F7E8C24, 0x3F7E7C84,
  0x3F7E6C92, 0x3F7E5C4F, 0x3F7E4BBA, 0x3F7E3AD3, 0x3F7E299A, 0x3F7E1810, 0x3F7E0634, 0x3F7DF407, 0x3F7DE188, 0x3F7DCEB8,
  0x3F7DBB97, 0x3F7DA824, 0x3F7D9460, 0x3F7D804A, 0x3F7D6BE4, 0x3F7D572C, 0x3F7D4224, 0x3F7D2CCA, 0x3F7D171F, 0x3F7D0124,
  0x3F7CEAD7, 0x3F7CD43A, 0x3F7CBD4C, 0x3F7CA60D, 0x3F7C8E7E, 0x3F7C769E, 0x3F7C5E6E, 0x3F7C45ED, 0x3F7C2D1C, 0x3F7C13FA,
  0x3F7BFA88, 0x3F7BE0C6, 0x3F7BC6B4, 0x3F7BAC52, 0x3F7B91A0, 0x3F7B769E, 0x3F7B5B4C, 0x3F7B3FAA, 0x3F7B23B9, 0x3F7B0778,
  0x3F7AEAE7, 0x3F7ACE07, 0x3F7AB0D8, 0x3F7A9359, 0x3F7A758A, 0x3F7A576D, 0x3F7A3900, 0x3F7A1A45, 0x3F79FB3A, 0x3F79DBE1]

/-- SINE, entries 600 to 699 (R69). -/
def sineRom06 : List Nat := [
  0x3F79BC38, 0x3F799C41, 0x3F797BFC, 0x3F795B67, 0x3F793A84, 0x3F791953, 0x3F78F7D4, 0x3F78D606, 0x3F78B3EA, 0x3F789180,
  0x3F786EC8, 0x3F784BC2, 0x3F78286E, 0x3F7804CD, 0x3F77E0DE, 0x3F77BCA1, 0x3F779817, 0x3F777340, 0x3F774E1B, 0x3F7728A9,
  0x3F7702EA, 0x3F76DCDF, 0x3F76B686, 0x3F768FE0, 0x3F7668EE, 0x3F7641AF, 0x3F761A24, 0x3F75F24C, 0x3F75CA28, 0x3F75A1B8,
  0x3F7578FC, 0x3F754FF4, 0x3F75269F, 0x3F74FD00, 0x3F74D314, 0x3F74A8DD, 0x3F747E5A, 0x3F74538C, 0x3F742873, 0x3F73FD0F,
  0x3F73D15F, 0x3F73A565, 0x3F737920, 0x3F734C90, 0x3F731FB6, 0x3F72F291, 0x3F72C522, 0x3F729769, 0x3F726965, 0x3F723B18,
  0x3F720C80, 0x3F71DD9F, 0x3F71AE75, 0x3F717F00, 0x3F714F42, 0x3F711F3B, 0x3F70EEEB, 0x3F70BE52, 0x3F708D70, 0x3F705C45,
  0x3F702AD1, 0x3F6FF915, 0x3F6FC710, 0x3F6F94C3, 0x3F6F622E, 0x3F6F2F51, 0x3F6EFC2C, 0x3F6EC8BF, 0x3F6E950B, 0x3F6E610F,
  0x3F6E2CCB, 0x3F6DF841, 0x3F6DC36F, 0x3F6D8E56, 0x3F6D58F6, 0x3F6D2350, 0x3F6CED63, 0x3F6CB730, 0x3F6C80B6, 0x3F6C49F6,
  0x3F6C12F0, 0x3F6BDBA4, 0x3F6BA412, 0x3F6B6C3B, 0x3F6B341E, 0x3F6AFBBC, 0x3F6AC315, 0x3F6A8A29, 0x3F6A50F7, 0x3F6A1781,
  0x3F69DDC7, 0x3F69A3C8, 0x3F696984, 0x3F692EFC, 0x3F68F431, 0x3F68B921, 0x3F687DCE, 0x3F684237, 0x3F68065D, 0x3F67CA3F]

/-- SINE, entries 700 to 799 (R69). -/
def sineRom07 : List Nat := [
  0x3F678DDE, 0x3F67513B, 0x3F671454, 0x3F66D72B, 0x3F6699BF, 0x3F665C11, 0x3F661E21, 0x3F65DFEE, 0x3F65A17A, 0x3F6562C4,
  0x3F6523CD, 0x3F64E494, 0x3F64A519, 0x3F64655E, 0x3F642562, 0x3F63E525, 0x3F63A4A7, 0x3F6363E9, 0x3F6322EB, 0x3F62E1AC,
  0x3F62A02E, 0x3F625E6F, 0x3F621C71, 0x3F61DA34, 0x3F6197B7, 0x3F6154FC, 0x3F611201, 0x3F60CEC7, 0x3F608B4F, 0x3F604799,
  0x3F6003A4, 0x3F5FBF71, 0x3F5F7B00, 0x3F5F3651, 0x3F5EF165, 0x3F5EAC3B, 0x3F5E66D4, 0x3F5E2130, 0x3F5DDB50, 0x3F5D9532,
  0x3F5D4ED8, 0x3F5D0842, 0x3F5CC16F, 0x3F5C7A60, 0x3F5C3316, 0x3F5BEB90, 0x3F5BA3CF, 0x3F5B5BD2, 0x3F5B139A, 0x3F5ACB27,
  0x3F5A827A, 0x3F5A3992, 0x3F59F06F, 0x3F59A713, 0x3F595D7C, 0x3F5913AC, 0x3F58C9A2, 0x3F587F5E, 0x3F5834E2, 0x3F57EA2C,
  0x3F579F3D, 0x3F575416, 0x3F5708B6, 0x3F56BD1E, 0x3F56714E, 0x3F562546, 0x3F55D906, 0x3F558C8F, 0x3F553FE0, 0x3F54F2FB,
  0x3F54A5DE, 0x3F54588B, 0x3F540B01, 0x3F53BD40, 0x3F536F4A, 0x3F53211D, 0x3F52D2BB, 0x3F528423, 0x3F523556, 0x3F51E653,
  0x3F51971C, 0x3F5147B0, 0x3F50F80F, 0x3F50A83A, 0x3F505831, 0x3F5007F4, 0x3F4FB783, 0x3F4F66DE, 0x3F4F1606, 0x3F4EC4FB,
  0x3F4E73BD, 0x3F4E224C, 0x3F4DD0A9, 0x3F4D7ED3, 0x3F4D2CCC, 0x3F4CDA92, 0x3F4C8827, 0x3F4C358A, 0x3F4BE2BB, 0x3F4B8FBC]

/-- SINE, entries 800 to 899 (R69). -/
def sineRom08 : List Nat := [
  0x3F4B3C8C, 0x3F4AE92B, 0x3F4A959A, 0x3F4A41D9, 0x3F49EDE7, 0x3F4999C6, 0x3F494575, 0x3F48F0F4, 0x3F489C45, 0x3F484766,
  0x3F47F259, 0x3F479D1D, 0x3F4747B3, 0x3F46F21B, 0x3F469C55, 0x3F464661, 0x3F45F040, 0x3F4599F2, 0x3F454376, 0x3F44ECCE,
  0x3F4495F9, 0x3F443EF8, 0x3F43E7CA, 0x3F439071, 0x3F4338EC, 0x3F42E13C, 0x3F428960, 0x3F423159, 0x3F41D928, 0x3F4180CB,
  0x3F412845, 0x3F40CF94, 0x3F4076BA, 0x3F401DB5, 0x3F3FC488, 0x3F3F6B31, 0x3F3F11B1, 0x3F3EB808, 0x3F3E5E36, 0x3F3E043D,
  0x3F3DAA1B, 0x3F3D4FD1, 0x3F3CF560, 0x3F3C9AC7, 0x3F3C4007, 0x3F3BE520, 0x3F3B8A12, 0x3F3B2EDE, 0x3F3AD383, 0x3F3A7803,
  0x3F3A1C5C, 0x3F39C090, 0x3F39649F, 0x3F390889, 0x3F38AC4D, 0x3F384FED, 0x3F37F369, 0x3F3796C0, 0x3F3739F4, 0x3F36DD03,
  0x3F367FF0, 0x3F3622B9, 0x3F35C55F, 0x3F3567E2, 0x3F350A42, 0x3F34AC81, 0x3F344E9D, 0x3F33F097, 0x3F339270, 0x3F333428,
  0x3F32D5BE, 0x3F327733, 0x3F321888, 0x3F31B9BD, 0x3F315AD1, 0x3F30FBC5, 0x3F309C9A, 0x3F303D4F, 0x3F2FDDE5, 0x3F2F7E5C,
  0x3F2F1EB5, 0x3F2EBEEE, 0x3F2E5F0A, 0x3F2DFF08, 0x3F2D9EE8, 0x3F2D3EAA, 0x3F2CDE4F, 0x3F2C7DD7, 0x3F2C1D42, 0x3F2BBC91,
  0x3F2B5BC4, 0x3F2AFADA, 0x3F2A99D5, 0x3F2A38B4, 0x3F29D778, 0x3F297620, 0x3F2914AE, 0x3F28B321, 0x3F28517A, 0x3F27EFB9]

/-- SINE, entries 900 to 999 (R69). -/
def sineRom09 : List Nat := [
  0x3F278DDE, 0x3F272BEA, 0x3F26C9DC, 0x3F2667B5, 0x3F260575, 0x3F25A31D, 0x3F2540AC, 0x3F24DE24, 0x3F247B83, 0x3F2418CB,
  0x3F23B5FB, 0x3F235314, 0x3F22F017, 0x3F228D03, 0x3F2229D8, 0x3F21C698, 0x3F216341, 0x3F20FFD5, 0x3F209C54, 0x3F2038BD,
  0x3F1FD512, 0x3F1F7152, 0x3F1F0D7E, 0x3F1EA996, 0x3F1E4599, 0x3F1DE18A, 0x3F1D7D67, 0x3F1D1930, 0x3F1CB4E7, 0x3F1C508C,
  0x3F1BEC1E, 0x3F1B879E, 0x3F1B230D, 0x3F1ABE69, 0x3F1A59B5, 0x3F19F4EF, 0x3F199019, 0x3F192B32, 0x3F18C63B, 0x3F186133,
  0x3F17FC1C, 0x3F1796F6, 0x3F1731C0, 0x3F16CC7B, 0x3F166728, 0x3F1601C6, 0x3F159C56, 0x3F1536D7, 0x3F14D14B, 0x3F146BB2,
  0x3F14060B, 0x3F13A058, 0x3F133A98, 0x3F12D4CB, 0x3F126EF2, 0x3F12090D, 0x3F11A31D, 0x3F113D21, 0x3F10D71A, 0x3F107108,
  0x3F100AEB, 0x3F0FA4C4, 0x3F0F3E93, 0x3F0ED858, 0x3F0E7214, 0x3F0E0BC6, 0x3F0DA56F, 0x3F0D3F0F, 0x3F0CD8A7, 0x3F0C7236,
  0x3F0C0BBE, 0x3F0BA53D, 0x3F0B3EB5, 0x3F0AD826, 0x3F0A7190, 0x3F0A0AF3, 0x3F09A44F, 0x3F093DA5, 0x3F08D6F5, 0x3F087040,
  0x3F080985, 0x3F07A2C5, 0x3F073C00, 0x3F06D536, 0x3F066E68, 0x3F060796, 0x3F05A0BF, 0x3F0539E5, 0x3F04D308, 0x3F046C28,
  0x3F040545, 0x3F039E5F, 0x3F033777, 0x3F02D08C, 0x3F0269A0, 0x3F0202B3, 0x3F019BC4, 0x3F0134D4, 0x3F00CDE3, 0x3F0066F2]

/-- SINE, entries 1000 to 1099 (R69). -/
def sineRom10 : List Nat := [
  0x3F000000, 0x3EFF321D, 0x3EFE643A, 0x3EFD9659, 0x3EFCC879, 0x3EFBFA9B, 0x3EFB2CC0, 0x3EFA5EE7, 0x3EF99113, 0x3EF8C343,
  0x3EF7F577, 0x3EF727B0, 0x3EF659F0, 0x3EF58C35, 0x3EF4BE81, 0x3EF3F0D5, 0x3EF32330, 0x3EF25594, 0x3EF18800, 0x3EF0BA76,
  0x3EEFECF6, 0x3EEF1F80, 0x3EEE5215, 0x3EED84B5, 0x3EECB762, 0x3EEBEA1B, 0x3EEB1CE1, 0x3EEA4FB4, 0x3EE98295, 0x3EE8B585,
  0x3EE7E885, 0x3EE71B93, 0x3EE64EB2, 0x3EE581E1, 0x3EE4B522, 0x3EE3E874, 0x3EE31BD8, 0x3EE24F4F, 0x3EE182D9, 0x3EE0B677,
  0x3EDFEA29, 0x3EDF1DF0, 0x3EDE51CC, 0x3EDD85BE, 0x3EDCB9C7, 0x3EDBEDE6, 0x3EDB221C, 0x3EDA566A, 0x3ED98AD1, 0x3ED8BF50,
  0x3ED7F3E9, 0x3ED7289C, 0x3ED65D69, 0x3ED59251, 0x3ED4C755, 0x3ED3FC74, 0x3ED331B0, 0x3ED26709, 0x3ED19C80, 0x3ED0D214,
  0x3ED007C7, 0x3ECF3D99, 0x3ECE738B, 0x3ECDA99C, 0x3ECCDFCF, 0x3ECC1622, 0x3ECB4C97, 0x3ECA832D, 0x3EC9B9E7, 0x3EC8F0C4,
  0x3EC827C4, 0x3EC75EE8, 0x3EC69631, 0x3EC5CD9F, 0x3EC50533, 0x3EC43CED, 0x3EC374CD, 0x3EC2ACD5, 0x3EC1E504, 0x3EC11D5C,
  0x3EC055DC, 0x3EBF8E85, 0x3EBEC759, 0x3EBE0056, 0x3EBD397E, 0x3EBC72D1, 0x3EBBAC50, 0x3EBAE5FB, 0x3EBA1FD2, 0x3EB959D7,
  0x3EB8940A, 0x3EB7CE6B, 0x3EB708FA, 0x3EB643B9, 0x3EB57EA7, 0x3EB4B9C6, 0x3EB3F515, 0x3EB33096, 0x3EB26C48, 0x3EB1A82C]

/-- SINE, entries 1100 to 1199 (R69). -/
def sineRom11 : List Nat := [
  0x3EB0E443, 0x3EB0208D, 0x3EAF5D0B, 0x3EAE99BD, 0x3EADD6A4, 0x3EAD13C0, 0x3EAC5111, 0x3EAB8E98, 0x3EAACC57, 0x3EAA0A4C,
  0x3EA94879, 0x3EA886DE, 0x3EA7C57B, 0x3EA70452, 0x3EA64362, 0x3EA582AC, 0x3EA4C231, 0x3EA401F1, 0x3EA341EC, 0x3EA28223,
  0x3EA1C297, 0x3EA10348, 0x3EA04436, 0x3E9F8562, 0x3E9EC6CC, 0x3E9E0875, 0x3E9D4A5E, 0x3E9C8C87, 0x3E9BCEEF, 0x3E9B1199,
  0x3E9A5484, 0x3E9997B1, 0x3E98DB20, 0x3E981ED1, 0x3E9762C6, 0x3E96A6FF, 0x3E95EB7B, 0x3E95303D, 0x3E947543, 0x3E93BA8F,
  0x3E930021, 0x3E9245F9, 0x3E918C19, 0x3E90D280, 0x3E90192E, 0x3E8F6026, 0x3E8EA766, 0x3E8DEEEF, 0x3E8D36C2, 0x3E8C7EDF,
  0x3E8BC747, 0x3E8B0FFB, 0x3E8A58F9, 0x3E89A244, 0x3E88EBDC, 0x3E8835C0, 0x3E877FF2, 0x3E86CA72, 0x3E861541, 0x3E85605E,
  0x3E84ABCB, 0x3E83F787, 0x3E834393, 0x3E828FF1, 0x3E81DC9F, 0x3E81299F, 0x3E8076F1, 0x3E7F892B, 0x3E7E251A, 0x3E7CC1AF,
  0x3E7B5EEC, 0x3E79FCD2, 0x3E789B62, 0x3E773A9B, 0x3E75DA80, 0x3E747B11, 0x3E731C50, 0x3E71BE3C, 0x3E7060D7, 0x3E6F0421,
  0x3E6DA81C, 0x3E6C4CC9, 0x3E6AF228, 0x3E69983A, 0x3E683F00, 0x3E66E67B, 0x3E658EAC, 0x3E643794, 0x3E62E133, 0x3E618B8B,
  0x3E60369C, 0x3E5EE267, 0x3E5D8EED, 0x3E5C3C2F, 0x3E5AEA2D, 0x3E5998E9, 0x3E584864, 0x3E56F89E, 0x3E55A998, 0x3E545B53]

/-- SINE, entries 1200 to 1299 (R69). -/
def sineRom12 : List Nat := [
  0x3E530DD0, 0x3E51C10F, 0x3E507512, 0x3E4F29D9, 0x3E4DDF66, 0x3E4C95B8, 0x3E4B4CD2, 0x3E4A04B3, 0x3E48BD5C, 0x3E4776CF,
  0x3E46310C, 0x3E44EC14, 0x3E43A7E8, 0x3E426488, 0x3E4121F6, 0x3E3FE032, 0x3E3E9F3D, 0x3E3D5F18, 0x3E3C1FC4, 0x3E3AE141,
  0x3E39A390, 0x3E3866B3, 0x3E372AA9, 0x3E35EF74, 0x3E34B515, 0x3E337B8C, 0x3E3242DA, 0x3E310AFF, 0x3E2FD3FE, 0x3E2E9DD6,
  0x3E2D6888, 0x3E2C3415, 0x3E2B007E, 0x3E29CDC4, 0x3E289BE6, 0x3E276AE7, 0x3E263AC7, 0x3E250B87, 0x3E23DD27, 0x3E22AFA8,
  0x3E21830B, 0x3E205750, 0x3E1F2C7A, 0x3E1E0287, 0x3E1CD979, 0x3E1BB151, 0x3E1A8A10, 0x3E1963B6, 0x3E183E43, 0x3E1719BA,
  0x3E15F61A, 0x3E14D364, 0x3E13B199, 0x3E1290B9, 0x3E1170C6, 0x3E1051C0, 0x3E0F33A8, 0x3E0E167E, 0x3E0CFA44, 0x3E0BDEF9,
  0x3E0AC4A0, 0x3E09AB37, 0x3E0892C1, 0x3E077B3E, 0x3E0664AE, 0x3E054F13, 0x3E043A6C, 0x3E0326BB, 0x3E021401, 0x3E01023D,
  0x3DFFE2E2, 0x3DFDC33B, 0x3DFBA587, 0x3DF989C6, 0x3DF76FF9, 0x3DF55823, 0x3DF34245, 0x3DF12E60, 0x3DEF1C75, 0x3DED0C86,
  0x3DEAFE94, 0x3DE8F2A0, 0x3DE6E8AB, 0x3DE4E0B8, 0x3DE2DAC7, 0x3DE0D6DA, 0x3DDED4F1, 0x3DDCD50F, 0x3DDAD735, 0x3DD8DB63,
  0x3DD6E19B, 0x3DD4E9DE, 0x3DD2F42E, 0x3DD1008C, 0x3DCF0EF9, 0x3DCD1F77, 0x3DCB3206, 0x3DC946A8, 0x3DC75D5F, 0x3DC5762A]

/-- SINE, entries 1300 to 1399 (R69). -/
def sineRom13 : List Nat := [
  0x3DC3910D, 0x3DC1AE07, 0x3DBFCD1A, 0x3DBDEE47, 0x3DBC1190, 0x3DBA36F6, 0x3DB85E79, 0x3DB6881C, 0x3DB4B3DF, 0x3DB2E1C3,
  0x3DB111CA, 0x3DAF43F5, 0x3DAD7845, 0x3DABAEBB, 0x3DA9E758, 0x3DA8221D, 0x3DA65F0D, 0x3DA49E27, 0x3DA2DF6C, 0x3DA122DF,
  0x3D9F6880, 0x3D9DB050, 0x3D9BFA51, 0x3D9A4683, 0x3D9894E7, 0x3D96E57F, 0x3D95384C, 0x3D938D4F, 0x3D91E488, 0x3D903DFA,
  0x3D8E99A4, 0x3D8CF789, 0x3D8B57A9, 0x3D89BA05, 0x3D881E9E, 0x3D868576, 0x3D84EE8D, 0x3D8359E4, 0x3D81C77D, 0x3D803758,
  0x3D7D52EC, 0x3D7A3BB2, 0x3D772903, 0x3D741AE0, 0x3D71114C, 0x3D6E0C49, 0x3D6B0BD9, 0x3D680FFD, 0x3D6518B8, 0x3D62260B,
  0x3D5F37F9, 0x3D5C4E83, 0x3D5969AB, 0x3D568973, 0x3D53ADDD, 0x3D50D6EB, 0x3D4E049F, 0x3D4B36F9, 0x3D486DFE, 0x3D45A9AD,
  0x3D42EA09, 0x3D402F13, 0x3D3D78CE, 0x3D3AC73B, 0x3D381A5C, 0x3D357233, 0x3D32CEC1, 0x3D303008, 0x3D2D9609, 0x3D2B00C7,
  0x3D287043, 0x3D25E47F, 0x3D235D7C, 0x3D20DB3C, 0x3D1E5DC1, 0x3D1BE50C, 0x3D19711F, 0x3D1701FB, 0x3D1497A3, 0x3D123217,
  0x3D0FD159, 0x3D0D756A, 0x3D0B1E4D, 0x3D08CC02, 0x3D067E8C, 0x3D0435EC, 0x3D01F222, 0x3CFF6662, 0x3CFAF235, 0x3CF687BE,
  0x3CF22702, 0x3CEDD002, 0x3CE982C1, 0x3CE53F43, 0x3CE1058A, 0x3CDCD599, 0x3CD8AF73, 0x3CD49319, 0x3CD08090, 0x3CCC77D8]

/-- SINE, entries 1400 to 1499 (R69). -/
def sineRom14 : List Nat := [
  0x3CC878F6, 0x3CC483EC, 0x3CC098BC, 0x3CBCB769, 0x3CB8DFF5, 0x3CB51262, 0x3CB14EB4, 0x3CAD94ED, 0x3CA9E50E, 0x3CA63F1C,
  0x3CA2A317, 0x3C9F1102, 0x3C9B88DF, 0x3C980AB2, 0x3C94967B, 0x3C912C3E, 0x3C8DCBFC, 0x3C8A75B7, 0x3C872973, 0x3C83E730,
  0x3C80AEF1, 0x3C7B0172, 0x3C74B911, 0x3C6E84C5, 0x3C686491, 0x3C62587A, 0x3C5C6083, 0x3C567CB0, 0x3C50AD05, 0x3C4AF186,
  0x3C454A36, 0x3C3FB719, 0x3C3A3833, 0x3C34CD87, 0x3C2F7719, 0x3C2A34ED, 0x3C250704, 0x3C1FED64, 0x3C1AE80F, 0x3C15F709,
  0x3C111A54, 0x3C0C51F4, 0x3C079DEC, 0x3C02FE3F, 0x3BFCE5E0, 0x3BF3F803, 0x3BEB32EF, 0x3BE296A7, 0x3BDA2333, 0x3BD1D896,
  0x3BC9B6D8, 0x3BC1BDFC, 0x3BB9EE08, 0x3BB24702, 0x3BAAC8ED, 0x3BA373D0, 0x3B9C47AE, 0x3B95448D, 0x3B8E6A70, 0x3B87B95D,
  0x3B813157, 0x3B75A4C6, 0x3B69390A, 0x3B5D1F82, 0x3B515836, 0x3B45E32D, 0x3B3AC06F, 0x3B2FF003, 0x3B2571F0, 0x3B1B463D,
  0x3B116CF0, 0x3B07E610, 0x3AFD6346, 0x3AEB9F5E, 0x3ADA8072, 0x3ACA068F, 0x3ABA31BE, 0x3AAB020B, 0x3A9C777F, 0x3A8E9223,
  0x3A815201, 0x3A696E41, 0x3A518314, 0x3A3AE28B, 0x3A258CB4, 0x3A11819D, 0x39FD82A8, 0x39DA97C7, 0x39BA42AF, 0x399C8375,
  0x39815A2C, 0x39518DCD, 0x39259366, 0x38FD8A81, 0x38BA46EB, 0x38815C37, 0x38259512, 0x37BA47FB, 0x3725957D, 0x36259598]

/-- SINE, entries 1500 to 1599 (R69). -/
def sineRom15 : List Nat := [
  0x00000000, 0x36259598, 0x3725957D, 0x37BA47FB, 0x38259512, 0x38815C37, 0x38BA46EB, 0x38FD8A81, 0x39259366, 0x39518DCD,
  0x39815A2C, 0x399C8375, 0x39BA42AF, 0x39DA97C7, 0x39FD82A8, 0x3A11819D, 0x3A258CB4, 0x3A3AE28B, 0x3A518314, 0x3A696E41,
  0x3A815201, 0x3A8E9223, 0x3A9C777F, 0x3AAB020B, 0x3ABA31BE, 0x3ACA068F, 0x3ADA8072, 0x3AEB9F5E, 0x3AFD6346, 0x3B07E610,
  0x3B116CF0, 0x3B1B463D, 0x3B2571F0, 0x3B2FF003, 0x3B3AC06F, 0x3B45E32D, 0x3B515836, 0x3B5D1F82, 0x3B69390A, 0x3B75A4C6,
  0x3B813157, 0x3B87B95D, 0x3B8E6A70, 0x3B95448D, 0x3B9C47AE, 0x3BA373D0, 0x3BAAC8ED, 0x3BB24702, 0x3BB9EE08, 0x3BC1BDFC,
  0x3BC9B6D8, 0x3BD1D896, 0x3BDA2333, 0x3BE296A7, 0x3BEB32EF, 0x3BF3F803, 0x3BFCE5E0, 0x3C02FE3F, 0x3C079DEC, 0x3C0C51F4,
  0x3C111A54, 0x3C15F709, 0x3C1AE80F, 0x3C1FED64, 0x3C250704, 0x3C2A34ED, 0x3C2F7719, 0x3C34CD87, 0x3C3A3833, 0x3C3FB719,
  0x3C454A36, 0x3C4AF186, 0x3C50AD05, 0x3C567CB0, 0x3C5C6083, 0x3C62587A, 0x3C686491, 0x3C6E84C5, 0x3C74B911, 0x3C7B0172,
  0x3C80AEF1, 0x3C83E730, 0x3C872973, 0x3C8A75B7, 0x3C8DCBFC, 0x3C912C3E, 0x3C94967B, 0x3C980AB2, 0x3C9B88DF, 0x3C9F1102,
  0x3CA2A317, 0x3CA63F1C, 0x3CA9E50E, 0x3CAD94ED, 0x3CB14EB4, 0x3CB51262, 0x3CB8DFF5, 0x3CBCB769, 0x3CC098BC, 0x3CC483EC]

/-- SINE, entries 1600 to 1699 (R69). -/
def sineRom16 : List Nat := [
  0x3CC878F6, 0x3CCC77D8, 0x3CD08090, 0x3CD49319, 0x3CD8AF73, 0x3CDCD599, 0x3CE1058A, 0x3CE53F43, 0x3CE982C1, 0x3CEDD002,
  0x3CF22702, 0x3CF687BE, 0x3CFAF235, 0x3CFF6662, 0x3D01F222, 0x3D0435EC, 0x3D067E8C, 0x3D08CC02, 0x3D0B1E4D, 0x3D0D756A,
  0x3D0FD159, 0x3D123217, 0x3D1497A3, 0x3D1701FB, 0x3D19711F, 0x3D1BE50C, 0x3D1E5DC1, 0x3D20DB3C, 0x3D235D7C, 0x3D25E47F,
  0x3D287043, 0x3D2B00C7, 0x3D2D9609, 0x3D303008, 0x3D32CEC1, 0x3D357233, 0x3D381A5C, 0x3D3AC73B, 0x3D3D78CE, 0x3D402F13,
  0x3D42EA09, 0x3D45A9AD, 0x3D486DFE, 0x3D4B36F9, 0x3D4E049F, 0x3D50D6EB, 0x3D53ADDD, 0x3D568973, 0x3D5969AB, 0x3D5C4E83,
  0x3D5F37F9, 0x3D62260B, 0x3D6518B8, 0x3D680FFD, 0x3D6B0BD9, 0x3D6E0C49, 0x3D71114C, 0x3D741AE0, 0x3D772903, 0x3D7A3BB2,
  0x3D7D52EC, 0x3D803758, 0x3D81C77D, 0x3D8359E4, 0x3D84EE8D, 0x3D868576, 0x3D881E9E, 0x3D89BA05, 0x3D8B57A9, 0x3D8CF789,
  0x3D8E99A4, 0x3D903DFA, 0x3D91E488, 0x3D938D4F, 0x3D95384C, 0x3D96E57F, 0x3D9894E7, 0x3D9A4683, 0x3D9BFA51, 0x3D9DB050,
  0x3D9F6880, 0x3DA122DF, 0x3DA2DF6C, 0x3DA49E27, 0x3DA65F0D, 0x3DA8221D, 0x3DA9E758, 0x3DABAEBB, 0x3DAD7845, 0x3DAF43F5,
  0x3DB111CA, 0x3DB2E1C3, 0x3DB4B3DF, 0x3DB6881C, 0x3DB85E79, 0x3DBA36F6, 0x3DBC1190, 0x3DBDEE47, 0x3DBFCD1A, 0x3DC1AE07]

/-- SINE, entries 1700 to 1799 (R69). -/
def sineRom17 : List Nat := [
  0x3DC3910D, 0x3DC5762A, 0x3DC75D5F, 0x3DC946A8, 0x3DCB3206, 0x3DCD1F77, 0x3DCF0EF9, 0x3DD1008C, 0x3DD2F42E, 0x3DD4E9DE,
  0x3DD6E19B, 0x3DD8DB63, 0x3DDAD735, 0x3DDCD50F, 0x3DDED4F1, 0x3DE0D6DA, 0x3DE2DAC7, 0x3DE4E0B8, 0x3DE6E8AB, 0x3DE8F2A0,
  0x3DEAFE94, 0x3DED0C86, 0x3DEF1C75, 0x3DF12E60, 0x3DF34245, 0x3DF55823, 0x3DF76FF9, 0x3DF989C6, 0x3DFBA587, 0x3DFDC33B,
  0x3DFFE2E2, 0x3E01023D, 0x3E021401, 0x3E0326BB, 0x3E043A6C, 0x3E054F13, 0x3E0664AE, 0x3E077B3E, 0x3E0892C1, 0x3E09AB37,
  0x3E0AC4A0, 0x3E0BDEF9, 0x3E0CFA44, 0x3E0E167E, 0x3E0F33A8, 0x3E1051C0, 0x3E1170C6, 0x3E1290B9, 0x3E13B199, 0x3E14D364,
  0x3E15F61A, 0x3E1719BA, 0x3E183E43, 0x3E1963B6, 0x3E1A8A10, 0x3E1BB151, 0x3E1CD979, 0x3E1E0287, 0x3E1F2C7A, 0x3E205750,
  0x3E21830B, 0x3E22AFA8, 0x3E23DD27, 0x3E250B87, 0x3E263AC7, 0x3E276AE7, 0x3E289BE6, 0x3E29CDC4, 0x3E2B007E, 0x3E2C3415,
  0x3E2D6888, 0x3E2E9DD6, 0x3E2FD3FE, 0x3E310AFF, 0x3E3242DA, 0x3E337B8C, 0x3E34B515, 0x3E35EF74, 0x3E372AA9, 0x3E3866B3,
  0x3E39A390, 0x3E3AE141, 0x3E3C1FC4, 0x3E3D5F18, 0x3E3E9F3D, 0x3E3FE032, 0x3E4121F6, 0x3E426488, 0x3E43A7E8, 0x3E44EC14,
  0x3E46310C, 0x3E4776CF, 0x3E48BD5C, 0x3E4A04B3, 0x3E4B4CD2, 0x3E4C95B8, 0x3E4DDF66, 0x3E4F29D9, 0x3E507512, 0x3E51C10F]

/-- SINE, entries 1800 to 1899 (R69). -/
def sineRom18 : List Nat := [
  0x3E530DD0, 0x3E545B53, 0x3E55A998, 0x3E56F89E, 0x3E584864, 0x3E5998E9, 0x3E5AEA2D, 0x3E5C3C2F, 0x3E5D8EED, 0x3E5EE267,
  0x3E60369C, 0x3E618B8B, 0x3E62E133, 0x3E643794, 0x3E658EAC, 0x3E66E67B, 0x3E683F00, 0x3E69983A, 0x3E6AF228, 0x3E6C4CC9,
  0x3E6DA81C, 0x3E6F0421, 0x3E7060D7, 0x3E71BE3C, 0x3E731C50, 0x3E747B11, 0x3E75DA80, 0x3E773A9B, 0x3E789B62, 0x3E79FCD2,
  0x3E7B5EEC, 0x3E7CC1AF, 0x3E7E251A, 0x3E7F892B, 0x3E8076F1, 0x3E81299F, 0x3E81DC9F, 0x3E828FF1, 0x3E834393, 0x3E83F787,
  0x3E84ABCB, 0x3E85605E, 0x3E861541, 0x3E86CA72, 0x3E877FF2, 0x3E8835C0, 0x3E88EBDC, 0x3E89A244, 0x3E8A58F9, 0x3E8B0FFB,
  0x3E8BC747, 0x3E8C7EDF, 0x3E8D36C2, 0x3E8DEEEF, 0x3E8EA766, 0x3E8F6026, 0x3E90192E, 0x3E90D280, 0x3E918C19, 0x3E9245F9,
  0x3E930021, 0x3E93BA8F, 0x3E947543, 0x3E95303D, 0x3E95EB7B, 0x3E96A6FF, 0x3E9762C6, 0x3E981ED1, 0x3E98DB20, 0x3E9997B1,
  0x3E9A5484, 0x3E9B1199, 0x3E9BCEEF, 0x3E9C8C87, 0x3E9D4A5E, 0x3E9E0875, 0x3E9EC6CC, 0x3E9F8562, 0x3EA04436, 0x3EA10348,
  0x3EA1C297, 0x3EA28223, 0x3EA341EC, 0x3EA401F1, 0x3EA4C231, 0x3EA582AC, 0x3EA64362, 0x3EA70452, 0x3EA7C57B, 0x3EA886DE,
  0x3EA94879, 0x3EAA0A4C, 0x3EAACC57, 0x3EAB8E98, 0x3EAC5111, 0x3EAD13C0, 0x3EADD6A4, 0x3EAE99BD, 0x3EAF5D0B, 0x3EB0208D]

/-- SINE, entries 1900 to 1999 (R69). -/
def sineRom19 : List Nat := [
  0x3EB0E443, 0x3EB1A82C, 0x3EB26C48, 0x3EB33096, 0x3EB3F515, 0x3EB4B9C6, 0x3EB57EA7, 0x3EB643B9, 0x3EB708FA, 0x3EB7CE6B,
  0x3EB8940A, 0x3EB959D7, 0x3EBA1FD2, 0x3EBAE5FB, 0x3EBBAC50, 0x3EBC72D1, 0x3EBD397E, 0x3EBE0056, 0x3EBEC759, 0x3EBF8E85,
  0x3EC055DC, 0x3EC11D5C, 0x3EC1E504, 0x3EC2ACD5, 0x3EC374CD, 0x3EC43CED, 0x3EC50533, 0x3EC5CD9F, 0x3EC69631, 0x3EC75EE8,
  0x3EC827C4, 0x3EC8F0C4, 0x3EC9B9E7, 0x3ECA832D, 0x3ECB4C97, 0x3ECC1622, 0x3ECCDFCF, 0x3ECDA99C, 0x3ECE738B, 0x3ECF3D99,
  0x3ED007C7, 0x3ED0D214, 0x3ED19C80, 0x3ED26709, 0x3ED331B0, 0x3ED3FC74, 0x3ED4C755, 0x3ED59251, 0x3ED65D69, 0x3ED7289C,
  0x3ED7F3E9, 0x3ED8BF50, 0x3ED98AD1, 0x3EDA566A, 0x3EDB221C, 0x3EDBEDE6, 0x3EDCB9C7, 0x3EDD85BE, 0x3EDE51CC, 0x3EDF1DF0,
  0x3EDFEA29, 0x3EE0B677, 0x3EE182D9, 0x3EE24F4F, 0x3EE31BD8, 0x3EE3E874, 0x3EE4B522, 0x3EE581E1, 0x3EE64EB2, 0x3EE71B93,
  0x3EE7E885, 0x3EE8B585, 0x3EE98295, 0x3EEA4FB4, 0x3EEB1CE1, 0x3EEBEA1B, 0x3EECB762, 0x3EED84B5, 0x3EEE5215, 0x3EEF1F80,
  0x3EEFECF6, 0x3EF0BA76, 0x3EF18800, 0x3EF25594, 0x3EF32330, 0x3EF3F0D5, 0x3EF4BE81, 0x3EF58C35, 0x3EF659F0, 0x3EF727B0,
  0x3EF7F577, 0x3EF8C343, 0x3EF99113, 0x3EFA5EE7, 0x3EFB2CC0, 0x3EFBFA9B, 0x3EFCC879, 0x3EFD9659, 0x3EFE643A, 0x3EFF321D]

/-- The SINE table, 2000 binary32 words (R46, R69), in blocks of a hundred. -/
def sineBlocks : List (List Nat) :=
  [sineRom00, sineRom01, sineRom02, sineRom03, sineRom04,
   sineRom05, sineRom06, sineRom07, sineRom08, sineRom09,
   sineRom10, sineRom11, sineRom12, sineRom13, sineRom14,
   sineRom15, sineRom16, sineRom17, sineRom18, sineRom19]

/-- SQUARE, entries 0 to 99 (R69). -/
def squareRom00 : List Nat := [
  0x3F7C38BE, 0x3F7C7CB9, 0x3F7CBDA3, 0x3F7CFB93, 0x3F7D36A0, 0x3F7D6EE0, 0x3F7DA46C, 0x3F7DD75A, 0x3F7E07C0, 0x3F7E35B7,
  0x3F7E6153, 0x3F7E8AAB, 0x3F7EB1D6, 0x3F7ED6E9, 0x3F7EF9F9, 0x3F7F1B1B, 0x3F7F3A66, 0x3F7F57EC, 0x3F7F73C2, 0x3F7F8DFD,
  0x3F7FA6B0, 0x3F7FBDED, 0x3F7FD3C8, 0x3F7FE853, 0x3F7FFB9F, 0x3F8006E0, 0x3F800F62, 0x3F80175E, 0x3F801EDE, 0x3F8025E7,
  0x3F802C83, 0x3F8032B8, 0x3F80388D, 0x3F803E0A, 0x3F804335, 0x3F804815, 0x3F804CAF, 0x3F805109, 0x3F80552A, 0x3F805916,
  0x3F805CD2, 0x3F806065, 0x3F8063D1, 0x3F80671C, 0x3F806A4A, 0x3F806D5F, 0x3F80705E, 0x3F80734B, 0x3F807629, 0x3F8078FB,
  0x3F807BC4, 0x3F807E86, 0x3F808144, 0x3F8083FF, 0x3F8086BA, 0x3F808976, 0x3F808C34, 0x3F808EF7, 0x3F8091BF, 0x3F80948C,
  0x3F809760, 0x3F809A3B, 0x3F809D1E, 0x3F80A008, 0x3F80A2FA, 0x3F80A5F3, 0x3F80A8F4, 0x3F80ABFC, 0x3F80AF0A, 0x3F80B21F,
  0x3F80B538, 0x3F80B855, 0x3F80BB76, 0x3F80BE98, 0x3F80C1BC, 0x3F80C4DF, 0x3F80C801, 0x3F80CB20, 0x3F80CE3B, 0x3F80D14F,
  0x3F80D45D, 0x3F80D761, 0x3F80DA5B, 0x3F80DD49, 0x3F80E028, 0x3F80E2F9, 0x3F80E5B8, 0x3F80E864, 0x3F80EAFB, 0x3F80ED7D,
  0x3F80EFE6, 0x3F80F236, 0x3F80F46B, 0x3F80F683, 0x3F80F87D, 0x3F80FA57, 0x3F80FC10, 0x3F80FDA7, 0x3F80FF1A, 0x3F810067]

/-- SQUARE, entries 100 to 199 (R69). -/
def squareRom01 : List Nat := [
  0x3F81018F, 0x3F81028E, 0x3F810366, 0x3F810413, 0x3F810496, 0x3F8104EE, 0x3F81051A, 0x3F810519, 0x3F8104EA, 0x3F81048E,
  0x3F810403, 0x3F810349, 0x3F810261, 0x3F81014A, 0x3F810003, 0x3F80FE8E, 0x3F80FCE9, 0x3F80FB16, 0x3F80F915, 0x3F80F6E5,
  0x3F80F488, 0x3F80F1FE, 0x3F80EF49, 0x3F80EC67, 0x3F80E95B, 0x3F80E626, 0x3F80E2C8, 0x3F80DF43, 0x3F80DB97, 0x3F80D7C6,
  0x3F80D3D2, 0x3F80CFBC, 0x3F80CB85, 0x3F80C72E, 0x3F80C2BA, 0x3F80BE2B, 0x3F80B981, 0x3F80B4BF, 0x3F80AFE6, 0x3F80AAF8,
  0x3F80A5F8, 0x3F80A0E7, 0x3F809BC8, 0x3F80969B, 0x3F809164, 0x3F808C25, 0x3F8086DE, 0x3F808194, 0x3F807C47, 0x3F8076FA,
  0x3F8071AE, 0x3F806C67, 0x3F806726, 0x3F8061ED, 0x3F805CBF, 0x3F80579D, 0x3F80528A, 0x3F804D87, 0x3F804897, 0x3F8043BB,
  0x3F803EF6, 0x3F803A49, 0x3F8035B6, 0x3F80313F, 0x3F802CE6, 0x3F8028AC, 0x3F802493, 0x3F80209D, 0x3F801CCB, 0x3F80191E,
  0x3F801599, 0x3F80123B, 0x3F800F08, 0x3F800BFE, 0x3F800921, 0x3F800670, 0x3F8003ED, 0x3F800199, 0x3F7FFEE8, 0x3F7FFAFE,
  0x3F7FF775, 0x3F7FF44E, 0x3F7FF18B, 0x3F7FEF2B, 0x3F7FED2F, 0x3F7FEB98, 0x3F7FEA66, 0x3F7FE999, 0x3F7FE930, 0x3F7FE92B,
  0x3F7FE98B, 0x3F7FEA4D, 0x3F7FEB71, 0x3F7FECF7, 0x3F7FEEDD, 0x3F7FF121, 0x3F7FF3C2, 0x3F7FF6BF, 0x3F7FFA16, 0x3F7FFDC4]

/-- SQUARE, entries 200 to 299 (R69). -/
def squareRom02 : List Nat := [
  0x3F8000E4, 0x3F800310, 0x3F800564, 0x3F8007E0, 0x3F800A82, 0x3F800D48, 0x3F801032, 0x3F80133D, 0x3F801669, 0x3F8019B3,
  0x3F801D1B, 0x3F80209E, 0x3F80243A, 0x3F8027EF, 0x3F802BBB, 0x3F802F9A, 0x3F80338D, 0x3F803791, 0x3F803BA4, 0x3F803FC4,
  0x3F8043F0, 0x3F804825, 0x3F804C62, 0x3F8050A5, 0x3F8054EC, 0x3F805936, 0x3F805D80, 0x3F8061C8, 0x3F80660E, 0x3F806A4E,
  0x3F806E88, 0x3F8072B9, 0x3F8076E0, 0x3F807AFC, 0x3F807F0A, 0x3F808309, 0x3F8086F8, 0x3F808AD5, 0x3F808E9F, 0x3F809254,
  0x3F8095F2, 0x3F80997A, 0x3F809CE8, 0x3F80A03E, 0x3F80A378, 0x3F80A696, 0x3F80A998, 0x3F80AC7C, 0x3F80AF41, 0x3F80B1E7,
  0x3F80B46D, 0x3F80B6D2, 0x3F80B916, 0x3F80BB39, 0x3F80BD39, 0x3F80BF17, 0x3F80C0D2, 0x3F80C26B, 0x3F80C3E0, 0x3F80C533,
  0x3F80C662, 0x3F80C76F, 0x3F80C859, 0x3F80C921, 0x3F80C9C6, 0x3F80CA4A, 0x3F80CAAD, 0x3F80CAEF, 0x3F80CB11, 0x3F80CB13,
  0x3F80CAF7, 0x3F80CABD, 0x3F80CA65, 0x3F80C9F2, 0x3F80C963, 0x3F80C8BB, 0x3F80C7F9, 0x3F80C71F, 0x3F80C62E, 0x3F80C527,
  0x3F80C40C, 0x3F80C2DE, 0x3F80C19E, 0x3F80C04E, 0x3F80BEEE, 0x3F80BD81, 0x3F80BC07, 0x3F80BA83, 0x3F80B8F5, 0x3F80B75F,
  0x3F80B5C3, 0x3F80B422, 0x3F80B27E, 0x3F80B0D8, 0x3F80AF31, 0x3F80AD8B, 0x3F80ABE8, 0x3F80AA49, 0x3F80A8B0, 0x3F80A71D]

/-- SQUARE, entries 300 to 399 (R69). -/
def squareRom03 : List Nat := [
  0x3F80A593, 0x3F80A413, 0x3F80A29E, 0x3F80A136, 0x3F809FDC, 0x3F809E91, 0x3F809D56, 0x3F809C2D, 0x3F809B17, 0x3F809A15,
  0x3F809928, 0x3F809852, 0x3F809793, 0x3F8096EB, 0x3F80965D, 0x3F8095E9, 0x3F80958F, 0x3F809551, 0x3F80952E, 0x3F809529,
  0x3F809540, 0x3F809576, 0x3F8095C9, 0x3F80963B, 0x3F8096CB, 0x3F80977B, 0x3F809849, 0x3F809937, 0x3F809A43, 0x3F809B6F,
  0x3F809CBA, 0x3F809E24, 0x3F809FAC, 0x3F80A152, 0x3F80A317, 0x3F80A4F9, 0x3F80A6F7, 0x3F80A912, 0x3F80AB49, 0x3F80AD9B,
  0x3F80B006, 0x3F80B28C, 0x3F80B52A, 0x3F80B7DF, 0x3F80BAAB, 0x3F80BD8D, 0x3F80C084, 0x3F80C38D, 0x3F80C6AA, 0x3F80C9D7,
  0x3F80CD14, 0x3F80D05F, 0x3F80D3B8, 0x3F80D71D, 0x3F80DA8C, 0x3F80DE04, 0x3F80E184, 0x3F80E50A, 0x3F80E895, 0x3F80EC23,
  0x3F80EFB3, 0x3F80F343, 0x3F80F6D1, 0x3F80FA5D, 0x3F80FDE5, 0x3F810167, 0x3F8104E1, 0x3F810853, 0x3F810BBA, 0x3F810F16,
  0x3F811264, 0x3F8115A4, 0x3F8118D3, 0x3F811BF1, 0x3F811EFB, 0x3F8121F2, 0x3F8124D3, 0x3F81279D, 0x3F812A4F, 0x3F812CE7,
  0x3F812F66, 0x3F8131C8, 0x3F81340E, 0x3F813637, 0x3F813841, 0x3F813A2B, 0x3F813BF5, 0x3F813D9E, 0x3F813F24, 0x3F814089,
  0x3F8141CA, 0x3F8142E7, 0x3F8143E0, 0x3F8144B4, 0x3F814563, 0x3F8145ED, 0x3F814651, 0x3F81468F, 0x3F8146A8, 0x3F81469A]

/-- SQUARE, entries 400 to 499 (R69). -/
def squareRom04 : List Nat := [
  0x3F814666, 0x3F81460D, 0x3F81458E, 0x3F8144E9, 0x3F81441F, 0x3F814331, 0x3F81421E, 0x3F8140E7, 0x3F813F8C, 0x3F813E0F,
  0x3F813C70, 0x3F813AAF, 0x3F8138CE, 0x3F8136CD, 0x3F8134AD, 0x3F81326F, 0x3F813015, 0x3F812D9E, 0x3F812B0D, 0x3F812862,
  0x3F81259E, 0x3F8122C4, 0x3F811FD3, 0x3F811CCE, 0x3F8119B5, 0x3F81168B, 0x3F811350, 0x3F811006, 0x3F810CAE, 0x3F81094A,
  0x3F8105DB, 0x3F810263, 0x3F80FEE3, 0x3F80FB5C, 0x3F80F7D2, 0x3F80F443, 0x3F80F0B4, 0x3F80ED23, 0x3F80E995, 0x3F80E609,
  0x3F80E281, 0x3F80DF00, 0x3F80DB85, 0x3F80D813, 0x3F80D4AC, 0x3F80D14F, 0x3F80CE00, 0x3F80CABF, 0x3F80C78D, 0x3F80C46C,
  0x3F80C15D, 0x3F80BE61, 0x3F80BB79, 0x3F80B8A7, 0x3F80B5EB, 0x3F80B346, 0x3F80B0BA, 0x3F80AE47, 0x3F80ABED, 0x3F80A9AF,
  0x3F80A78C, 0x3F80A586, 0x3F80A39C, 0x3F80A1CF, 0x3F80A020, 0x3F809E8F, 0x3F809D1D, 0x3F809BC9, 0x3F809A95, 0x3F80997F,
  0x3F809889, 0x3F8097B2, 0x3F8096F9, 0x3F809660, 0x3F8095E6, 0x3F80958A, 0x3F80954C, 0x3F80952D, 0x3F80952A, 0x3F809544,
  0x3F80957B, 0x3F8095CD, 0x3F80963A, 0x3F8096C1, 0x3F809761, 0x3F80981A, 0x3F8098EA, 0x3F8099D0, 0x3F809ACC, 0x3F809BDD,
  0x3F809D01, 0x3F809E36, 0x3F809F7D, 0x3F80A0D3, 0x3F80A237, 0x3F80A3A9, 0x3F80A526, 0x3F80A6AD, 0x3F80A83E, 0x3F80A9D5]

/-- SQUARE, entries 500 to 599 (R69). -/
def squareRom05 : List Nat := [
  0x3F80AB73, 0x3F80AD15, 0x3F80AEBA, 0x3F80B060, 0x3F80B207, 0x3F80B3AC, 0x3F80B54E, 0x3F80B6EC, 0x3F80B884, 0x3F80BA14,
  0x3F80BB9B, 0x3F80BD18, 0x3F80BE89, 0x3F80BFEC, 0x3F80C141, 0x3F80C286, 0x3F80C3B9, 0x3F80C4DA, 0x3F80C5E6, 0x3F80C6DD,
  0x3F80C7BE, 0x3F80C886, 0x3F80C936, 0x3F80C9CD, 0x3F80CA48, 0x3F80CAA7, 0x3F80CAE9, 0x3F80CB0E, 0x3F80CB14, 0x3F80CAFB,
  0x3F80CAC3, 0x3F80CA69, 0x3F80C9EF, 0x3F80C953, 0x3F80C895, 0x3F80C7B4, 0x3F80C6B2, 0x3F80C58C, 0x3F80C443, 0x3F80C2D8,
  0x3F80C149, 0x3F80BF97, 0x3F80BDC3, 0x3F80BBCC, 0x3F80B9B4, 0x3F80B779, 0x3F80B51D, 0x3F80B2A0, 0x3F80B003, 0x3F80AD47,
  0x3F80AA6B, 0x3F80A772, 0x3F80A45C, 0x3F80A129, 0x3F809DDB, 0x3F809A74, 0x3F8096F3, 0x3F80935B, 0x3F808FAC, 0x3F808BE8,
  0x3F808811, 0x3F808427, 0x3F80802C, 0x3F807C22, 0x3F80780A, 0x3F8073E6, 0x3F806FB7, 0x3F806B80, 0x3F806741, 0x3F8062FD,
  0x3F805EB5, 0x3F805A6B, 0x3F805621, 0x3F8051D9, 0x3F804D95, 0x3F804956, 0x3F80451E, 0x3F8040F0, 0x3F803CCC, 0x3F8038B5,
  0x3F8034AD, 0x3F8030B5, 0x3F802CD0, 0x3F8028FF, 0x3F802543, 0x3F80219F, 0x3F801E15, 0x3F801AA6, 0x3F801753, 0x3F80141E,
  0x3F80110A, 0x3F800E16, 0x3F800B46, 0x3F80089A, 0x3F800613, 0x3F8003B4, 0x3F80017D, 0x3F7FFEDD, 0x3F7FFB17, 0x3F7FF7A7]

/-- SQUARE, entries 600 to 699 (R69). -/
def squareRom06 : List Nat := [
  0x3F7FF491, 0x3F7FF1D5, 0x3F7FEF77, 0x3F7FED76, 0x3F7FEBD5, 0x3F7FEA95, 0x3F7FE9B7, 0x3F7FE93C, 0x3F7FE925, 0x3F7FE971,
  0x3F7FEA22, 0x3F7FEB38, 0x3F7FECB2, 0x3F7FEE92, 0x3F7FF0D5, 0x3F7FF37D, 0x3F7FF688, 0x3F7FF9F5, 0x3F7FFDC4, 0x3F8000FA,
  0x3F800341, 0x3F8005B7, 0x3F80085A, 0x3F800B2B, 0x3F800E28, 0x3F801150, 0x3F8014A2, 0x3F80181C, 0x3F801BBE, 0x3F801F86,
  0x3F802372, 0x3F802781, 0x3F802BB2, 0x3F803002, 0x3F803471, 0x3F8038FC, 0x3F803DA2, 0x3F804261, 0x3F804736, 0x3F804C21,
  0x3F80511F, 0x3F80562E, 0x3F805B4C, 0x3F806077, 0x3F8065AD, 0x3F806AEC, 0x3F807031, 0x3F80757B, 0x3F807AC8, 0x3F808016,
  0x3F808561, 0x3F808AA9, 0x3F808FEB, 0x3F809524, 0x3F809A54, 0x3F809F77, 0x3F80A48D, 0x3F80A992, 0x3F80AE85, 0x3F80B363,
  0x3F80B82C, 0x3F80BCDD, 0x3F80C174, 0x3F80C5F0, 0x3F80CA4F, 0x3F80CE8F, 0x3F80D2AF, 0x3F80D6AD, 0x3F80DA88, 0x3F80DE3E,
  0x3F80E1CE, 0x3F80E537, 0x3F80E878, 0x3F80EB90, 0x3F80EE7D, 0x3F80F13F, 0x3F80F3D6, 0x3F80F63F, 0x3F80F87C, 0x3F80FA8A,
  0x3F80FC6A, 0x3F80FE1C, 0x3F80FF9F, 0x3F8100F2, 0x3F810217, 0x3F81030D, 0x3F8103D3, 0x3F81046B, 0x3F8104D5, 0x3F810510,
  0x3F81051E, 0x3F8104FF, 0x3F8104B4, 0x3F81043D, 0x3F81039B, 0x3F8102CF, 0x3F8101DB, 0x3F8100BF, 0x3F80FF7C, 0x3F80FE13]

/-- SQUARE, entries 700 to 799 (R69). -/
def squareRom07 : List Nat := [
  0x3F80FC87, 0x3F80FAD7, 0x3F80F906, 0x3F80F715, 0x3F80F505, 0x3F80F2D8, 0x3F80F08F, 0x3F80EE2D, 0x3F80EBB2, 0x3F80E921,
  0x3F80E67A, 0x3F80E3C0, 0x3F80E0F5, 0x3F80DE19, 0x3F80DB2F, 0x3F80D839, 0x3F80D537, 0x3F80D22C, 0x3F80CF19, 0x3F80CC00,
  0x3F80C8E3, 0x3F80C5C1, 0x3F80C29E, 0x3F80BF7B, 0x3F80BC57, 0x3F80B936, 0x3F80B618, 0x3F80B2FD, 0x3F80AFE8, 0x3F80ACD8,
  0x3F80A9CE, 0x3F80A6CB, 0x3F80A3D0, 0x3F80A0DC, 0x3F809DEF, 0x3F809B0A, 0x3F80982D, 0x3F809557, 0x3F809288, 0x3F808FBF,
  0x3F808CFB, 0x3F808A3B, 0x3F80877F, 0x3F8084C4, 0x3F808209, 0x3F807F4C, 0x3F807C8B, 0x3F8079C5, 0x3F8076F6, 0x3F80741B,
  0x3F807133, 0x3F806E39, 0x3F806B2B, 0x3F806805, 0x3F8064C2, 0x3F80615F, 0x3F805DD8, 0x3F805A28, 0x3F805649, 0x3F805238,
  0x3F804DEF, 0x3F804967, 0x3F80449C, 0x3F803F87, 0x3F803A22, 0x3F803466, 0x3F802E4C, 0x3F8027CE, 0x3F8020E5, 0x3F801987,
  0x3F8011AF, 0x3F800953, 0x3F80006C, 0x3F7FEDE2, 0x3F7FD9B2, 0x3F7FC438, 0x3F7FAD60, 0x3F7F9519, 0x3F7F7B4F, 0x3F7F5FEE,
  0x3F7F42E3, 0x3F7F241B, 0x3F7F037F, 0x3F7EE0FC, 0x3F7EBC7D, 0x3F7E95EB, 0x3F7E6D32, 0x3F7E423B, 0x3F7E14F1, 0x3F7DE53C,
  0x3F7DB307, 0x3F7D7E3A, 0x3F7D46BF, 0x3F7D0C7F, 0x3F7CCF62, 0x3F7C8F51, 0x3F7C4C35, 0x3F7C05F6, 0x3F7BBC7E, 0x3F7B6FB4]

/-- SQUARE, entries 800 to 899 (R69). -/
def squareRom08 : List Nat := [
  0x3F7B1F82, 0x3F7ACBD0, 0x3F7A7487, 0x3F7A1990, 0x3F79BAD4, 0x3F79583B, 0x3F78F1B1, 0x3F78871D, 0x3F78186B, 0x3F77A584,
  0x3F772E52, 0x3F76B2C0, 0x3F7632BA, 0x3F75AE2A, 0x3F7524FD, 0x3F74971E, 0x3F74047B, 0x3F736D01, 0x3F72D09D, 0x3F722F3E,
  0x3F7188D2, 0x3F70DD49, 0x3F702C92, 0x3F6F769F, 0x3F6EBB60, 0x3F6DFAC7, 0x3F6D34C7, 0x3F6C6953, 0x3F6B9860, 0x3F6AC1E1,
  0x3F69E5CD, 0x3F69041A, 0x3F681CC0, 0x3F672FB5, 0x3F663CF4, 0x3F654475, 0x3F644634, 0x3F63422D, 0x3F62385A, 0x3F6128BB,
  0x3F60134D, 0x3F5EF810, 0x3F5DD703, 0x3F5CB029, 0x3F5B8383, 0x3F5A5115, 0x3F5918E3, 0x3F57DAF1, 0x3F569747, 0x3F554DEC,
  0x3F53FEE7, 0x3F52AA43, 0x3F515009, 0x3F4FF045, 0x3F4E8B04, 0x3F4D2052, 0x3F4BB03E, 0x3F4A3AD7, 0x3F48C02E, 0x3F474055,
  0x3F45BB5E, 0x3F44315B, 0x3F42A262, 0x3F410E88, 0x3F3F75E3, 0x3F3DD88B, 0x3F3C3697, 0x3F3A9020, 0x3F38E541, 0x3F373614,
  0x3F3582B6, 0x3F33CB42, 0x3F320FD6, 0x3F305090, 0x3F2E8D8F, 0x3F2CC6F2, 0x3F2AFCDB, 0x3F292F6A, 0x3F275EC1, 0x3F258B03,
  0x3F23B453, 0x3F21DAD3, 0x3F1FFEAA, 0x3F1E1FFB, 0x3F1C3EEC, 0x3F1A5BA3, 0x3F187646, 0x3F168EFC, 0x3F14A5EC, 0x3F12BB3E,
  0x3F10CF19, 0x3F0EE1A5, 0x3F0CF30C, 0x3F0B0376, 0x3F09130B, 0x3F0721F6, 0x3F05305E, 0x3F033E6D, 0x3F014C4E, 0x3EFEB450]

/-- SQUARE, entries 900 to 999 (R69). -/
def squareRom09 : List Nat := [
  0x3EFAD04C, 0x3EF6ECE2, 0x3EF30A65, 0x3EEF2927, 0x3EEB497B, 0x3EE76BB2, 0x3EE3901E, 0x3EDFB70F, 0x3EDBE0D7, 0x3ED80DC6,
  0x3ED43E2A, 0x3ED07252, 0x3ECCAA8D, 0x3EC8E726, 0x3EC5286A, 0x3EC16EA4, 0x3EBDBA1E, 0x3EBA0B21, 0x3EB661F4, 0x3EB2BEDF,
  0x3EAF2226, 0x3EAB8C0E, 0x3EA7FCD9, 0x3EA474C8, 0x3EA0F41C, 0x3E9D7B12, 0x3E9A09E7, 0x3E96A0D7, 0x3E93401B, 0x3E8FE7EB,
  0x3E8C987D, 0x3E895205, 0x3E8614B7, 0x3E82E0C2, 0x3E7F6CAC, 0x3E792B40, 0x3E72FD97, 0x3E6CE402, 0x3E66DED1, 0x3E60EE4E,
  0x3E5B12C1, 0x3E554C6B, 0x3E4F9B8D, 0x3E4A0060, 0x3E447B1B, 0x3E3F0BF1, 0x3E39B311, 0x3E3470A5, 0x3E2F44D3, 0x3E2A2FBE,
  0x3E253184, 0x3E204A3F, 0x3E1B7A04, 0x3E16C0E7, 0x3E121EF6, 0x3E0D9439, 0x3E0920B8, 0x3E04C475, 0x3E007F6D, 0x3DF8A338,
  0x3DF075EF, 0x3DE876E6, 0x3DE0A5FC, 0x3DD90308, 0x3DD18DD9, 0x3DCA4639, 0x3DC32BEA, 0x3DBC3EA8, 0x3DB57E28, 0x3DAEEA17,
  0x3DA8821E, 0x3DA245DF, 0x3D9C34F7, 0x3D964EFB, 0x3D90937C, 0x3D8B0206, 0x3D859A1D, 0x3D805B44, 0x3D7689EE, 0x3D6CAD58,
  0x3D631FAE, 0x3D59DFCC, 0x3D50EC88, 0x3D4844AF, 0x3D3FE707, 0x3D37D250, 0x3D300541, 0x3D287E8F, 0x3D213CE5, 0x3D1A3EEC,
  0x3D138346, 0x3D0D0892, 0x3D06CD6B, 0x3D00D068, 0x3CF6203B, 0x3CEB1639, 0x3CE07FE7, 0x3CD65A62, 0x3CCCA2C1, 0x3CC3561A]

/-- SQUARE, entries 1000 to 1099 (R69). -/
def squareRom10 : List Nat := [
  0x3CBA7181, 0x3CB1F20A, 0x3CA9D4C9, 0x3CA216D5, 0x3C9AB545, 0x3C93AD33, 0x3C8CFBBC, 0x3C869E02, 0x3C80912A, 0x3C75A4C3,
  0x3C6ABDB4, 0x3C606796, 0x3C569CEC, 0x3C4D5844, 0x3C449441, 0x3C3C4B95, 0x3C347908, 0x3C2D1777, 0x3C2621D1, 0x3C1F931F,
  0x3C196681, 0x3C13972D, 0x3C0E2074, 0x3C08FDC2, 0x3C042A9A, 0x3BFF453E, 0x3BF6C318, 0x3BEEC676, 0x3BE74744, 0x3BE03DAB,
  0x3BD9A20E, 0x3BD36D10, 0x3BCD978E, 0x3BC81AA6, 0x3BC2EFB4, 0x3BBE1053, 0x3BB9765D, 0x3BB51BED, 0x3BB0FB5C, 0x3BAD0F46,
  0x3BA95282, 0x3BA5C02C, 0x3BA2539B, 0x3B9F0867, 0x3B9BDA67, 0x3B98C5B0, 0x3B95C693, 0x3B92D9A1, 0x3B8FFBA4, 0x3B8D29A3,
  0x3B8A60E0, 0x3B879ED6, 0x3B84E137, 0x3B8225F0, 0x3B7ED640, 0x3B795E3E, 0x3B73E0ED, 0x3B6E5BC7, 0x3B68CCA7, 0x3B6331C8,
  0x3B5D89C2, 0x3B57D386, 0x3B520E5C, 0x3B4C39DD, 0x3B4655F6, 0x3B4062DD, 0x3B3A6113, 0x3B34515F, 0x3B2E34C9, 0x3B280C9A,
  0x3B21DA55, 0x3B1B9FB6, 0x3B155EAD, 0x3B0F1959, 0x3B08D20A, 0x3B028B36, 0x3AF88EF4, 0x3AEC132E, 0x3ADFA8D8, 0x3AD355E6,
  0x3AC7207C, 0x3ABB0EE9, 0x3AAF279D, 0x3AA37122, 0x3A97F219, 0x3A8CB130, 0x3A81B51E, 0x3A6E0933, 0x3A594CAE, 0x3A4541FD,
  0x3A31F650, 0x3A1F76AD, 0x3A0DCFE1, 0x39FA1CEC, 0x39DA7D59, 0x39BCD8DC, 0x39A14687, 0x3987DC9D, 0x396160FC, 0x3937AD2C]

/-- SQUARE, entries 1100 to 1199 (R69). -/
def squareRom11 : List Nat := [
  0x3912C49D, 0x38E59801, 0x38AFCB8D, 0x38846410, 0x384739B0, 0x381B584C, 0x38058605, 0x38061A39, 0x381D6147, 0x384B9C5C,
  0x388880A0, 0x38B6DD11, 0x38F0F2C1, 0x391B6582, 0x3944349D, 0x3972E567, 0x3993B9C9, 0x39B0EBEC, 0x39D103F8, 0x39F3FB50,
  0x3A0CE4ED, 0x3A213305, 0x3A36E271, 0x3A4DECFA, 0x3A664BBA, 0x3A7FF719, 0x3A8D736A, 0x3A9B8900, 0x3AAA3789, 0x3AB979EF,
  0x3AC94AD1, 0x3AD9A482, 0x3AEA8112, 0x3AFBDA4A, 0x3B06D4DA, 0x3B0FF44F, 0x3B19480C, 0x3B22CC82, 0x3B2C7E04, 0x3B3658D0,
  0x3B40590F, 0x3B4A7AD5, 0x3B54BA26, 0x3B5F12F4, 0x3B698126, 0x3B740096, 0x3B7E8D15, 0x3B849136, 0x3B89DE31, 0x3B8F2B5A,
  0x3B947693, 0x3B99BDBB, 0x3B9EFEB5, 0x3BA43765, 0x3BA965B3, 0x3BAE878D, 0x3BB39AE5, 0x3BB89DB4, 0x3BBD8DF9, 0x3BC269C0,
  0x3BC72F19, 0x3BCBDC21, 0x3BD06F02, 0x3BD4E5EE, 0x3BD93F27, 0x3BDD78FC, 0x3BE191CA, 0x3BE587FE, 0x3BE95A13, 0x3BED0698,
  0x3BF08C2A, 0x3BF3E979, 0x3BF71D4A, 0x3BFA2670, 0x3BFD03D6, 0x3BFFB478, 0x3C011BB4, 0x3C0245E6, 0x3C035870, 0x3C0452FA,
  0x3C053537, 0x3C05FEE6, 0x3C06AFCE, 0x3C0747C5, 0x3C07C6AA, 0x3C082C66, 0x3C0878EF, 0x3C08AC46, 0x3C08C676, 0x3C08C795,
  0x3C08AFC5, 0x3C087F33, 0x3C083614, 0x3C07D4AB, 0x3C075B42, 0x3C06CA31, 0x3C0621D5, 0x3C05629A, 0x3C048CF2, 0x3C03A159]

/-- SQUARE, entries 1200 to 1299 (R69). -/
def squareRom12 : List Nat := [
  0x3C02A054, 0x3C018A72, 0x3C006048, 0x3BFE44EC, 0x3BFBA342, 0x3BF8DCEC, 0x3BF5F355, 0x3BF2E7F2, 0x3BEFBC47, 0x3BEC71E1,
  0x3BE90A5B, 0x3BE58758, 0x3BE1EA86, 0x3BDE3599, 0x3BDA6A50, 0x3BD68A6D, 0x3BD297BB, 0x3BCE9409, 0x3BCA8129, 0x3BC660F2,
  0x3BC2353B, 0x3BBDFFDF, 0x3BB9C2B7, 0x3BB57F9D, 0x3BB1386B, 0x3BACEEF6, 0x3BA8A511, 0x3BA45C8C, 0x3BA01732, 0x3B9BD6C6,
  0x3B979D09, 0x3B936BB1, 0x3B8F446E, 0x3B8B28E5, 0x3B871AB3, 0x3B831B6C, 0x3B7E592B, 0x3B769F59, 0x3B6F0C40, 0x3B67A2A4,
  0x3B606530, 0x3B59566E, 0x3B5278D1, 0x3B4BCEA7, 0x3B455A23, 0x3B3F1D55, 0x3B391A2D, 0x3B335279, 0x3B2DC7E3, 0x3B287BF4,
  0x3B23700E, 0x3B1EA570, 0x3B1A1D35, 0x3B15D851, 0x3B11D795, 0x3B0E1BA8, 0x3B0AA510, 0x3B07742A, 0x3B04892F, 0x3B01E42F,
  0x3AFF0A32, 0x3AFAD766, 0x3AF72F3E, 0x3AF410B5, 0x3AF17A7D, 0x3AEF6B02, 0x3AEDE067, 0x3AECD88C, 0x3AEC510D, 0x3AEC4742,
  0x3AECB847, 0x3AEDA0F5, 0x3AEEFDEA, 0x3AF0CB8B, 0x3AF30602, 0x3AF5A943, 0x3AF8B111, 0x3AFC18FA, 0x3AFFDC5E, 0x3B01FB39,
  0x3B043121, 0x3B068D57, 0x3B090D3B, 0x3B0BAE1D, 0x3B0E6D3D, 0x3B1147CC, 0x3B143AF1, 0x3B1743C7, 0x3B1A5F61, 0x3B1D8ACA,
  0x3B20C306, 0x3B240518, 0x3B274DFC, 0x3B2A9AAF, 0x3B2DE82F, 0x3B31337C, 0x3B347998, 0x3B37B78A, 0x3B3AEA63, 0x3B3E0F39]

/-- SQUARE, entries 1300 to 1399 (R69). -/
def squareRom13 : List Nat := [
  0x3B41232C, 0x3B442369, 0x3B470D29, 0x3B49DDB2, 0x3B4C925A, 0x3B4F2889, 0x3B519DB9, 0x3B53EF76, 0x3B561B62, 0x3B581F35,
  0x3B59F8BE, 0x3B5BA5E4, 0x3B5D24A7, 0x3B5E7324, 0x3B5F8F8F, 0x3B60783C, 0x3B612B99, 0x3B61A835, 0x3B61ECBC, 0x3B61F7F8,
  0x3B61C8D5, 0x3B615E5F, 0x3B60B7C1, 0x3B5FD44B, 0x3B5EB36A, 0x3B5D54B1, 0x3B5BB7D3, 0x3B59DCA6, 0x3B57C322, 0x3B556B61,
  0x3B52D5A1, 0x3B500241, 0x3B4CF1C1, 0x3B49A4C6, 0x3B461C12, 0x3B42588B, 0x3B3E5B38, 0x3B3A253E, 0x3B35B7E4, 0x3B31148C,
  0x3B2C3CBB, 0x3B273210, 0x3B21F647, 0x3B1C8B39, 0x3B16F2DA, 0x3B112F36, 0x3B0B4272, 0x3B052ECE, 0x3AFDED37, 0x3AF1388B,
  0x3AE44494, 0x3AD71674, 0x3AC9B36F, 0x3ABC20EB, 0x3AAE646F, 0x3AA08398, 0x3A928420, 0x3A846BD5, 0x3A6C8132, 0x3A5010B9,
  0x3A33923C, 0x3A1711CC, 0x39F53712, 0x39BC7735, 0x3983FC53, 0x3917BD72, 0x3821B4FE, 0xB88B8F81, 0xB932B1B4, 0xB98F1097,
  0xB9C3F3A4, 0xB9F7EADD, 0xBA156FBC, 0xBA2E5D87, 0xBA46B3D6, 0xBA5E67EC, 0xBA756F4F, 0xBA85DFE6, 0xBA90A7C1, 0xBA9B0A6C,
  0xBAA5034C, 0xBAAE8DEF, 0xBAB7A614, 0xBAC047AD, 0xBAC86EDF, 0xBAD01805, 0xBAD73FB1, 0xBADDE2B0, 0xBAE3FE07, 0xBAE98EFB,
  0xBAEE930B, 0xBAF307F8, 0xBAF6EBC0, 0xBAFA3CA5, 0xBAFCF929, 0xBAFF2011, 0xBB005833, 0xBB00D4B9, 0xBB010564, 0xBB00EA1D]

/-- SQUARE, entries 1400 to 1499 (R69). -/
def squareRom14 : List Nat := [
  0xBB0082F0, 0xBAFFA019, 0xBAFDA385, 0xBAFB1108, 0xBAF7E9CA, 0xBAF42F37, 0xBAEFE2FC, 0xBAEB0705, 0xBAE59D83, 0xBADFA8E2,
  0xBAD92BCF, 0xBAD22931, 0xBACAA42D, 0xBAC2A020, 0xBABA20A0, 0xBAB12978, 0xBAA7BEA9, 0xBA9DE466, 0xBA939F11, 0xBA88F33D,
  0xBA7BCB4C, 0xBA64F669, 0xBA4D71EC, 0xBA35483B, 0xBA1C8401, 0xBA033028, 0xB9D2AFA6, 0xB99E0CB2, 0xB9511D03, 0xB8C931C8,
  0x37143AFD, 0x38F091F5, 0x396846E1, 0x39AC8680, 0x39E53566, 0x3A0F0BE7, 0x3A2B8AB3, 0x3A480AF6, 0x3A648099, 0x3A806FCD,
  0x3A8E8E07, 0x3A9C9514, 0x3AAA7F20, 0x3AB8466D, 0x3AC5E553, 0x3AD35646, 0x3AE093D7, 0x3AED98B6, 0x3AFA5FB8, 0x3B0371EB,
  0x3B099019, 0x3B0F880B, 0x3B15577D, 0x3B1AFC43, 0x3B207448, 0x3B25BD92, 0x3B2AD641, 0x3B2FBC91, 0x3B346ED8, 0x3B38EB8D,
  0x3B3D3143, 0x3B413EAA, 0x3B451294, 0x3B48ABF2, 0x3B4C09D6, 0x3B4F2B71, 0x3B521017, 0x3B54B73E, 0x3B57207C, 0x3B594B8C,
  0x3B5B3849, 0x3B5CE6B2, 0x3B5E56E6, 0x3B5F8928, 0x3B607DDE, 0x3B61358F, 0x3B61B0E3, 0x3B61F0A4, 0x3B61F5BE, 0x3B61C13D,
  0x3B61544C, 0x3B60B037, 0x3B5FD667, 0x3B5EC864, 0x3B5D87D5, 0x3B5C167B, 0x3B5A7633, 0x3B58A8F5, 0x3B56B0D4, 0x3B548FF9,
  0x3B5248A7, 0x3B4FDD35, 0x3B4D5011, 0x3B4AA3BB, 0x3B47DAC8, 0x3B44F7DD, 0x3B41FDAE, 0x3B3EEEFF, 0x3B3BCEA1, 0x3B389F70]

/-- SQUARE, entries 1500 to 1599 (R69). -/
def squareRom15 : List Nat := [
  0x3B356452, 0x3B322036, 0x3B2ED612, 0x3B2B88E3, 0x3B283BA8, 0x3B24F163, 0x3B21AD18, 0x3B1E71C9, 0x3B1B4276, 0x3B18221B,
  0x3B1513AF, 0x3B121A23, 0x3B0F385D, 0x3B0C713A, 0x3B09C78B, 0x3B073E16, 0x3B04D78E, 0x3B029699, 0x3B007DCB, 0x3AFD1F49,
  0x3AF99D22, 0x3AF679CD, 0x3AF3B9C9, 0x3AF16163, 0x3AEF74B5, 0x3AEDF7A3, 0x3AECEDDA, 0x3AEC5ACD, 0x3AEC41B2, 0x3AECA581,
  0x3AED88F4, 0x3AEEEE81, 0x3AF0D85B, 0x3AF34873, 0x3AF64072, 0x3AF9C1B8, 0x3AFDCD61, 0x3B01321F, 0x3B03C369, 0x3B069AAF,
  0x3B09B7E7, 0x3B0D1AE5, 0x3B10C356, 0x3B14B0C0, 0x3B18E285, 0x3B1D57DF, 0x3B220FE5, 0x3B270986, 0x3B2C438F, 0x3B31BCA5,
  0x3B37734B, 0x3B3D65E1, 0x3B4392A3, 0x3B49F7AA, 0x3B5092EF, 0x3B576249, 0x3B5E6371, 0x3B6593FF, 0x3B6CF16E, 0x3B74791E,
  0x3B7C2851, 0x3B81FE18, 0x3B85F8E5, 0x3B8A030B, 0x3B8E1AFB, 0x3B923F1C, 0x3B966DC8, 0x3B9AA554, 0x3B9EE40A, 0x3BA3282F,
  0x3BA76FFD, 0x3BABB9AE, 0x3BB00371, 0x3BB44B76, 0x3BB88FE7, 0x3BBCCEEB, 0x3BC106AA, 0x3BC53548, 0x3BC958ED, 0x3BCD6FBE,
  0x3BD177E6, 0x3BD56F91, 0x3BD954EE, 0x3BDD2633, 0x3BE0E19A, 0x3BE48563, 0x3BE80FD6, 0x3BEB7F45, 0x3BEED209, 0x3BF20685,
  0x3BF51B28, 0x3BF80E6A, 0x3BFADED3, 0x3BFD8AF5, 0x3C0008B9, 0x3C01387C, 0x3C025424, 0x3C035B18, 0x3C044CC8, 0x3C0528AB]

/-- SQUARE, entries 1600 to 1699 (R69). -/
def squareRom16 : List Nat := [
  0x3C05EE43, 0x3C069D1B, 0x3C0734C6, 0x3C07B4E2, 0x3C081D16, 0x3C086D13, 0x3C08A496, 0x3C08C364, 0x3C08C94E, 0x3C08B631,
  0x3C0889F1, 0x3C084481, 0x3C07E5DE, 0x3C076E0E, 0x3C06DD24, 0x3C06333E, 0x3C057085, 0x3C04952C, 0x3C03A173, 0x3C0295A3,
  0x3C017212, 0x3C00371D, 0x3BFDCA60, 0x3BFAF97D, 0x3BF7FC8E, 0x3BF4D4A5, 0x3BF182E6, 0x3BEE088A, 0x3BEA66DB, 0x3BE69F35,
  0x3BE2B308, 0x3BDEA3D1, 0x3BDA7320, 0x3BD62293, 0x3BD1B3D8, 0x3BCD28A9, 0x3BC882CF, 0x3BC3C41F, 0x3BBEEE78, 0x3BBA03C6,
  0x3BB505FD, 0x3BAFF719, 0x3BAAD920, 0x3BA5AE1E, 0x3BA07825, 0x3B9B394A, 0x3B95F3A9, 0x3B90A95F, 0x3B8B5C8A, 0x3B860F4C,
  0x3B80C3C2, 0x3B76F81A, 0x3B6C7490, 0x3B620117, 0x3B57A1D7, 0x3B4D5AEF, 0x3B43306F, 0x3B392658, 0x3B2F409B, 0x3B258315,
  0x3B1BF190, 0x3B128FBB, 0x3B096132, 0x3B006970, 0x3AEF57B4, 0x3ADE5764, 0x3ACDD839, 0x3ABDE038, 0x3AAE7521, 0x3A9F9C6B,
  0x3A915B41, 0x3A83B67F, 0x3A6D6566, 0x3A54A829, 0x3A3D3D11, 0x3A272B37, 0x3A127903, 0x39FE5850, 0x39DA9341, 0x39B9AB5C,
  0x399BA7AA, 0x39808DB9, 0x3950C332, 0x39264BB8, 0x3901B728, 0x38C60950, 0x389460CA, 0x385CCE4F, 0x382811E7, 0x380A59D6,
  0x3803681F, 0x3812F384, 0x3838A7BC, 0x387425B0, 0x38A281E4, 0x38D5671B, 0x390941D5, 0x392CC9FC, 0x395527F3, 0x39811ABF]

/-- SQUARE, entries 1700 to 1799 (R69). -/
def squareRom17 : List Nat := [
  0x3999E529, 0x39B4DE1B, 0x39D1EF91, 0x39F102B0, 0x3A08FFED, 0x3A1A675F, 0x3A2CAB37, 0x3A3FBEB9, 0x3A5394F1, 0x3A6820B7,
  0x3A7D54C3, 0x3A8991DA, 0x3A94C00D, 0x3AA02E43, 0x3AABD5CC, 0x3AB7B003, 0x3AC3B656, 0x3ACFE24C, 0x3ADC2D8D, 0x3AE891E9,
  0x3AF5095D, 0x3B00C70D, 0x3B070D47, 0x3B0D54B6, 0x3B139AD6, 0x3B19DD4E, 0x3B2019F0, 0x3B264EBE, 0x3B2C79EE, 0x3B3299EC,
  0x3B38AD5E, 0x3B3EB32B, 0x3B44AA77, 0x3B4A92AF, 0x3B506B86, 0x3B5634FB, 0x3B5BEF5C, 0x3B619B4C, 0x3B6739BE, 0x3B6CCC04,
  0x3B7253C6, 0x3B77D30F, 0x3B7D4C48, 0x3B816121, 0x3B841C19, 0x3B86D8DB, 0x3B89996D, 0x3B8C600D, 0x3B8F2F2F, 0x3B920981,
  0x3B94F1EC, 0x3B97EB94, 0x3B9AF9D9, 0x3B9E2057, 0x3BA162E8, 0x3BA4C5A4, 0x3BA84CE1, 0x3BABFD35, 0x3BAFDB74, 0x3BB3ECB4,
  0x3BB83647, 0x3BBCBDC3, 0x3BC188FA, 0x3BC69E00, 0x3BCC0329, 0x3BD1BF06, 0x3BD7D869, 0x3BDE5662, 0x3BE5403E, 0x3BEC9D87,
  0x3BF47606, 0x3BFCD1BC, 0x3C02DC73, 0x3C0799FE, 0x3C0CA5D6, 0x3C12046E, 0x3C17BA55, 0x3C1DCC31, 0x3C243EC6, 0x3C2B16EC,
  0x3C325995, 0x3C3A0BCB, 0x3C4232AA, 0x3C4AD368, 0x3C53F349, 0x3C5D97A8, 0x3C67C5F0, 0x3C72839D, 0x3C7DD638, 0x3C84E1AE,
  0x3C8B2856, 0x3C91C1ED, 0x3C98B150, 0x3C9FF960, 0x3CA79D02, 0x3CAF9F1F, 0x3CB802A1, 0x3CC0CA72, 0x3CC9F97E, 0x3CD392B2]

/-- SQUARE, entries 1800 to 1899 (R69). -/
def squareRom18 : List Nat := [
  0x3CDD98F8, 0x3CE80F38, 0x3CF2F859, 0x3CFE573E, 0x3D051763, 0x3D0B40E4, 0x3D11A98D, 0x3D1852C4, 0x3D1F3DEB, 0x3D266C61,
  0x3D2DDF7F, 0x3D35989A, 0x3D3D9901, 0x3D45E1FC, 0x3D4E74CF, 0x3D5752B6, 0x3D607CE4, 0x3D69F488, 0x3D73BAC6, 0x3D7DD0BB,
  0x3D841BBD, 0x3D897808, 0x3D8EFDBD, 0x3D94AD59, 0x3D9A8752, 0x3DA08C18, 0x3DA6BC17, 0x3DAD17B5, 0x3DB39F51, 0x3DBA5345,
  0x3DC133E4, 0x3DC8417B, 0x3DCF7C51, 0x3DD6E4A5, 0x3DDE7AAF, 0x3DE63EA3, 0x3DEE30AA, 0x3DF650E9, 0x3DFE9F7B, 0x3E038E3B,
  0x3E07E3F3, 0x3E0C50E8, 0x3E10D519, 0x3E157083, 0x3E1A231A, 0x3E1EECD3, 0x3E23CD9D, 0x3E28C562, 0x3E2DD40A, 0x3E32F978,
  0x3E38358A, 0x3E3D881B, 0x3E42F102, 0x3E487012, 0x3E4E0518, 0x3E53AFE1, 0x3E597030, 0x3E5F45CA, 0x3E65306D, 0x3E6B2FD2,
  0x3E7143B0, 0x3E776BBA, 0x3E7DA79E, 0x3E81FB83, 0x3E852CCD, 0x3E88677E, 0x3E8BAB66, 0x3E8EF853, 0x3E924E11, 0x3E95AC6B,
  0x3E991328, 0x3E9C8210, 0x3E9FF8E8, 0x3EA37774, 0x3EA6FD76, 0x3EAA8AAF, 0x3EAE1EDD, 0x3EB1B9BF, 0x3EB55B11, 0x3EB9028D,
  0x3EBCAFEE, 0x3EC062ED, 0x3EC41B40, 0x3EC7D89D, 0x3ECB9ABB, 0x3ECF614D, 0x3ED32C07, 0x3ED6FA9B, 0x3EDACCBB, 0x3EDEA218,
  0x3EE27A62, 0x3EE65549, 0x3EEA327B, 0x3EEE11A7, 0x3EF1F27D, 0x3EF5D4A8, 0x3EF9B7D8, 0x3EFD9BB9, 0x3F00BFFC, 0x3F02B222]

/-- SQUARE, entries 1900 to 1999 (R69). -/
def squareRom19 : List Nat := [
  0x3F04A424, 0x3F0695D8, 0x3F088717, 0x3F0A77B6, 0x3F0C678C, 0x3F0E5671, 0x3F10443B, 0x3F1230C2, 0x3F141BDE, 0x3F160567,
  0x3F17ED35, 0x3F19D320, 0x3F1BB703, 0x3F1D98B7, 0x3F1F7815, 0x3F2154F8, 0x3F232F3B, 0x3F2506B9, 0x3F26DB50, 0x3F28ACDA,
  0x3F2A7B37, 0x3F2C4643, 0x3F2E0DDD, 0x3F2FD1E6, 0x3F31923C, 0x3F334EC1, 0x3F350756, 0x3F36BBDE, 0x3F386C3C, 0x3F3A1854,
  0x3F3BC00B, 0x3F3D6347, 0x3F3F01EE, 0x3F409BE9, 0x3F42311F, 0x3F43C17A, 0x3F454CE4, 0x3F46D349, 0x3F485495, 0x3F49D0B6,
  0x3F4B479A, 0x3F4CB92F, 0x3F4E2567, 0x3F4F8C32, 0x3F50ED83, 0x3F52494D, 0x3F539F85, 0x3F54F020, 0x3F563B15, 0x3F57805A,
  0x3F58BFE9, 0x3F59F9BA, 0x3F5B2DC9, 0x3F5C5C10, 0x3F5D848C, 0x3F5EA73B, 0x3F5FC41C, 0x3F60DB2D, 0x3F61EC6E, 0x3F62F7E3,
  0x3F63FD8C, 0x3F64FD6D, 0x3F65F78A, 0x3F66EBE9, 0x3F67DA8F, 0x3F68C383, 0x3F69A6CC, 0x3F6A8475, 0x3F6B5C85, 0x3F6C2F07,
  0x3F6CFC06, 0x3F6DC38E, 0x3F6E85AB, 0x3F6F426A, 0x3F6FF9DA, 0x3F70AC09, 0x3F715906, 0x3F7200E1, 0x3F72A3AB, 0x3F734174,
  0x3F73DA4F, 0x3F746E4D, 0x3F74FD81, 0x3F7587FF, 0x3F760DD9, 0x3F768F25, 0x3F770BF6, 0x3F778461, 0x3F77F87B, 0x3F78685B,
  0x3F78D415, 0x3F793BC1, 0x3F799F73, 0x3F79FF43, 0x3F7A5B48, 0x3F7AB398, 0x3F7B084A, 0x3F7B5977, 0x3F7BA734, 0x3F7BF199]

/-- The SQUARE table, 2000 binary32 words (R46, R69), in blocks of a hundred. -/
def squareBlocks : List (List Nat) :=
  [squareRom00, squareRom01, squareRom02, squareRom03, squareRom04,
   squareRom05, squareRom06, squareRom07, squareRom08, squareRom09,
   squareRom10, squareRom11, squareRom12, squareRom13, squareRom14,
   squareRom15, squareRom16, squareRom17, squareRom18, squareRom19]

/-- The blocks of a table. -/
def romBlocks : Table → List (List Nat)
  | .sine => sineBlocks
  | .square => squareBlocks

/-- `RomRead(sel, i)` (21_wavetable_rom.md R63): entry `i` of a table, `i` below TABLE_SIZE. -/
def romRead (sel : Table) (i : Nat) : Word :=
  BitVec.ofNat 32 (((romBlocks sel).getD (i / 100) []).getD (i % 100) 0)

end Sys2Proof.Machine
end

