-- ==== Sys2Proof/Machine/Process.lean ====
section
/-! DEFINITION. PROCESS, PROCESS.S and the sample step (42_process.md). A PROCESS is its latch and then one sample
step, an atomic step of its own, for each of the next CNT words on CMD (R99): the latch is `execProcess`, the sample
steps are `sampleStep`, which `step` takes while REMAIN is not 0. -/

namespace Sys2Proof.Machine

/-- PROCESS (R99): NOT_CONFIGURED before INIT (30_encoding.md R74), else the latch. -/
def execProcess (cnt : BitVec 24) (s : State) : Host.Outcome State Fault Refusal :=
  if s.cfg then .next (latch cnt s) else .next (raiseFault .notConfigured s)

/-- PROCESS.S (R100): nothing, once the block is configured. Its CNT field is ignored (30_encoding.md R76). -/
def execProcessS (_cnt : BitVec 24) (s : State) : Host.Outcome State Fault Refusal :=
  if s.cfg then .next s else .next (raiseFault .notConfigured s)

/-- p, the phase product (R102). -/
def phaseProduct (s : State) : Word := F32.fmul (F32.cvt s.samples.toNat) s.curScale

/-- The table index of a product (R103). A product that R104 excludes gives a free index (notes/assumptions/8.md). -/
def indexOf (p : Word) : Nat :=
  if F32.isFinite p && decide (0 ≤ F32.value p) then F32.floor p % Config.tableSize else (Config.freeIndex p).val

/-- The index of the sample step that runs next (R101, step 1). -/
def stepIndex (s : State) : Nat := indexOf (phaseProduct s)

/-- Resync rule A (R105): a frequency change is taken in at index 0. -/
def resyncA (idx : Nat) (s : State) : State :=
  if pending s && idx == 0 then { s with curScale := s.pendScale, samples := 0#32 } else s

/-- Resync rule B (R108): the counter's ceiling, at index 0 only. -/
def resyncB (idx : Nat) (s : State) : State :=
  if decide (Config.sampleLimit ≤ s.samples.toNat) && idx == 0 then { s with samples := 0#32 } else s

/-- The applied gain (R111): four operations, left to right, each rounded. -/
def gain (raw d : Word) : Word :=
  F32.fmul (F32.fadd (F32.fsub (F32.fmul raw d) d) Config.k100) Config.k001

/-- The output of the sample step that runs next on input `x` (R110 to R114). The rules A and B change neither
LAT_SEL nor LAT_DEPTH, and the index is not recomputed (R106). -/
def sampleOut (x : Word) (s : State) : Word :=
  F32.fmul x (gain (romRead s.latSel (stepIndex s)) s.latDepth)

/-- The counters after an output (R115). -/
def countSample (s : State) : State := { s with samples := s.samples + 1#32, remain := s.remain - 1#24 }

/-- The sample step (R101), with its `emit` (R99): rule A, then rule B (R109), the output, the counters. -/
def sampleStep (x : Word) (s : State) : State :=
  emit (sampleOut x s) (countSample (resyncB (stepIndex s) (resyncA (stepIndex s) s)))

end Sys2Proof.Machine
end

