-- ==== Sys2Proof/Machine/Readback.lean ====
section
/-! DEFINITION. RD (43_readback.md). -/

namespace Sys2Proof.Machine

/-- RD (R117): the register's word on RD, in every state, and no register changed. -/
def execRd (a : BitVec 4) (s : State) : Host.Outcome State Fault Refusal := .next (answer (readReg a s) s)

end Sys2Proof.Machine
end

