-- ==== Sys2Proof/Machine/Dispatch.lean ====
section
/-! DEFINITION. One arm per row of spec/opcode_table.json. -/

namespace Sys2Proof.Machine

def exec (i : Instr) (s : State) : Host.Outcome State Fault Refusal :=
  match i with
  | .init d => Sys2Proof.Machine.execInit d s
  | .reset => Sys2Proof.Machine.execReset s
  | .process cnt => Sys2Proof.Machine.execProcess cnt s
  | .processS cnt => Sys2Proof.Machine.execProcessS cnt s
  | .setFreq d => Sys2Proof.Machine.execSetFreq d s
  | .setDepth d => Sys2Proof.Machine.execSetDepth d s
  | .setWave k => Sys2Proof.Machine.execSetWave k s
  | .rd a => Sys2Proof.Machine.execRd a s

end Sys2Proof.Machine
end

