-- ==== Sys2Proof/WellFormed.lean ====
section
/-! DEFINITION. What is well formed. An instruction's fields are as wide as their encodings, so the one check on an
instruction is its port (30_encoding.md R72); an assembler line has the checks of R81. -/

namespace Sys2Proof

/-- Whether an instruction is well formed ON a port: the columns "legal on CMD" and "legal on PAR" of 30_encoding.md
R72. RD is no word of CMD or PAR (R81, R117). -/
def Instr.legalOn (i : Instr) (p : Port) : Bool :=
  match i with
  | .init _ => p == .cmd
  | .reset => p == .cmd
  | .process _ => p == .cmd
  | .processS _ => p == .cmd
  | .setFreq _ => p == .cmd || p == .par
  | .setDepth _ => p == .cmd || p == .par
  | .setWave _ => p == .cmd || p == .par
  | .rd _ => p == .rd

/-- The largest sample count of one PROCESS (00_scope.md section 4, CNT; D26). -/
def maxCount : Nat := 16777215

/-- The checks on the operands of a form. R81 (30_encoding.md) and I11 (93_implementation_defined.md) give two: a
PROCESS has exactly as many samples as it says, and a count is at most 16,777,215, which is read as for PROCESS.S too.
The other two are the model's own, DESIGN CHOICE, and neither R81 nor R82 nor I11 lists them (notes/assumptions/17.md):
a SET_WAVE literal of 2^32 or more, which is no 32-bit word, and an RD address above 15, which is none of the 16
addresses, are refused, where another assembler might cut the number off. -/
def AsmForm.wellFormed : AsmForm → Bool
  | .init _ => true
  | .reset => true
  | .process n samples => decide (n ≤ maxCount) && decide (samples.length = n)
  | .processS n => decide (n ≤ maxCount)
  | .setFreq _ => true
  | .setDepth _ => true
  | .setWave k => decide (k < 2 ^ 32)
  | .rd a => decide (a < 16)
  | .presetSlow => true
  | .presetFast => true

/-- The forms that may carry the `@PAR` prefix: SET_* and, for all three of its commands, a preset
(30_encoding.md R81, R83). -/
def AsmForm.mayGoOnPar : AsmForm → Bool
  | .init _ => false
  | .reset => false
  | .process _ _ => false
  | .processS _ => false
  | .setFreq _ => true
  | .setDepth _ => true
  | .setWave _ => true
  | .rd _ => false
  | .presetSlow => true
  | .presetFast => true

/-- A line the assembler takes (30_encoding.md R81; 93_implementation_defined.md I11), with the model's own checks of
`AsmForm.wellFormed` (notes/assumptions/17.md). -/
def AsmLine.wellFormed (l : AsmLine) : Bool :=
  l.form.wellFormed && (!l.onPar || l.form.mayGoOnPar)

end Sys2Proof
end

