-- ==== Sys2Proof/Decode.lean ====
section
/-! DEFINITION. The decoder of command words (30_encoding.md R71 to R80), total on any words and any bytes, and the
encoder, written from the same tables. What the decoder checks needs no state; the one check of R74 that reads state
(NOT_CONFIGURED) belongs to the meanings of PROCESS and PROCESS.S, and comes after these in R121's order too. -/

namespace Sys2Proof

/-- OPC, bits 31:28 (R71). -/
def opcField (w : Word) : BitVec 4 := w.extractLsb' 28 4

/-- S, bit 27 (R71, R77). -/
def sField (w : Word) : BitVec 1 := w.extractLsb' 27 1

/-- RSV, bits 26:24 (R71). -/
def rsvField (w : Word) : BitVec 3 := w.extractLsb' 24 3

/-- CNT, bits 23:0 (R71, R76). -/
def cntField (w : Word) : BitVec 24 := w.extractLsb' 0 24

/-- Bits 27:0, all reserved in every opcode but PROCESS (R71, R80). -/
def lowField (w : Word) : BitVec 28 := w.extractLsb' 0 28

/-- The read address of a word on RD: bits 3:0 only (R70, R78). -/
def readAddress (w : Word) : BitVec 4 := w.extractLsb' 0 4

/-- The opcodes legal on a port (R72, R79): 0x1 to 0x6 on CMD, 0x4 to 0x6 on PAR. RD carries no opcode. -/
def opcodeLegal (p : Port) (opc : BitVec 4) : Bool :=
  match p with
  | .cmd => decide (1 ≤ opc.toNat) && decide (opc.toNat ≤ 6)
  | .par => decide (4 ≤ opc.toNat) && decide (opc.toNat ≤ 6)
  | .rd => true

/-- Whether a word of a legal opcode has a reserved bit set (R80). -/
def reservedSet (w : Word) : Bool :=
  if opcField w = 0x3#4 then rsvField w != 0#3 else lowField w != 0#28

/-- The command a format F1 word asks for, once its data word is there (R73, R75). -/
def DataOp.instr (op : DataOp) (d : Word) : Instr :=
  match op with
  | .init => .init d
  | .setFreq => .setFreq d
  | .setDepth => .setDepth d
  | .setWave => .setWave d

/-- How many words a command has, read from its command word alone (R73): with S = 0 the samples of a PROCESS count.
A command word whose decode faults has no data words. -/
def commandLength (w : Word) : Nat :=
  if opcField w = 0x2#4 then 1
  else if opcField w = 0x3#4 then if sField w = 1#1 then 1 else 1 + (cntField w).toNat
  else if opcField w = 0x1#4 ∨ opcField w = 0x4#4 ∨ opcField w = 0x5#4 ∨ opcField w = 0x6#4 then 2
  else 1

/-- What the first word of a command says. -/
inductive Head where
  /-- The command is complete (formats F0 and FP, and a read). -/
  | whole (i : Instr)
  /-- Format F1: one data word follows. -/
  | needsData (op : DataOp)
  /-- The opcode is not legal on the port (R79). -/
  | illegalOpcode
  /-- A legal opcode with a reserved bit set (R80). -/
  | reservedBits
deriving DecidableEq, Repr

/-- The row of R72 that a checked command word selects. -/
def rowOf (w : Word) : Head :=
  match opcField w with
  | 0x1#4 => .needsData .init
  | 0x2#4 => .whole .reset
  | 0x3#4 => if sField w = 1#1 then .whole (.processS (cntField w)) else .whole (.process (cntField w))
  | 0x4#4 => .needsData .setFreq
  | 0x5#4 => .needsData .setDepth
  | 0x6#4 => .needsData .setWave
  | _ => .illegalOpcode

/-- Decoding a word that a port delivers where a command word is expected: the checks of R74 in its order, then the
row. A word on RD is a read address (R70, R78). -/
def decodeHead (p : Port) (w : Word) : Head :=
  match p with
  | .rd => .whole (.rd (readAddress w))
  | .cmd => if !opcodeLegal .cmd (opcField w) then .illegalOpcode else if reservedSet w then .reservedBits else rowOf w
  | .par => if !opcodeLegal .par (opcField w) then .illegalOpcode else if reservedSet w then .reservedBits else rowOf w

/-- The outcome of decoding the words of one port. -/
inductive Decoded where
  /-- A whole command, and the words after it. -/
  | instr (i : Instr) (rest : List Word)
  /-- There is no word. -/
  | noWord
  /-- A format F1 command word whose data word is not there yet (R73). -/
  | awaitsData (op : DataOp)
  /-- Cause 1 (R79). -/
  | illegalOpcode
  /-- Cause 2 (R80). -/
  | reservedBits
deriving DecidableEq, Repr

/-- Decoding the words of a port from a command word on (R73, R74): a word that faults takes no data word. -/
def decodeWords (p : Port) : List Word → Decoded
  | [] => .noWord
  | w :: rest =>
    match decodeHead p w with
    | .whole i => .instr i rest
    | .needsData op =>
      match rest with
      | [] => .awaitsData op
      | d :: rest' => .instr (op.instr d) rest'
    | .illegalOpcode => .illegalOpcode
    | .reservedBits => .reservedBits

/-- The whole words of a byte-wide transport, least significant byte first (R49). Bytes that do not fill a word are
not delivered yet: the block never sees a partial word (R51). -/
def wordsOfBytes : List Byte → List Word
  | b0 :: b1 :: b2 :: b3 :: rest => (b3 ++ b2 ++ b1 ++ b0) :: wordsOfBytes rest
  | _ => []

/-- Decoding the bytes of a port. -/
def decodeBytes (p : Port) (bytes : List Byte) : Decoded := decodeWords p (wordsOfBytes bytes)

/-- A command word from its fields, RSV being 0 (R71). -/
def commandWord (opc : BitVec 4) (s : BitVec 1) (cnt : BitVec 24) : Word := opc ++ s ++ 0#3 ++ cnt

/-- The first word of an instruction (R72, R81); of a read, its address (R78). -/
def encodeHead : Instr → Word
  | .init _ => commandWord 0x1#4 0#1 0#24
  | .reset => commandWord 0x2#4 0#1 0#24
  | .process cnt => commandWord 0x3#4 0#1 cnt
  | .processS cnt => commandWord 0x3#4 1#1 cnt
  | .setFreq _ => commandWord 0x4#4 0#1 0#24
  | .setDepth _ => commandWord 0x5#4 0#1 0#24
  | .setWave _ => commandWord 0x6#4 0#1 0#24
  | .rd a => a.setWidth 32

/-- The data word of an instruction of format F1 (R73). -/
def encodeData : Instr → List Word
  | .init d => [d]
  | .reset => []
  | .process _ => []
  | .processS _ => []
  | .setFreq d => [d]
  | .setDepth d => [d]
  | .setWave k => [k]
  | .rd _ => []

/-- The words of an instruction (R81). The samples of a PROCESS are the operands of its sample steps and follow it. -/
def encode (i : Instr) : List Word := encodeHead i :: encodeData i

/-- The four bytes of a word on a byte-wide transport (R49). -/
def bytesOfWord (w : Word) : List Byte :=
  [w.extractLsb' 0 8, w.extractLsb' 8 8, w.extractLsb' 16 8, w.extractLsb' 24 8]

/-- The bytes of a sequence of words (R49). -/
def bytesOfWords (ws : List Word) : List Byte := ws.flatMap bytesOfWord

/-- The port on which the host places an instruction whose bits are numbered as spec/opcode_table.json numbers them:
RD for the read address, whose row has 4 bits, and CMD for a command word (notes/assumptions/12.md). -/
def tablePort (nbits : Nat) : Port := if nbits ≤ 8 then .rd else .cmd

/-- The words of such an instruction: every bit above `nbits` is 0, and the longest command that the decoder reads at
once has two words. -/
def tableWords (nbits w : Nat) : List Word :=
  [BitVec.ofNat 32 (w % 2 ^ nbits), BitVec.ofNat 32 (w % 2 ^ nbits / 2 ^ 32)]

/-- The instruction the decoder reads from an instruction of `nbits` bits `w`, laid out as bytes on its port. -/
def decodeTableWord (nbits w : Nat) : Option Instr :=
  match decodeBytes (tablePort nbits) (bytesOfWords (tableWords nbits w)) with
  | .instr i _ => some i
  | .noWord => none
  | .awaitsData _ => none
  | .illegalOpcode => none
  | .reservedBits => none

end Sys2Proof
end

