-- ==== Sys2Proof/Machine/Fetch.lean ====
section
/-! DEFINITION. Taking the words of the ports: what the host's next move gives the block to do (10_state.md R20 to
R25, R42; 30_encoding.md R74; 20_memory.md R56, R57). -/

namespace Sys2Proof.Machine

/-- What the block does next. The state is the one after the words have been taken. -/
inductive Fetched where
  /-- The host has nothing to do: the block waits with all state kept (60_exceptions.md R131). -/
  | idle
  /-- A pulse on RST. -/
  | rst (s : State)
  /-- A whole command, or a read. -/
  | instr (i : Instr) (s : State)
  /-- A sample word of the PROCESS that runs. -/
  | sample (x : Word) (s : State)
  /-- A command word that faults (30_encoding.md R74). -/
  | reject (c : Cause) (s : State)
  /-- A word after which nothing runs: a command word whose data word is not there yet, or a word that FAULTED leaves
  on its port. -/
  | waiting (s : State)
deriving DecidableEq, Repr

/-- Taking a command word from a port. Its data word is taken with it when the host sends it next: one decode with its
data word is one step (R25). Else the decoder waits for it (notes/assumptions/3.md). -/
def takeCommand (p : Port) (w : Word) (rest : List HostMove) (s : State) : Fetched :=
  match decodeHead p w with
  | .illegalOpcode => .reject .illegalOpcode (withHost rest s)
  | .reservedBits => .reject .reservedBits (withHost rest s)
  | .whole i => .instr i (withHost rest s)
  | .needsData op =>
    match rest with
    | .send q d :: rest' =>
      if q = p then .instr (op.instr d) (withHost rest' s) else .waiting (withHost rest (setDecoder p (some op) s))
    | _ => .waiting (withHost rest (setDecoder p (some op) s))

/-- Taking a word from CMD or PAR (R42): in FAULTED it stays untaken; in IN_BLOCK a CMD word is a sample (R37);
else it is the data word its decoder waits for, or a command word. -/
def takeWord (p : Port) (w : Word) (rest : List HostMove) (s : State) : Fetched :=
  if s.fault then .waiting (withHost rest (holdWord p w s))
  else if p = .cmd ∧ s.remain ≠ 0#24 then .sample w (withHost rest s)
  else
    match decoder p s with
    | some op => .instr (op.instr w) (withHost rest (setDecoder p Option.none s))
    | Option.none => takeCommand p w rest s

/-- The host's next move. A read is served in every state (43_readback.md R117). -/
def fetch (s : State) : Fetched :=
  match s.host with
  | [] => .idle
  | .rst :: rest => .rst (withHost rest s)
  | .send .rd w :: rest => .instr (.rd (readAddress w)) (withHost rest s)
  | .send .cmd w :: rest => takeWord .cmd w rest s
  | .send .par w :: rest => takeWord .par w rest s

/-- A block whose CMD port expects a command word (R42, R132): no fault, no PROCESS running, no data word awaited. -/
def expectCommand (s : State) : State :=
  { s with fault := false, cause := .none, remain := 0#24, cmdDec := Option.none }

/-- The words the host sends to have one instruction run: its first word, and the data word when the first word asks
for one. -/
def instrMoves (p : Port) : List Word → List HostMove
  | [] => []
  | w :: rest =>
    match decodeHead p w with
    | .needsData _ => .send p w :: (rest.take 1).map (.send p)
    | _ => [.send p w]

/-- A state whose next host moves send an instruction, given as spec/opcode_table.json numbers its bits, on the port
that takes it (notes/assumptions/12.md). -/
def placeInstr (nbits w : Nat) (s : State) : State :=
  match tablePort nbits with
  | .rd => withHost (instrMoves .rd (tableWords nbits w) ++ s.host) s
  | .cmd => withHost (instrMoves .cmd (tableWords nbits w) ++ s.host) (expectCommand s)
  | .par => withHost (instrMoves .par (tableWords nbits w) ++ s.host) (expectCommand s)

end Sys2Proof.Machine
end

