-- ==== Sys2Proof/Machine/Step.lean ====
section
/-! DEFINITION. One atomic step (10_state.md R25): the host's next move, and what the block does with it. -/

namespace Sys2Proof.Machine

def step (s : State) : Host.Outcome State Fault Refusal :=
  match fetch s with
  | .idle => .next s
  | .rst t => .next (powerOn t)
  | .instr i t => exec i t
  | .sample x t => .next (sampleStep x t)
  | .reject c t => .next (raiseFault c t)
  | .waiting t => .next t

/-- `s` with one instruction sent next by the host (notes/assumptions/12.md). -/
def State.withFetchWord (s : State) (nbits w : Nat) : State := placeInstr nbits w s

end Sys2Proof.Machine
end

