-- ==== Sys2Proof/Machine/Asm.lean ====
section
/-! DEFINITION. The assembler (30_encoding.md section 5, R81 to R84): the words of a line, as the host's moves, and the
reading of a line's text (notes/assumptions/17.md). -/

namespace Sys2Proof.Machine

/-- `bits(v)` of a numeric operand (R82). -/
def literalWord : Literal → Word
  | .bits w => w
  | .decimal negative digits places => F32.ofDecimal negative digits places

/-- The words a form emits (R81), a pseudo-instruction expanded (R83). -/
def formWords : AsmForm → List Word
  | .init rate => encode (.init (literalWord rate))
  | .reset => encode .reset
  | .process n samples => encode (.process (BitVec.ofNat 24 n)) ++ samples.map literalWord
  | .processS n => encode (.processS (BitVec.ofNat 24 n))
  | .setFreq f => encode (.setFreq (literalWord f))
  | .setDepth d => encode (.setDepth (literalWord d))
  | .setWave k => encode (.setWave (BitVec.ofNat 32 k))
  | .rd a => encode (.rd (BitVec.ofNat 4 a))
  | .presetSlow =>
    encode (.setFreq 0x40000000#32) ++ encode (.setDepth 0x42480000#32) ++ encode (.setWave 1#32)
  | .presetFast =>
    encode (.setFreq 0x41A00000#32) ++ encode (.setDepth 0x42B40000#32) ++ encode (.setWave 2#32)

/-- The port of a line's words (R81): RD for a read, PAR with the prefix, else CMD. -/
def linePort (l : AsmLine) : Port :=
  match l.form with
  | .rd _ => .rd
  | _ => if l.onPar then .par else .cmd

/-- The words of a line as moves of the host; none for a line the assembler refuses (R81, I11, and the
model's own checks: notes/assumptions/17.md). -/
def assembleLine (l : AsmLine) : Option (List HostMove) :=
  if l.wellFormed then some ((formWords l.form).map (.send (linePort l))) else Option.none

/-- The words of a program, in the order written, nothing between them. R84 orders the words of each port only, and
93_implementation_defined.md I6 leaves open how CMD, `@PAR` and RD words interleave across the ports. That they stand in
ONE list in line order, so that each line's words are sent before the next line's on any port, is the model's choice:
DESIGN CHOICE (notes/assumptions/22.md). A host that interleaves them otherwise is another list of `State.host`. -/
def assemble : List AsmLine → Option (List HostMove)
  | [] => some []
  | l :: rest => (assembleLine l).bind fun ms => (assemble rest).map (ms ++ ·)

/-- The pieces of a line's text. -/
inductive Token where
  | word (chars : List Char)
  | comma
  | openBrace
  | closeBrace
deriving DecidableEq, Repr

/-- The word read so far, as a token. -/
def flushWord (acc : List Char) : List Token := if acc.isEmpty then [] else [.word acc.reverse]

/-- The tokens of a line: `;` starts a comment (R81), blanks separate, a brace is character 123 or 125. -/
def tokensOf (acc : List Char) : List Char → List Token
  | [] => flushWord acc
  | c :: rest =>
    if c = ';' then flushWord acc
    else if c = ' ' ∨ c = '\t' then flushWord acc ++ tokensOf [] rest
    else if c = ',' then flushWord acc ++ .comma :: tokensOf [] rest
    else if c.toNat = 123 then flushWord acc ++ .openBrace :: tokensOf [] rest
    else if c.toNat = 125 then flushWord acc ++ .closeBrace :: tokensOf [] rest
    else tokensOf (c :: acc) rest

/-- The value of a hexadecimal digit, of either case. -/
def hexDigit (c : Char) : Option Nat :=
  if 48 ≤ c.toNat ∧ c.toNat ≤ 57 then some (c.toNat - 48)
  else if 65 ≤ c.toNat ∧ c.toNat ≤ 70 then some (c.toNat - 55)
  else if 97 ≤ c.toNat ∧ c.toNat ≤ 102 then some (c.toNat - 87)
  else Option.none

/-- The value of a decimal digit. -/
def decDigit (c : Char) : Option Nat :=
  if 48 ≤ c.toNat ∧ c.toNat ≤ 57 then some (c.toNat - 48) else Option.none

/-- A number written in digits of a base, continued from `acc`. -/
def digitsFrom (base : Nat) (digit : Char → Option Nat) (acc : Nat) : List Char → Option Nat
  | [] => some acc
  | c :: rest => (digit c).bind fun d => digitsFrom base digit (acc * base + d) rest

/-- A number of one digit or more. -/
def number (base : Nat) (digit : Char → Option Nat) (chars : List Char) : Option Nat :=
  if chars.isEmpty then Option.none else digitsFrom base digit 0 chars

/-- An unsigned integer, decimal or hexadecimal (R82). -/
def parseNat : List Char → Option Nat
  | '0' :: 'x' :: rest => number 16 hexDigit rest
  | chars => number 10 decDigit chars

/-- A decimal literal after its sign: digits, and digits after a point. -/
def parseDecimal (negative : Bool) (chars : List Char) : Option Literal :=
  match chars.span (· ≠ '.') with
  | (whole, []) => (number 10 decDigit whole).map fun n => .decimal negative n 0
  | (whole, _ :: part) =>
    (number 10 decDigit whole).bind fun _ =>
      (number 10 decDigit part).bind fun _ =>
        (number 10 decDigit (whole ++ part)).map fun n => .decimal negative n part.length

/-- A numeric operand (R82): `0x` and eight hexadecimal digits, or a decimal literal. -/
def parseLiteral : List Char → Option Literal
  | '0' :: 'x' :: rest =>
    if rest.length = 8 then (number 16 hexDigit rest).map fun n => .bits (BitVec.ofNat 32 n) else Option.none
  | '-' :: rest => parseDecimal true rest
  | chars => parseDecimal false chars

/-- The samples after the first, and the closing brace. -/
def parseMoreSamples : List Token → Option (List Literal)
  | [.closeBrace] => some []
  | .comma :: .word x :: rest => (parseLiteral x).bind fun v => (parseMoreSamples rest).map (v :: ·)
  | _ => Option.none

/-- The samples of a PROCESS after the opening brace. -/
def parseSamples : List Token → Option (List Literal)
  | [.closeBrace] => some []
  | .word x :: rest => (parseLiteral x).bind fun v => (parseMoreSamples rest).map (v :: ·)
  | _ => Option.none

/-- The operands of a mnemonic (R81, R83). -/
def parseForm (mnemonic : List Char) (operands : List Token) : Option AsmForm :=
  if mnemonic = "INIT".toList then
    match operands with
    | [.word x] => (parseLiteral x).map .init
    | _ => Option.none
  else if mnemonic = "RESET".toList then
    match operands with
    | [] => some .reset
    | _ => Option.none
  else if mnemonic = "PROCESS".toList then
    match operands with
    | .word n :: .comma :: .openBrace :: samples =>
      (parseNat n).bind fun k => (parseSamples samples).map (.process k)
    | _ => Option.none
  else if mnemonic = "PROCESS.S".toList then
    match operands with
    | [.word n] => (parseNat n).map .processS
    | _ => Option.none
  else if mnemonic = "SET_FREQ".toList then
    match operands with
    | [.word x] => (parseLiteral x).map .setFreq
    | _ => Option.none
  else if mnemonic = "SET_DEPTH".toList then
    match operands with
    | [.word x] => (parseLiteral x).map .setDepth
    | _ => Option.none
  else if mnemonic = "SET_WAVE".toList then
    match operands with
    | [.word x] => (parseNat x).map .setWave
    | _ => Option.none
  else if mnemonic = "RD".toList then
    match operands with
    | [.word x] => (parseNat x).map .rd
    | _ => Option.none
  else if mnemonic = "PRESET.SLOW".toList then
    match operands with
    | [] => some .presetSlow
    | _ => Option.none
  else if mnemonic = "PRESET.FAST".toList then
    match operands with
    | [] => some .presetFast
    | _ => Option.none
  else Option.none

/-- A line's tokens: nothing for a blank or a comment line, else a command, `@PAR` before it or not (R81). -/
def parseTokens : List Token → Option (List AsmLine)
  | [] => some []
  | .word m :: rest =>
    if m = "@PAR".toList then
      match rest with
      | .word m' :: rest' => (parseForm m' rest').map fun f => [⟨true, f⟩]
      | _ => Option.none
    else (parseForm m rest).map fun f => [⟨false, f⟩]
  | _ => Option.none

/-- A line's text. -/
def parseLine (chars : List Char) : Option (List AsmLine) := parseTokens (tokensOf [] chars)

/-- The lines of a text. -/
def linesOf (acc : List Char) : List Char → List (List Char)
  | [] => [acc.reverse]
  | c :: rest => if c = '\n' then acc.reverse :: linesOf [] rest else linesOf (c :: acc) rest

/-- The lines of a program's text, parsed; none if one of them is no line of the assembler. -/
def parseLines : List (List Char) → Option (List AsmLine)
  | [] => some []
  | l :: rest => (parseLine l).bind fun ls => (parseLines rest).map (ls ++ ·)

/-- The host's moves that a program's text stands for (R81 to R84), in line order (notes/assumptions/22.md). -/
def assembleText (text : String) : Option (List HostMove) :=
  (parseLines (linesOf [] text.toList)).bind assemble

end Sys2Proof.Machine
end

