-- ==== Sys2Proof/Machine/Channels.lean ====
section
/-! DEFINITION. Several channels (00_scope.md R3, 60_exceptions.md R130): independent, identical instances, each with
its own ports, registers and RST. NUM_CHANNELS is the length of the list (notes/assumptions/15.md). -/

namespace Sys2Proof.Machine

/-- The power-on state of `n` channels. -/
def channelsReset (n : Nat) : List State := List.replicate n State.reset

/-- One step of channel `k`; the other channels are not touched. A channel that does not exist takes no step. -/
def channelStep (k : Nat) (channels : List State) : List State :=
  match channels[k]? with
  | Option.none => channels
  | some s =>
    match step s with
    | .next t => channels.set k t
    | .fault _ => channels
    | .refused _ => channels

end Sys2Proof.Machine
end

