-- ==== Sys2Proof/Safety.lean ====
section
/-! DEFINITION. The terms in which claims are stated: the value invariants of 10_state.md R44, what a port expects,
which registers two states share, runs of several steps, and what a rounded value is. -/

namespace Sys2Proof.Machine

/-- A legal sample rate as a pattern: [1.0, 16777216.0] (10_state.md R28, R44). -/
abbrev rateInRange (w : Word) : Prop := 0x3F800000 ≤ w.toNat ∧ w.toNat ≤ 0x4B800000

/-- A latched scale as a pattern: [0x387A0000, 0x471C4000] (41_parameters.md R98). -/
abbrev scaleInRange (w : Word) : Prop := 0x387A0000 ≤ w.toNat ∧ w.toNat ≤ 0x471C4000

/-- A latched depth as a pattern: [0.0, 100.0] or -0.0 (10_state.md R44). -/
abbrev depthInRange (w : Word) : Prop := w.toNat ≤ 0x42C80000 ∨ w = 0x80000000#32

/-- The values a state may hold (10_state.md R44, R37, R38, R39, R42; 60_exceptions.md R122, R123). It says more than
R44, which speaks of FAULT = 0 and CFG = 1 only, so that a step keeps it. -/
structure Legal (s : State) : Prop where
  /-- A configured block holds a legal rate (R28, R38). -/
  rate : s.cfg = true → rateInRange s.sampleRate
  /-- PEND_SCALE is +0.0 or a latched scale. -/
  pend : s.pendScale = 0#32 ∨ scaleInRange s.pendScale
  /-- CUR_SCALE is +0.0 or a latched scale. -/
  cur : s.curScale = 0#32 ∨ scaleInRange s.curScale
  /-- LAT_DEPTH is a clamped depth. -/
  lat : depthInRange s.latDepth
  /-- Samples are due only after a latch of a configured block, and the CMD decoder then waits for no data word. -/
  block : s.remain ≠ 0#24 → s.cfg = true ∧ scaleInRange s.pendScale ∧ s.cmdDec = Option.none
  /-- CAUSE is NONE exactly without a fault. -/
  causes : s.fault = false ↔ s.cause = .none
  /-- Words wait on a port only in FAULTED. -/
  waits : s.fault = false → s.cmdWait = [] ∧ s.parWait = []
  /-- The PAR decoder never waits for the rate of an INIT: INIT is not legal on PAR (R21, 30_encoding.md R79). -/
  noInit : s.parDec ≠ some .init

/-- CMD or PAR expects a command word (10_state.md R42, 30_encoding.md R74): no fault, no PROCESS that takes the CMD
words as samples, no data word awaited. -/
abbrev expectsCommand (p : Port) (s : State) : Prop :=
  p ≠ .rd ∧ s.fault = false ∧ (p = .cmd → s.remain = 0#24) ∧ decoder p s = Option.none

/-- The next CMD word is a sample (10_state.md R37, R42). -/
abbrev expectsSample (s : State) : Prop := s.fault = false ∧ s.remain ≠ 0#24

/-- The two states agree on every register of 10_state.md section 2.2. -/
abbrev sameRegisters (s t : State) : Prop :=
  t.sampleRate = s.sampleRate ∧ t.freq = s.freq ∧ t.depth = s.depth ∧ t.wave = s.wave ∧ t.samples = s.samples ∧
    t.curScale = s.curScale ∧ t.pendScale = s.pendScale ∧ t.latDepth = s.latDepth ∧ t.latSel = s.latSel ∧
    t.remain = s.remain ∧ t.cfg = s.cfg ∧ t.fault = s.fault ∧ t.cause = s.cause

/-- `k` steps, as `Host.Core.run` takes them of `Sys2Proof.core`, stopping at a fault or a refusal. -/
def runSteps : Nat → State → Host.Outcome State Fault Refusal
  | 0, s => .next s
  | k + 1, s =>
    match step s with
    | .next t => runSteps k t
    | .fault r => .fault r
    | .refused r => .refused r

/-- A move that is no read. -/
def HostMove.notRead : HostMove → Bool
  | .rst => true
  | .send .cmd _ => true
  | .send .par _ => true
  | .send .rd _ => false

/-- The moves that send a list of instructions, each whole, each on its port. -/
def sendAll (cs : List (Port × Instr)) : List HostMove := cs.flatMap fun c => (encode c.2).map (.send c.1)

/-- `r` is the binary32 value of a sign and the exact magnitude `n / d` units, rounded to nearest, ties to even
(00_scope.md R8). The sign is kept. Below half a unit in the last place past the largest finite magnitude the value is
finite, no finite value's magnitude is nearer, and on a tie its last bit is 0; from there on it is an infinity. -/
def IsRounded (negative : Bool) (n d : Nat) (r : Word) : Prop :=
  F32.sign r = negative ∧
    (2 * n < (2 ^ 25 - 1) * 2 ^ 253 * d → F32.isFinite r = true ∧
      ∀ v : Word, F32.isFinite v = true →
        |(F32.units r : Int) * d - n| ≤ |(F32.units v : Int) * d - n| ∧
        (|(F32.units r : Int) * d - n| = |(F32.units v : Int) * d - n| →
          F32.units v = F32.units r ∨ r.toNat % 2 = 0)) ∧
    ((2 ^ 25 - 1) * 2 ^ 253 * d ≤ 2 * n → F32.isInf r = true)

/-- Resync rule A fires in the sample step that runs next (42_process.md R105). -/
abbrev firesA (s : State) : Prop := F32.fne s.pendScale s.curScale = true ∧ stepIndex s = 0

/-- Resync rule B fires in the sample step that runs next: rule A does not (R108, R109). -/
abbrev firesB (s : State) : Prop := ¬firesA s ∧ 10000000 ≤ s.samples.toNat ∧ stepIndex s = 0

/-- The transitions between the states of the block that 10_state.md R42 lists, staying in a state being none. -/
def allowedTransition (a b : BlockState) : Prop :=
  a = b ∨ b = .unconfigured ∨ ((a = .unconfigured ∨ a = .idle) ∧ b = .idle) ∨ (a = .idle ∧ b = .inBlock) ∨
    (a = .inBlock ∧ b = .idle) ∨ (a ≠ .faulted ∧ b = .faulted)

end Sys2Proof.Machine
end

