-- ==== Sys2Proof/Certificates/Slice0/Obligations.lean ====
section
/-! DEFINITION. The statements for the provers. Each docstring says which rule of spec/ it formalises; a clause that is
the model's own choice names its log entry. -/

open Sys2Proof
open Sys2Proof.Machine

/-! ## Encoding (30_encoding.md, 20_memory.md) -/

/-- R71 to R74, R81: decoding the words of an instruction, on any port that may carry it, gives the instruction back
and leaves the words after it, whatever its operands. -/
def Obligations.DecodeOfEncode : Prop :=
  ∀ (i : Instr) (p : Port) (rest : List Word),
    i.legalOn p = true → decodeWords p (encode i ++ rest) = .instr i rest

/-- R72, R80: on CMD and on PAR an instruction is decoded only from its own words, and only where it is legal: no
second encoding stands for it. -/
def Obligations.DecodedOnlyFromItsEncoding : Prop :=
  ∀ (p : Port) (ws : List Word) (i : Instr) (rest : List Word),
    p ≠ .rd → decodeWords p ws = .instr i rest → i.legalOn p = true ∧ ws = encode i ++ rest

/-- R79: which command words are illegal on which port, and that such a word enters FAULTED with cause 1 and does
nothing else. OPC is the word divided by 2^28. -/
def Obligations.IllegalOpcodeFaults : Prop :=
  ∀ (p : Port) (w : Word) (rest : List HostMove) (s : State),
    expectsCommand p s → s.host = .send p w :: rest →
      ((p = .cmd ∧ (w.toNat / 2 ^ 28 = 0 ∨ 7 ≤ w.toNat / 2 ^ 28) ∨
          p = .par ∧ (w.toNat / 2 ^ 28 ≤ 3 ∨ 7 ≤ w.toNat / 2 ^ 28)) ↔
        step s = .next { s with host := rest, fault := true, cause := .illegalOpcode })

/-- R80: a legal opcode with a reserved bit set enters FAULTED with cause 2 and does nothing else; every other command
word is illegal on its port (cause 1), or it is exactly one row of R72, the first word of one command. -/
def Obligations.ReservedBitsFaultOrOneRow : Prop :=
  ∀ (p : Port) (w : Word), p ≠ .rd →
    if p = .cmd ∧ 1 ≤ w.toNat / 2 ^ 28 ∧ w.toNat / 2 ^ 28 ≤ 6 ∨ p = .par ∧ 4 ≤ w.toNat / 2 ^ 28 ∧ w.toNat / 2 ^ 28 ≤ 6
    then
      if (w.toNat / 2 ^ 28 = 3 ∧ w.toNat / 2 ^ 24 % 8 ≠ 0) ∨ (w.toNat / 2 ^ 28 ≠ 3 ∧ w.toNat % 2 ^ 28 ≠ 0) then
        ∀ (rest : List HostMove) (s : State), expectsCommand p s → s.host = .send p w :: rest →
          step s = .next { s with host := rest, fault := true, cause := .reservedBits }
      else
        (∃ i, decodeHead p w = .whole i ∧ encode i = [w]) ∨
          (∃ op, decodeHead p w = .needsData op ∧ ∀ d, encode (op.instr d) = [w, d])
    else decodeHead p w = .illegalOpcode

/-- R49, R51: on a byte-wide transport a word goes as bits 7:0, 15:8, 23:16, 31:24; the block decodes from the bytes
what it decodes from the words, and one, two or three bytes of a further word change nothing. -/
def Obligations.BytesGoLeastSignificantFirst : Prop :=
  (∀ w : Word, (bytesOfWord w).map BitVec.toNat =
      [w.toNat % 256, w.toNat / 2 ^ 8 % 256, w.toNat / 2 ^ 16 % 256, w.toNat / 2 ^ 24 % 256]) ∧
    ∀ (p : Port) (ws : List Word) (part : List Byte), part.length < 4 →
      wordsOfBytes (bytesOfWords ws ++ part) = ws ∧ decodeBytes p (bytesOfWords ws ++ part) = decodeWords p ws

/-- R72, R81: words written out from the table of R81 decode to their rows. A sanity statement. Every clause goes
through `decodeTableWord`, whose layout is the model's choice (log entry 18): 8 bits or fewer are a read address, and
the data word of a format F1 command word given alone is 0. R72 and R81 do not say that 0x10000000 alone is INIT 0. -/
def Obligations.WrittenWordsDecode : Prop :=
  decodeTableWord 32 0x10000000 = some (.init 0#32) ∧
    decodeTableWord 32 0x20000000 = some .reset ∧
    decodeTableWord 32 0x30000004 = some (.process 4#24) ∧
    decodeTableWord 32 0x38000007 = some (.processS 7#24) ∧
    decodeTableWord 32 0x40000000 = some (.setFreq 0#32) ∧
    decodeTableWord 32 0x50000000 = some (.setDepth 0#32) ∧
    decodeTableWord 32 0x60000000 = some (.setWave 0#32) ∧
    decodeTableWord 8 0xA = some (.rd 0xA#4) ∧
    decodeTableWord 32 0x70000000 = none ∧
    decodeTableWord 32 0x20000001 = none

/-- R74, R25: where a port expects a command word and the host sends the words of an instruction legal there, one step
takes exactly those words and runs exactly that instruction; a word on RD runs the read of its bits 3:0, in every
state. That both words of format F1 are one step, that the decode and the latch of a PROCESS are one step, where R25
lists two, and that bits 31:4 of a word on RD are ignored, are the model's readings (log entries 3, 4 and 7). -/
def Obligations.StepRunsDecodedInstruction : Prop :=
  (∀ (i : Instr) (p : Port) (rest : List HostMove) (s : State),
    expectsCommand p s → i.legalOn p = true → s.host = (encode i).map (.send p) ++ rest →
      step s = exec i { s with host := rest }) ∧
    ∀ (w : Word) (rest : List HostMove) (s : State), s.host = .send .rd w :: rest →
      step s = exec (.rd (BitVec.ofNat 4 (w.toNat % 16))) { s with host := rest }

/-- R73, R117, R133: a command word of format F1 whose data word is not the host's next move changes no register; its
decoder waits, and the next word on that port is its data word, whatever came between. That the block serves the other
moves meanwhile is the model's reading (log entry 3). -/
def Obligations.DataWordArrivesLater : Prop :=
  (∀ (op : DataOp) (p : Port) (d : Word) (rest : List HostMove) (s : State),
    expectsCommand p s → (op.instr d).legalOn p = true → s.host = .send p (encodeHead (op.instr d)) :: rest →
      (∀ w rest', rest ≠ .send p w :: rest') →
        ∃ t, step s = .next t ∧ sameRegisters s t ∧ t.out = s.out ∧ t.rdOut = s.rdOut ∧ t.host = rest ∧
          decoder p t = some op) ∧
    ∀ (op : DataOp) (p : Port) (d : Word) (rest : List HostMove) (s : State),
      p ≠ .rd → s.fault = false → (p = .cmd → s.remain = 0#24) → decoder p s = some op →
        s.host = .send p d :: rest →
          step s = exec (op.instr d) (setDecoder p none { s with host := rest })

/-! ## Lifecycle (40_lifecycle.md) -/

/-- R85: INIT with a legal rate completes: these registers and no others. After it a block without a fault reads
STATUS 0x00000001 (R40). The legal rates are the patterns 0x3F800000 to 0x4B800000. That `exec` does not look at FAULT
or REMAIN is the model's choice (log entry 20). -/
def Obligations.InitConfigures : Prop :=
  ∀ (d : Word) (s : State), 0x3F800000 ≤ d.toNat → d.toNat ≤ 0x4B800000 →
    ∃ t, exec (.init d) s = .next t ∧
      t = { s with sampleRate := d, cfg := true, samples := 0#32, curScale := 0#32, pendScale := 0#32,
                   latDepth := 0#32, latSel := .sine, remain := 0#24 } ∧
      (s.fault = false → s.cause = .none → readReg 0#4 t = 0x00000001#32)

/-- R85, R119: INIT with any other data word (a NaN, an infinity, a negative value or zero, a value below 1.0 or above
16777216.0) enters FAULTED with cause 3 and writes nothing else. That `exec` does not look at FAULT or REMAIN is the
model's choice (log entry 20). -/
def Obligations.InitRefusesBadRate : Prop :=
  ∀ (d : Word) (s : State), d.toNat < 0x3F800000 ∨ 0x4B800000 < d.toNat →
    exec (.init d) s = .next { s with fault := true, cause := .badSampleRate }

/-- R86: RESET completes and clears SAMPLES and CUR_SCALE only; STATUS.PENDING then reads 1 unless PEND_SCALE is a
zero; a second RESET changes nothing. That `exec` does not look at FAULT or REMAIN is the model's choice (log entry
20). -/
def Obligations.ResetClearsPhase : Prop :=
  ∀ s : State, ∃ t, exec .reset s = .next t ∧ t = { s with samples := 0#32, curScale := 0#32 } ∧
    ((readReg 0#4 t).getLsbD 3 = true ↔ s.pendScale ≠ 0#32 ∧ s.pendScale ≠ 0x80000000#32) ∧
    exec .reset t = .next t

/-- R88: a block after RESET and the same block after a fresh INIT at its own rate, given the same moves of the host,
emit the same OUT words and count alike, after any number of steps; and from the first latch on their latched registers
agree: while a PROCESS runs, and whenever PEND_SCALE of the block after INIT is no longer the +0.0 of that INIT. -/
def Obligations.ResetIsFreshInit : Prop :=
  ∀ (s s₁ s₂ : State) (k : Nat), s.cfg = true → s.remain = 0#24 → rateInRange s.sampleRate →
    exec .reset s = .next s₁ → exec (.init s.sampleRate) s = .next s₂ →
      ∃ t₁ t₂, runSteps k s₁ = .next t₁ ∧ runSteps k s₂ = .next t₂ ∧
        t₁.out = t₂.out ∧ t₁.samples = t₂.samples ∧ t₁.curScale = t₂.curScale ∧ t₁.remain = t₂.remain ∧
        (t₁.remain ≠ 0#24 ∨ t₂.pendScale ≠ 0#32 →
          t₁.pendScale = t₂.pendScale ∧ t₁.latDepth = t₂.latDepth ∧ t₁.latSel = t₂.latSel)

/-! ## Parameters and the latch (41_parameters.md) -/

/-- R89, R90, R91: each parameter write completes, whatever the pattern, and changes its register only. That it does so
in every state, FAULTED included, where 41_parameters.md says every state but FAULTED, is the model's choice: `exec`
does not look at FAULT, and the fetch gives it no word in FAULTED (log entry 20). -/
def Obligations.ParameterWritesComplete : Prop :=
  ∀ (d : Word) (s : State),
    exec (.setFreq d) s = .next { s with freq := d } ∧ exec (.setDepth d) s = .next { s with depth := d } ∧
      exec (.setWave d) s = .next { s with wave := d }

/-- R89 to R91, R72: the three writes from their words, on CMD and on PAR alike, in one step. -/
def Obligations.ParameterWriteOnEitherPort : Prop :=
  ∀ (p : Port) (d : Word) (rest : List HostMove) (s : State), expectsCommand p s →
    (s.host = .send p 0x40000000#32 :: .send p d :: rest → step s = .next { s with freq := d, host := rest }) ∧
    (s.host = .send p 0x50000000#32 :: .send p d :: rest → step s = .next { s with depth := d, host := rest }) ∧
    (s.host = .send p 0x60000000#32 :: .send p d :: rest → step s = .next { s with wave := d, host := rest })

/-- R92, R57: a parameter write from PAR and a sample step of a running PROCESS commute: the sample's output and every
register are the same whichever comes first, so the write does not reach the PROCESS. -/
def Obligations.ParameterWriteMissesRunningProcess : Prop :=
  ∀ (i : Instr) (x : Word) (rest : List HostMove) (s : State),
    i.legalOn .par = true → expectsSample s → s.parDec = none →
      ∃ t, runSteps 2 { s with host := (encode i).map (.send .par) ++ .send .cmd x :: rest } = .next t ∧
        runSteps 2 { s with host := .send .cmd x :: (encode i).map (.send .par) ++ rest } = .next t ∧
        t.out = s.out ++ [sampleOut x s] ∧ t.host = rest

/-- R57, R136: a SET_* from PAR is seen by a PROCESS exactly when it completes before the latch: in one order the new
value makes PEND_SCALE, LAT_DEPTH and LAT_SEL, in the other the old one does, and the parameter registers hold the new
one in both. That the PROCESS word's decode and its latch are one step, where R25 lists two, is the model's reading (log
entry 4). -/
def Obligations.LatchSeesCompletedWritesOnly : Prop :=
  ∀ (i : Instr) (cnt : BitVec 24) (rest : List HostMove) (s u : State),
    i.legalOn .par = true → expectsCommand .cmd s → expectsCommand .par s → s.cfg = true → exec i s = .next u →
      ∃ t₁ t₂,
        runSteps 2 { s with host := sendAll [(.par, i), (.cmd, .process cnt)] ++ rest } = .next t₁ ∧
        runSteps 2 { s with host := sendAll [(.cmd, .process cnt), (.par, i)] ++ rest } = .next t₂ ∧
        (t₁.freq = u.freq ∧ t₁.depth = u.depth ∧ t₁.wave = u.wave) ∧
        (t₂.freq = u.freq ∧ t₂.depth = u.depth ∧ t₂.wave = u.wave) ∧
        (t₁.pendScale = F32.fdiv 0x44FA0000#32 (F32.fdiv s.sampleRate (clampF u.freq)) ∧
          t₁.latDepth = clampD u.depth ∧ (t₁.latSel = .sine ↔ u.wave = 1#32)) ∧
        (t₂.pendScale = F32.fdiv 0x44FA0000#32 (F32.fdiv s.sampleRate (clampF s.freq)) ∧
          t₂.latDepth = clampD s.depth ∧ (t₂.latSel = .sine ↔ s.wave = 1#32))

/-- R95: the frequency clamp, by the patterns of its argument: a NaN and everything below 0.5 give 0.5, everything
above 20.0 gives 20.0, a value in range is kept bit for bit. -/
def Obligations.FrequencyClamp : Prop :=
  ∀ v : Word,
    clampF v =
      if 0x7F800000 < v.toNat % 2 ^ 31 then 0x3F000000#32
      else if 2 ^ 31 ≤ v.toNat ∨ v.toNat < 0x3F000000 then 0x3F000000#32
      else if 0x41A00000 < v.toNat then 0x41A00000#32
      else v

/-- R96: the depth clamp, by the patterns of its argument: a NaN and every negative value give +0.0, everything above
100.0 gives 100.0, a value in range and -0.0 are kept bit for bit. -/
def Obligations.DepthClamp : Prop :=
  ∀ v : Word,
    clampD v =
      if 0x7F800000 < v.toNat % 2 ^ 31 then 0x00000000#32
      else if 2 ^ 31 < v.toNat then 0x00000000#32
      else if 0x42C80000 < v.toNat ∧ v.toNat ≠ 2 ^ 31 then 0x42C80000#32
      else v

/-- R97: a latch selects SINE exactly when WAVE is 1 in all its 32 bits, and SQUARE for every other value, 2, 0, 3,
0xFFFFFFFF and the pattern of the binary32 1.0 included. -/
def Obligations.WaveSelectsTable : Prop :=
  ∀ (cnt : BitVec 24) (s t : State), s.cfg = true → exec (.process cnt) s = .next t →
    (t.latSel = .sine ↔ s.wave.toNat = 1) ∧ (t.latSel = .square ↔ s.wave.toNat ≠ 1)

/-- R99, R93, R94: a PROCESS of a configured block completes its latch, with any count, 0 included: the scale by two
rounded divisions, the clamped depth, the table, the count, and nothing else. That `exec` does not look at FAULT or
REMAIN is the model's choice (log entry 20). -/
def Obligations.ProcessLatches : Prop :=
  ∀ (cnt : BitVec 24) (s : State), s.cfg = true →
    exec (.process cnt) s =
      .next { s with
        pendScale := F32.fdiv 0x44FA0000#32 (F32.fdiv s.sampleRate (clampF s.freq))
        latDepth := clampD s.depth
        latSel := if s.wave = 1#32 then .sine else .square
        remain := cnt }

/-- R98: after a latch at a legal rate PEND_SCALE lies in [0x387A0000, 0x471C4000], and both ends are reached. -/
def Obligations.LatchedScaleInRange : Prop :=
  (∀ (cnt : BitVec 24) (s t : State), s.cfg = true → rateInRange s.sampleRate → exec (.process cnt) s = .next t →
    scaleInRange t.pendScale) ∧
    (∀ (cnt : BitVec 24) (s t : State), s.cfg = true → s.sampleRate = 0x4B800000#32 → s.freq = 0x3F000000#32 →
      exec (.process cnt) s = .next t → t.pendScale = 0x387A0000#32) ∧
    (∀ (cnt : BitVec 24) (s t : State), s.cfg = true → s.sampleRate = 0x3F800000#32 → s.freq = 0x41A00000#32 →
      exec (.process cnt) s = .next t → t.pendScale = 0x471C4000#32)

/-! ## PROCESS.S, the sample step and the ROM (42_process.md, 21_wavetable_rom.md) -/

/-- R100, R76: PROCESS.S of a configured block completes and changes nothing, whatever its CNT field holds. That `exec`
does not look at FAULT or REMAIN is the model's choice (log entry 20). -/
def Obligations.SilentProcessDoesNothing : Prop :=
  ∀ (cnt : BitVec 24) (s : State), s.cfg = true → exec (.processS cnt) s = .next s

/-- R74, R121, R120: before INIT a PROCESS or PROCESS.S without a reserved bit set enters FAULTED with cause 4 at its
command word, and no sample is taken. With a reserved bit set it is cause 2, which is checked first. -/
def Obligations.ProcessBeforeInitFaults : Prop :=
  ∀ (w : Word) (rest : List HostMove) (s : State),
    expectsCommand .cmd s → s.cfg = false → w.toNat / 2 ^ 28 = 3 → s.host = .send .cmd w :: rest →
      step s = .next { s with
        host := rest
        fault := true
        cause := if w.toNat / 2 ^ 24 % 8 = 0 then .notConfigured else .reservedBits }

/-- R101, with R105, R106, R108, R109, R111, R113, R115 and R99: one sample step in full. The index is not computed
again after a resync, the rules exclude each other, and every register not named is unchanged. -/
def Obligations.SampleStepInFull : Prop :=
  ∀ (x : Word) (rest : List HostMove) (s : State), expectsSample s → s.host = .send .cmd x :: rest →
    step s = .next { s with
      host := rest
      curScale := if firesA s then s.pendScale else s.curScale
      samples := if firesA s ∨ firesB s then 1#32 else BitVec.ofNat 32 ((s.samples.toNat + 1) % 2 ^ 32)
      remain := BitVec.ofNat 24 (s.remain.toNat - 1)
      out := s.out ++
        [F32.fmul x
          (F32.fmul
            (F32.fadd
              (F32.fsub (F32.fmul (romRead s.latSel (stepIndex s)) s.latDepth) s.latDepth)
              0x42C80000#32)
            0x3C23D70A#32)] }

/-- R99, R37, R56, R73: a PROCESS word followed by as many CMD words as its CNT says runs to its end in one step for
the latch and one for each sample: it takes exactly those words, appends exactly CNT words to OUT, and leaves REMAIN 0
and CMD at a command word. R57, R59, R92: with whole parameter writes from PAR and reads sent before any of the samples
it also runs to its end, and OUT and the counters are what they are without them. That decode and latch are one step,
where R25 lists two, is the model's reading (log entry 4). -/
def Obligations.ProcessRunsToCompletion : Prop :=
  (∀ (cnt : BitVec 24) (xs : List Word) (rest : List HostMove) (s : State),
    expectsCommand .cmd s → s.cfg = true → xs.length = cnt.toNat →
      s.host = .send .cmd (BitVec.ofNat 32 (0x30000000 + cnt.toNat)) :: xs.map (.send .cmd) ++ rest →
        ∃ t ys, runSteps (1 + cnt.toNat) s = .next t ∧ t.host = rest ∧ t.out = s.out ++ ys ∧
          ys.length = cnt.toNat ∧ t.remain = 0#24 ∧ expectsCommand .cmd t) ∧
    ∀ (cnt : BitVec 24) (xs : List (List (Port × Instr) × Word)) (rest : List HostMove) (s : State),
      expectsCommand .cmd s → expectsCommand .par s → s.cfg = true → xs.length = cnt.toNat →
        (∀ x ∈ xs, ∀ c ∈ x.1, c.1 ≠ .cmd ∧ c.2.legalOn c.1 = true) →
          ∃ t u,
            runSteps (1 + cnt.toNat + (xs.flatMap Prod.fst).length) { s with
              host := sendAll [(.cmd, .process cnt)] ++ xs.flatMap (fun x => sendAll x.1 ++ [.send .cmd x.2]) ++ rest } =
                .next t ∧
            runSteps (1 + cnt.toNat) { s with
              host := sendAll [(.cmd, .process cnt)] ++ xs.map (fun x => .send .cmd x.2) ++ rest } = .next u ∧
            t.host = rest ∧ u.host = rest ∧ t.out = u.out ∧ t.samples = u.samples ∧ t.curScale = u.curScale ∧
            t.remain = 0#24 ∧ u.remain = 0#24

/-- R104, R103, R102: in every legal state the product p is finite and not negative, the index is its floor modulo
2000, and so below 2000. -/
def Obligations.PhaseProductIsFinite : Prop :=
  ∀ s : State, Legal s →
    F32.isFinite (F32.fmul (F32.cvt s.samples.toNat) s.curScale) = true ∧
      F32.sign (F32.fmul (F32.cvt s.samples.toNat) s.curScale) = false ∧
      stepIndex s = F32.units (F32.fmul (F32.cvt s.samples.toNat) s.curScale) / 2 ^ 149 % 2000

/-- R52, R103: no index outside 0 to 1999 ever reaches the ROM, in any state. In a legal state the index is a floor
modulo 2000 (PhaseProductIsFinite); that the index of a product that is a NaN, an infinity or negative, which R104
excludes, is free but below 2000 is the model's choice (log entry 8). -/
def Obligations.IndexInTable : Prop := ∀ s : State, stepIndex s < 2000

/-- R106, R115: in every legal state a counter at 0 (after a resync, INIT, RESET or the wrap at 2^32) gives index 0. -/
def Obligations.ZeroCounterGivesIndexZero : Prop := ∀ s : State, Legal s → s.samples = 0#32 → stepIndex s = 0

/-- R107: the first sample step after INIT or RESET, a latch having run, has index 0, fires rule A, and leaves
SAMPLES = 1 and CUR_SCALE = PEND_SCALE; its output is x times the gain of entry 0. -/
def Obligations.FirstSampleFiresRuleA : Prop :=
  ∀ (x : Word) (rest : List HostMove) (s : State), expectsSample s → s.host = .send .cmd x :: rest →
    s.samples = 0#32 → s.curScale = 0#32 → scaleInRange s.pendScale →
      ∃ t, step s = .next t ∧ t.curScale = s.pendScale ∧ t.samples = 1#32 ∧
        t.out = s.out ++ [F32.fmul x (gain (romRead s.latSel 0) s.latDepth)]

/-- R102: every value of the 32-bit counter is converted to a nearest binary32 value, ties to even, and exactly up to
2^24; 16777217 becomes 16777216 and 16777219 becomes 16777220 (0x4B800000 and 0x4B800002). That the model computes IEEE
754 rounding is log entry 10. -/
def Obligations.CounterConversion : Prop :=
  (∀ n : Nat, n < 2 ^ 32 → IsRounded false (n * 2 ^ 149) 1 (F32.cvt n) ∧ F32.isFinite (F32.cvt n) = true) ∧
    (∀ n : Nat, n ≤ 2 ^ 24 → F32.value (F32.cvt n) = (n * 2 ^ 149 : Nat)) ∧
    F32.cvt 16777216 = 0x4B800000#32 ∧ F32.cvt 16777217 = 0x4B800000#32 ∧
    F32.cvt 16777219 = 0x4B800002#32 ∧ F32.cvt 16777220 = 0x4B800002#32

/-- R112 (depth 0), R114, E2: with a latched depth of +0.0 or -0.0 the output is the input bit for bit, for every
waveform and every state, a NaN made quiet. -/
def Obligations.DepthZeroIsIdentity : Prop :=
  ∀ (x : Word) (s : State), s.latDepth = 0x00000000#32 ∨ s.latDepth = 0x80000000#32 →
    sampleOut x s = if F32.isNaN x then x ||| 0x00400000#32 else x

/-- R112 (SINE, any depth): for every entry of SINE and every depth in [0, 100] the gain lies in [0.0, 1.0]. -/
def Obligations.SineGainWithinUnit : Prop :=
  ∀ (i : Nat) (d : Word), i < 2000 → depthInRange d → (gain (romRead .sine i) d).toNat ≤ 0x3F800000

/-- R114: the output for every input, g being finite: a NaN, an infinity, a zero; and for a finite input the product,
rounded once to nearest, ties to even, with its sign, overflow to an infinity and underflow kept (`IsRounded`; that the
model computes IEEE 754 rounding is log entry 10). -/
def Obligations.SpecialValuesOfOutput : Prop :=
  ∀ x g : Word, F32.isFinite g = true →
    (F32.isNaN x = true → F32.fmul x g = x ||| 0x00400000#32) ∧
    (F32.isInf x = true → F32.isZero g = true → F32.fmul x g = 0x7FC00000#32) ∧
    (F32.isInf x = true → F32.isZero g = false →
      F32.fmul x g = if F32.sign x = F32.sign g then 0x7F800000#32 else 0xFF800000#32) ∧
    (F32.isZero x = true → F32.fmul x g = if F32.sign x = F32.sign g then 0x00000000#32 else 0x80000000#32) ∧
    (F32.isFinite x = true →
      IsRounded (F32.sign x != F32.sign g) (F32.units x * F32.units g) (2 ^ 149) (F32.fmul x g))

/-- R114: the gain of every ROM entry at every latched depth is finite. -/
def Obligations.GainIsFinite : Prop :=
  ∀ (sel : Table) (i : Nat) (d : Word), i < 2000 → depthInRange d → F32.isFinite (gain (romRead sel i) d) = true

/-- R8: the rounding of the model is roundTiesToEven: below the overflow threshold the result of rounding n / d units
is a finite value no other finite value is nearer to, and on a tie its last bit is 0; from the threshold on it is
infinity. That the operations are those of IEEE 754 is general knowledge and not the spec's own text (log entry 10). -/
def Obligations.RoundsToNearestEven : Prop :=
  ∀ n d : Nat, 0 < d →
    (2 * n < (2 ^ 25 - 1) * 2 ^ 253 * d → F32.isFinite (F32.pack false (F32.roundMag n d)) = true ∧
      ∀ v : Word, F32.isFinite v = true → F32.sign v = false →
        |(F32.units (F32.pack false (F32.roundMag n d)) : Int) * d - n| ≤ |(F32.units v : Int) * d - n| ∧
        (|(F32.units (F32.pack false (F32.roundMag n d)) : Int) * d - n| = |(F32.units v : Int) * d - n| →
          v = F32.pack false (F32.roundMag n d) ∨ F32.roundMag n d % 2 = 0)) ∧
    ((2 ^ 25 - 1) * 2 ^ 253 * d ≤ 2 * n → F32.pack false (F32.roundMag n d) = 0x7F800000#32)

/-- R68: the range of the ROM: SINE in [0, 1] with its one 1.0 and its one zero; SQUARE's minimum and maximum, and
exactly which entries lie below 0 and above 1. -/
def Obligations.RomRange : Prop :=
  ∀ i : Nat, i < 2000 →
    (romRead .sine i).toNat ≤ 0x3F800000 ∧ (romRead .sine i = 0x3F800000#32 ↔ i = 500) ∧
    (romRead .sine i = 0#32 ↔ i = 1500) ∧
    (F32.lt (romRead .square i) 0#32 = true ↔ 1367 ≤ i ∧ i ≤ 1429) ∧
    (F32.lt 0x3F800000#32 (romRead .square i) = true ↔
      25 ≤ i ∧ i ≤ 177 ∨ 200 ≤ i ∧ i ≤ 596 ∨ 619 ≤ i ∧ i ≤ 772) ∧
    F32.le (romRead .square 1398) (romRead .square i) = true ∧
    F32.le (romRead .square i) (romRead .square 398) = true ∧
    romRead .square 1398 = 0xBB010564#32 ∧ romRead .square 398 = 0x3F8146A8#32

/-- R64, R69: the SINE listing follows the formula of R64 to within 2^-24. (R66's bound, half a unit in the last place,
is 2^-25 or less here; the listing wins over the formula, R69.) -/
def Obligations.SineListingFollowsFormula : Prop :=
  ∀ i : Nat, i < 2000 →
    |(F32.units (romRead .sine i) : ℝ) / 2 ^ 149 - (Real.sin (2 * Real.pi * i / 2000) + 1) / 2| ≤ 1 / 2 ^ 24

/-! ## Read-back (43_readback.md, 10_state.md) -/

/-- R41, R117: a read completes in every state, answers the word of its address and changes no register; the addresses
0xB to 0xF read 0. -/
def Obligations.ReadMap : Prop :=
  ∀ (a : BitVec 4) (s : State),
    exec (.rd a) s = .next { s with rdOut := s.rdOut ++ [
      match a.toNat with
      | 0 => statusWord s
      | 1 => s.sampleRate
      | 2 => s.freq
      | 3 => s.depth
      | 4 => s.wave
      | 5 => s.samples
      | 6 => s.curScale
      | 7 => s.pendScale
      | 8 => s.latDepth
      | 9 => if s.latSel = .sine then 0x00000000#32 else 0x00000001#32
      | 10 => BitVec.ofNat 32 s.remain.toNat
      | _ => 0x00000000#32] }

/-- R40, R119: the layout of STATUS as a number: CFG 1, FAULT 2, BUSY 4, PENDING 8, CAUSE times 16, and bits 31:8 read
0. -/
def Obligations.StatusLayout : Prop :=
  ∀ s : State,
    (readReg 0x0#4 s).toNat =
      (if s.cfg then 1 else 0) + (if s.fault then 2 else 0) + (if s.remain = 0#24 then 0 else 4) +
        (if F32.fne s.pendScale s.curScale then 8 else 0) +
        16 * (match s.cause with
          | .none => 0
          | .illegalOpcode => 1
          | .reservedBits => 2
          | .badSampleRate => 3
          | .notConfigured => 4)

/-- R54, R59: reads have no effect on anything but their own answers: a run of the host's moves and the run of the same
moves without the reads end in the same registers, the same OUT words and the same decoders. -/
def Obligations.ReadsDoNotInterfere : Prop :=
  ∀ s : State,
    ∃ t u, runSteps s.host.length s = .next t ∧
      runSteps s.host.length { s with host := s.host.filter HostMove.notRead } = .next u ∧
      sameRegisters t u ∧ t.out = u.out ∧ t.cmdDec = u.cmdDec ∧ t.parDec = u.parDec

/-! ## Faults and RST (60_exceptions.md, 70_reset_and_hazards.md) -/

/-- R123, R126: in FAULTED, whatever the host sends, as long as it does not pulse RST, every register keeps its value
and no OUT word is emitted, over any number of steps. -/
def Obligations.FaultedIsFrozen : Prop :=
  ∀ (k : Nat) (s : State), s.fault = true → HostMove.rst ∉ s.host →
    ∃ t, runSteps k s = .next t ∧ sameRegisters s t ∧ t.out = s.out

/-- R123: a word sent on CMD or PAR in FAULTED stays untaken on its port, behind the ones before it. How it is held is
the model's choice (log entry 5). -/
def Obligations.FaultedLeavesWordsUntaken : Prop :=
  ∀ (w : Word) (rest : List HostMove) (s : State), s.fault = true →
    (s.host = .send .cmd w :: rest → step s = .next { s with host := rest, cmdWait := s.cmdWait ++ [w] }) ∧
    (s.host = .send .par w :: rest → step s = .next { s with host := rest, parWait := s.parWait ++ [w] })

/-- R124: a word on PAR that faults while a PROCESS runs stops it where it stands: REMAIN and BUSY stay, the counters
keep what the samples run so far left, and no later sample is taken. The words that fault are those of an opcode that
is illegal on PAR (R79, cause 1), and a SET_* with a reserved bit set (R80, cause 2). -/
def Obligations.FaultOnParStopsProcess : Prop :=
  ∀ (w x : Word) (rest : List HostMove) (s : State),
    expectsSample s → s.parDec = none → s.host = .send .par w :: .send .cmd x :: rest →
      (w.toNat / 2 ^ 28 ≤ 3 ∨ 7 ≤ w.toNat / 2 ^ 28 ∨ w.toNat % 2 ^ 28 ≠ 0) →
        ∃ t, runSteps 2 s = .next t ∧ t.fault = true ∧
          t.cause = (if w.toNat / 2 ^ 28 ≤ 3 ∨ 7 ≤ w.toNat / 2 ^ 28 then .illegalOpcode else .reservedBits) ∧
          t.remain = s.remain ∧ (readReg 0#4 t).getLsbD 2 = true ∧ t.samples = s.samples ∧
          t.curScale = s.curScale ∧ t.out = s.out

/-- R118, R122: a step that enters FAULTED comes from decoding a word on CMD or PAR that is no sample, records one of
the four causes, and changes no other register. -/
def Obligations.FaultsComeFromDecoding : Prop :=
  ∀ s t : State, step s = .next t → s.fault = false → t.fault = true →
    (∃ p w rest, p ≠ .rd ∧ s.host = .send p w :: rest ∧ ¬(p = .cmd ∧ s.remain ≠ 0#24)) ∧ t.cause ≠ .none ∧
      sameRegisters s { t with fault := s.fault, cause := s.cause } ∧ t.out = s.out

/-- R125, R24: the one step out of FAULTED is an RST pulse. -/
def Obligations.OnlyRstLeavesFaulted : Prop :=
  ∀ s t : State, step s = .next t → s.fault = true → t.fault = false → ∃ rest, s.host = .rst :: rest

/-- R132: an RST pulse, in every state, FAULTED included, puts every register at its power-on value; the block is then
UNCONFIGURED (R42) and STATUS reads 0. R133: both decoders are at a command word, the words waiting on the ports are
lost, and no OUT word is emitted. That the words already on OUT stay there is the model's reading of R132's 'nothing
pending' (log entry 6). -/
def Obligations.RstRestoresPowerOn : Prop :=
  ∀ (rest : List HostMove) (s : State), s.host = .rst :: rest →
    ∃ t, step s = .next t ∧
      t.sampleRate = 0x00000000#32 ∧ t.freq = 0x40000000#32 ∧ t.depth = 0x42480000#32 ∧ t.wave = 1#32 ∧
      t.samples = 0#32 ∧ t.curScale = 0x00000000#32 ∧ t.pendScale = 0x00000000#32 ∧ t.latDepth = 0x00000000#32 ∧
      t.latSel = .sine ∧ t.remain = 0#24 ∧ t.cfg = false ∧ t.fault = false ∧ t.cause = .none ∧
      readReg 0#4 t = 0x00000000#32 ∧ blockState t = .unconfigured ∧
      t.cmdDec = none ∧ t.parDec = none ∧ t.cmdWait = [] ∧ t.parWait = [] ∧ t.out = s.out

/-- R132: the reset state: the registers a host reads right after RST, address by address. -/
def Obligations.ResetRegisterValues : Prop :=
  (List.range 16).map (fun a => (readReg (BitVec.ofNat 4 a) State.reset).toNat) =
    [0, 0, 0x40000000, 0x42480000, 1, 0, 0, 0, 0, 0, 0, 0, 0, 0, 0, 0]

/-! ## Whole-machine rules -/

/-- R118, R131: no state stops the block: every step answers a next state, and without a word to take the block waits
with all state kept (that such a step answers the same state: log entry 13). -/
def Obligations.EveryStepCompletes : Prop :=
  (∀ s : State, ∃ t, step s = .next t) ∧ ∀ s : State, s.host = [] → step s = .next s

/-- R22, R118: OUT words come from sample steps only: a step appends nothing to OUT, or exactly the output of one
sample. That an RST too leaves the words already on OUT there is the model's reading of R132 (log entry 6). -/
def Obligations.OutputOnlyFromSampleSteps : Prop :=
  ∀ s t : State, step s = .next t →
    t.out = s.out ∨
      ∃ x rest, s.host = .send .cmd x :: rest ∧ expectsSample s ∧ t.out = s.out ++ [sampleOut x s] ∧
        t.remain = s.remain - 1#24

/-- R33, R105: CUR_SCALE changes only to +0.0, in a step that is an RST, a RESET or an INIT with a legal rate (its data
word taken with its command word, or awaited by a decoder), or, in a sample step whose index is 0, to PEND_SCALE. -/
def Obligations.ScaleChangesOnlyAtIndexZero : Prop :=
  ∀ s t : State, step s = .next t → t.curScale ≠ s.curScale →
    t.curScale = 0#32 ∧
        ((∃ rest, s.host = .rst :: rest) ∨
          expectsCommand .cmd s ∧
            (s.host = .send .cmd 0x20000000#32 :: t.host ∨
              ∃ d, rateInRange d ∧ s.host = .send .cmd 0x10000000#32 :: .send .cmd d :: t.host) ∨
          ∃ p d, s.fault = false ∧ decoder p s = some .init ∧ rateInRange d ∧ s.host = .send p d :: t.host) ∨
      (expectsSample s ∧ stepIndex s = 0 ∧ t.curScale = s.pendScale ∧ t.samples = 1#32)

/-- R28: in a legal state SAMPLE_RATE is written only by RST, with +0.0, and by an INIT, with its data word, a rate in
[1.0, 16777216.0]: the word of the step's own move, or the word after it when that move sends the INIT command word. -/
def Obligations.RateWrittenOnlyByInitOrRst : Prop :=
  ∀ s t : State, Legal s → step s = .next t → t.sampleRate ≠ s.sampleRate →
    (∃ rest, s.host = .rst :: rest) ∧ t.sampleRate = 0#32 ∨
      t.cfg = true ∧ rateInRange t.sampleRate ∧
        (s.cmdDec = some .init ∧ s.host = .send .cmd t.sampleRate :: t.host ∨
          s.host = .send .cmd 0x10000000#32 :: .send .cmd t.sampleRate :: t.host)

/-- R43: a sample step takes the resync machine from PENDING to SYNCED only when its index is 0, and a latch that asks
for CUR_SCALE again does so without one. -/
def Obligations.ResyncOnlyAtIndexZero : Prop :=
  (∀ (x : Word) (rest : List HostMove) (s t : State), expectsSample s → s.host = .send .cmd x :: rest →
    step s = .next t → resyncState s = .pending → resyncState t = .synced → stepIndex s = 0) ∧
    ∀ (cnt : BitVec 24) (s t : State), Legal s → s.cfg = true → exec (.process cnt) s = .next t →
      (resyncState t = .synced ↔ t.pendScale = s.curScale)

/-- R44, with R28, R37 to R39, R42, R98, R122: what a legal state is, every step keeps, from every legal state. -/
def Obligations.StepKeepsLegal : Prop := ∀ s t : State, Legal s → step s = .next t → Legal t

/-- R132: the reset state is legal, whatever the host does next. -/
def Obligations.ResetIsLegal : Prop := ∀ moves : List HostMove, Legal { State.reset with host := moves }

/-- R42: from a legal state the block moves only along the transitions of R42; it comes back to UNCONFIGURED only by
RST, leaves FAULTED only for UNCONFIGURED, and IN_BLOCK for IDLE only at its last sample. -/
def Obligations.BlockStateTransitions : Prop :=
  ∀ s t : State, Legal s → step s = .next t →
    allowedTransition (blockState s) (blockState t) ∧
      (blockState s ≠ .unconfigured → blockState t = .unconfigured → ∃ rest, s.host = .rst :: rest) ∧
      (blockState s = .faulted → blockState t = .faulted ∨ blockState t = .unconfigured) ∧
      (blockState s = .inBlock → blockState t = .idle → s.remain = 1#24)

/-! ## Channels and the assembler (60_exceptions.md R130, 30_encoding.md section 5) -/

/-- R130, R3: a step of one channel is a step of its block and leaves every other channel as it is. That the number of
channels is the length of a list is the model's form (log entry 15). -/
def Obligations.ChannelsAreIndependent : Prop :=
  ∀ (k : Nat) (channels : List State) (s : State), channels[k]? = some s →
    (∃ t, step s = .next t ∧ (channelStep k channels)[k]? = some t) ∧
      ∀ j, j ≠ k → (channelStep k channels)[j]? = channels[j]?

/-- R83: the two pseudo-instructions emit the words of R83, on CMD and, with the prefix, all of them on PAR. -/
def Obligations.PresetsExpand : Prop :=
  ∀ onPar : Bool,
    assembleLine ⟨onPar, .presetSlow⟩ =
      some ([0x40000000#32, 0x40000000#32, 0x50000000#32, 0x42480000#32, 0x60000000#32, 0x00000001#32].map
        (.send (if onPar then .par else .cmd))) ∧
    assembleLine ⟨onPar, .presetFast⟩ =
      some ([0x40000000#32, 0x41A00000#32, 0x50000000#32, 0x42B40000#32, 0x60000000#32, 0x00000002#32].map
        (.send (if onPar then .par else .cmd)))

/-- R81: a PROCESS line with n samples emits the word 0x30000000 + n and the samples, in order, and is refused when its
count is wrong or above 16,777,215. -/
def Obligations.AssemblerEmitsProcess : Prop :=
  ∀ (n : Nat) (samples : List Word),
    assembleLine ⟨false, .process n (samples.map .bits)⟩ =
      if n ≤ 16777215 ∧ samples.length = n then
        some (.send .cmd (BitVec.ofNat 32 (0x30000000 + n)) :: samples.map (.send .cmd))
      else none

/-! ## Arithmetic and the ROM's second table (00_scope.md R8, 21_wavetable_rom.md) -/

/-- R8: each operation on finite operands gives its exact result rounded once to nearest, ties to even, with its sign
(`IsRounded`): product, quotient by what is no zero, sum and difference. That these are the operations of IEEE 754, and
that an exact zero sum is +0.0 unless both addends are negative zeros, is general knowledge (log entry 10). -/
def Obligations.ArithmeticIsRounded : Prop :=
  ∀ a b : Word, F32.isFinite a = true → F32.isFinite b = true →
    IsRounded (F32.sign a != F32.sign b) (F32.units a * F32.units b) (2 ^ 149) (F32.fmul a b) ∧
    (F32.units b ≠ 0 →
      IsRounded (F32.sign a != F32.sign b) (F32.units a * 2 ^ 149) (F32.units b) (F32.fdiv a b)) ∧
    (F32.value a + F32.value b ≠ 0 →
      IsRounded (decide (F32.value a + F32.value b < 0)) (F32.value a + F32.value b).natAbs 1 (F32.fadd a b)) ∧
    (F32.value a + F32.value b = 0 →
      F32.fadd a b = if F32.sign a = true ∧ F32.sign b = true then 0x80000000#32 else 0x00000000#32) ∧
    (F32.value a ≠ F32.value b →
      IsRounded (decide (F32.value a < F32.value b)) (F32.value a - F32.value b).natAbs 1 (F32.fsub a b)) ∧
    (F32.value a = F32.value b →
      F32.fsub a b = if F32.sign a = true ∧ F32.sign b = false then 0x80000000#32 else 0x00000000#32)

/-- R65, R69: the SQUARE listing follows the formula of R65 to within 2^-23. (R66's bound, half a unit in the last
place, is 2^-24 or less here; the listing wins over the formula, R69.) -/
def Obligations.SquareListingFollowsFormula : Prop :=
  ∀ i : Nat, i < 2000 →
    let phase : ℝ := 2 * Real.pi * i / 2000 + 0.32
    |(F32.value (romRead .square i) : ℝ) / 2 ^ 149 -
      0.63 * (1 * Real.sin (1 * phase) + 0.3 * Real.sin (3 * phase) + 0.15 * Real.sin (5 * phase) +
        0.075 * Real.sin (7 * phase) + 0.0375 * Real.sin (9 * phase) + 0.01875 * Real.sin (11 * phase) +
        0.009375 * Real.sin (13 * phase) + 0.8)| ≤ 1 / 2 ^ 23
end

