-- ==== Sys2Proof/Laws/Decode.lean ====
section
/-! SUPPORT. The fields of a command word and what the decoder makes of the word written for an instruction. -/

namespace Sys2Proof

/-! ### Fields as numbers -/

theorem opcField_toNat (w : Word) : (opcField w).toNat = w.toNat / 2 ^ 28 := by
  have := w.isLt
  simp only [opcField, BitVec.extractLsb'_toNat, Nat.shiftRight_eq_div_pow]; omega

theorem sField_toNat (w : Word) : (sField w).toNat = w.toNat / 2 ^ 27 % 2 := by
  simp only [sField, BitVec.extractLsb'_toNat, Nat.shiftRight_eq_div_pow]

theorem rsvField_toNat (w : Word) : (rsvField w).toNat = w.toNat / 2 ^ 24 % 8 := by
  simp only [rsvField, BitVec.extractLsb'_toNat, Nat.shiftRight_eq_div_pow]

theorem cntField_toNat (w : Word) : (cntField w).toNat = w.toNat % 2 ^ 24 := by
  simp only [cntField, BitVec.extractLsb'_toNat, Nat.shiftRight_eq_div_pow]; omega

theorem lowField_toNat (w : Word) : (lowField w).toNat = w.toNat % 2 ^ 28 := by
  simp only [lowField, BitVec.extractLsb'_toNat, Nat.shiftRight_eq_div_pow]; omega

theorem readAddress_toNat (w : Word) : (readAddress w).toNat = w.toNat % 16 := by
  simp only [readAddress, BitVec.extractLsb'_toNat, Nat.shiftRight_eq_div_pow]; omega

/-- A command word as a number. -/
theorem commandWord_toNat (opc : BitVec 4) (s : BitVec 1) (cnt : BitVec 24) :
    (commandWord opc s cnt).toNat = opc.toNat * 2 ^ 28 + s.toNat * 2 ^ 27 + cnt.toNat := by
  have := opc.isLt
  have := s.isLt
  have := cnt.isLt
  simp only [commandWord, BitVec.toNat_append, Nat.shiftLeft_eq, BitVec.toNat_ofNat]
  rw [← Nat.shiftLeft_eq, ← Nat.shiftLeft_add_eq_or_of_lt (by omega),
    ← Nat.shiftLeft_eq, ← Nat.shiftLeft_add_eq_or_of_lt (by simp),
    ← Nat.shiftLeft_eq, ← Nat.shiftLeft_add_eq_or_of_lt (by omega)]
  simp only [Nat.shiftLeft_eq]
  omega

@[simp] theorem opcField_commandWord (opc : BitVec 4) (s : BitVec 1) (cnt : BitVec 24) :
    opcField (commandWord opc s cnt) = opc := by
  have := opc.isLt; have := s.isLt; have := cnt.isLt
  apply BitVec.eq_of_toNat_eq; rw [opcField_toNat, commandWord_toNat]; omega

@[simp] theorem sField_commandWord (opc : BitVec 4) (s : BitVec 1) (cnt : BitVec 24) :
    sField (commandWord opc s cnt) = s := by
  have := opc.isLt; have := s.isLt; have := cnt.isLt
  apply BitVec.eq_of_toNat_eq; rw [sField_toNat, commandWord_toNat]; omega

@[simp] theorem rsvField_commandWord (opc : BitVec 4) (s : BitVec 1) (cnt : BitVec 24) :
    rsvField (commandWord opc s cnt) = 0#3 := by
  have := opc.isLt; have := s.isLt; have := cnt.isLt
  apply BitVec.eq_of_toNat_eq; rw [rsvField_toNat, commandWord_toNat]; simp only [BitVec.toNat_ofNat]; omega

@[simp] theorem cntField_commandWord (opc : BitVec 4) (s : BitVec 1) (cnt : BitVec 24) :
    cntField (commandWord opc s cnt) = cnt := by
  have := opc.isLt; have := s.isLt; have := cnt.isLt
  apply BitVec.eq_of_toNat_eq; rw [cntField_toNat, commandWord_toNat]; omega

@[simp] theorem lowField_commandWord (opc : BitVec 4) : lowField (commandWord opc 0#1 0#24) = 0#28 := by
  have := opc.isLt
  apply BitVec.eq_of_toNat_eq; rw [lowField_toNat, commandWord_toNat]; simp only [BitVec.toNat_ofNat]; omega

theorem readAddress_setWidth (a : BitVec 4) : readAddress (a.setWidth 32) = a := by
  have := a.isLt
  apply BitVec.eq_of_toNat_eq; rw [readAddress_toNat, BitVec.toNat_setWidth]; omega

/-- The outcomes of decoding a first word: a read on RD; else an illegal opcode, a reserved bit, or a row. -/
theorem decodeHead_cases (p : Port) (w : Word) :
    (p = .rd ∧ decodeHead p w = .whole (.rd (readAddress w))) ∨
    (p ≠ .rd ∧ opcodeLegal p (opcField w) = false ∧ decodeHead p w = .illegalOpcode) ∨
    (p ≠ .rd ∧ opcodeLegal p (opcField w) = true ∧ reservedSet w = true ∧ decodeHead p w = .reservedBits) ∨
    (p ≠ .rd ∧ opcodeLegal p (opcField w) = true ∧ reservedSet w = false ∧ decodeHead p w = rowOf w) := by
  cases p
  case rd => exact .inl ⟨rfl, rfl⟩
  all_goals
    right
    simp only [decodeHead]
    cases h₁ : opcodeLegal _ (opcField w) <;> cases h₂ : reservedSet w <;> simp

/-- A format F0 word without a reserved bit is made of its fields (30_encoding.md R71). -/
theorem commandWord_of_rsvField (w : Word) (h : rsvField w = 0#3) :
    w = commandWord (opcField w) (sField w) (cntField w) := by
  apply BitVec.eq_of_toNat_eq
  have h' := congrArg BitVec.toNat h
  rw [rsvField_toNat] at h'
  rw [commandWord_toNat, opcField_toNat, sField_toNat, cntField_toNat]
  have := w.isLt
  simp at h'; omega

/-- A word of the other formats without a reserved bit is its opcode. -/
theorem commandWord_of_lowField (w : Word) (h : lowField w = 0#28) : w = commandWord (opcField w) 0#1 0#24 := by
  apply BitVec.eq_of_toNat_eq
  have h' := congrArg BitVec.toNat h
  rw [lowField_toNat] at h'
  rw [commandWord_toNat, opcField_toNat]
  have := w.isLt
  simp at h' ⊢; omega

/-- A legal opcode without a reserved bit is one row of R72: a whole command, or the first of two words. -/
theorem rowOf_spec (p : Port) (hp : p ≠ .rd) (w : Word) (hl : opcodeLegal p (opcField w) = true)
    (hr : reservedSet w = false) :
    (∃ i, rowOf w = .whole i ∧ encode i = [w] ∧ i.legalOn p = true) ∨
      (∃ op, rowOf w = .needsData op ∧ ∀ d, encode (op.instr d) = [w, d] ∧ (op.instr d).legalOn p = true) := by
  unfold reservedSet at hr
  have hcases : opcField w = 1#4 ∨ opcField w = 2#4 ∨ opcField w = 3#4 ∨ opcField w = 4#4 ∨ opcField w = 5#4 ∨
      opcField w = 6#4 := by
    revert hl; generalize opcField w = o; cases p <;> revert o <;> first | decide | exact absurd rfl hp
  have hcmd : p = .cmd ∨ p = .par ∧ opcField w ≠ 1#4 ∧ opcField w ≠ 2#4 ∧ opcField w ≠ 3#4 := by
    revert hl; generalize opcField w = o; cases p <;> revert o <;> first | decide | exact absurd rfl hp
  rcases hcases with h | h | h | h | h | h <;> simp [h] at hr
  · right; refine ⟨.init, by simp [rowOf, h], fun d => ⟨?_, ?_⟩⟩
    · simp [encode, encodeData, encodeHead, DataOp.instr]; rw [← h]; exact (commandWord_of_lowField w hr).symm
    · rcases hcmd with rfl | hh <;> simp_all [Instr.legalOn, DataOp.instr]
  · left; refine ⟨.reset, by simp [rowOf, h], ?_, ?_⟩
    · simp [encode, encodeData, encodeHead]; rw [← h]; exact (commandWord_of_lowField w hr).symm
    · rcases hcmd with rfl | hh <;> simp_all [Instr.legalOn]
  · left
    by_cases hs : sField w = 1#1
    · refine ⟨.processS (cntField w), by simp [rowOf, h, hs], ?_, ?_⟩
      · simp [encode, encodeData, encodeHead]; rw [← h, ← hs]; exact (commandWord_of_rsvField w hr).symm
      · rcases hcmd with rfl | hh <;> simp_all [Instr.legalOn]
    · have hs0 : sField w = 0#1 := by
        revert hs; generalize sField w = o; revert o; decide
      refine ⟨.process (cntField w), by simp [rowOf, h, hs0], ?_, ?_⟩
      · simp [encode, encodeData, encodeHead]; rw [← h, ← hs0]; exact (commandWord_of_rsvField w hr).symm
      · rcases hcmd with rfl | hh <;> simp_all [Instr.legalOn]
  · right; refine ⟨.setFreq, by simp [rowOf, h], fun d => ⟨?_, ?_⟩⟩
    · simp [encode, encodeData, encodeHead, DataOp.instr]; rw [← h]; exact (commandWord_of_lowField w hr).symm
    · rcases hcmd with rfl | ⟨rfl, _⟩ <;> simp_all [Instr.legalOn, DataOp.instr]
  · right; refine ⟨.setDepth, by simp [rowOf, h], fun d => ⟨?_, ?_⟩⟩
    · simp [encode, encodeData, encodeHead, DataOp.instr]; rw [← h]; exact (commandWord_of_lowField w hr).symm
    · rcases hcmd with rfl | ⟨rfl, _⟩ <;> simp_all [Instr.legalOn, DataOp.instr]
  · right; refine ⟨.setWave, by simp [rowOf, h], fun d => ⟨?_, ?_⟩⟩
    · simp [encode, encodeData, encodeHead, DataOp.instr]; rw [← h]; exact (commandWord_of_lowField w hr).symm
    · rcases hcmd with rfl | ⟨rfl, _⟩ <;> simp_all [Instr.legalOn, DataOp.instr]

end Sys2Proof
end

