-- ==== Sys2Proof/Laws/Float.lean ====
section
/-! SUPPORT. What rounding does, said once: it is monotone, it is exact on binary32 values, and so it respects every
bound that is itself a binary32 value. The provers cite these instead of unfolding `roundMag`. -/

namespace Sys2Proof.Machine.F32

/-! ### Rounding a fraction to an integer -/

theorem roundDiv_ge (n d : Nat) : n / d ≤ roundDiv n d := by
  unfold roundDiv; split <;> omega

theorem roundDiv_le (n d : Nat) : roundDiv n d ≤ n / d + 1 := by
  unfold roundDiv; split <;> omega

theorem roundDiv_mul (k d : Nat) (hd : 0 < d) : roundDiv (k * d) d = k := by
  have h : ¬(d < 2 * (k * d % d) ∨ (2 * (k * d % d) = d ∧ (k * d / d) % 2 = 1)) := by
    rw [Nat.mul_mod_left]; omega
  unfold roundDiv
  rw [if_neg h, Nat.mul_div_cancel _ hd]

/-- The integer next above a fraction that rounds to itself is not rounded over. -/
theorem roundDiv_le_of_le {n d k : Nat} (hd : 0 < d) (h : n ≤ k * d) : roundDiv n d ≤ k := by
  have hq : n / d ≤ k := Nat.div_le_of_le_mul (by rwa [Nat.mul_comm])
  rcases Nat.lt_or_ge (n / d) k with hlt | hge
  · exact le_trans (roundDiv_le n d) hlt
  · have hk : n = k * d := by
      have := Nat.div_mul_le_self n d
      have h2 : n / d = k := le_antisymm hq hge
      rw [h2] at this; omega
    rw [hk, roundDiv_mul k d hd]

/-- Rounding a fraction to an integer is monotone in the fraction. -/
theorem roundDiv_mono {n₁ d₁ n₂ d₂ : Nat} (h₁ : 0 < d₁) (h₂ : 0 < d₂) (h : n₁ * d₂ ≤ n₂ * d₁) :
    roundDiv n₁ d₁ ≤ roundDiv n₂ d₂ := by
  have e₁ := Nat.div_add_mod n₁ d₁
  have e₂ := Nat.div_add_mod n₂ d₂
  have l₁ := Nat.mod_lt n₁ h₁
  have l₂ := Nat.mod_lt n₂ h₂
  have hq : n₁ / d₁ ≤ n₂ / d₂ := by
    rw [Nat.le_div_iff_mul_le h₂]
    have a : n₁ / d₁ * d₁ ≤ n₁ := Nat.div_mul_le_self n₁ d₁
    have b : n₁ / d₁ * d₂ * d₁ ≤ n₂ * d₁ :=
      le_trans (by nlinarith) h
    exact Nat.le_of_mul_le_mul_right b h₁
  rcases Nat.lt_or_ge (n₁ / d₁) (n₂ / d₂) with hlt | hge
  · exact le_trans (roundDiv_le n₁ d₁) (le_trans hlt (roundDiv_ge n₂ d₂))
  · have hqe : n₁ / d₁ = n₂ / d₂ := le_antisymm hq hge
    have hr : n₁ % d₁ * d₂ ≤ n₂ % d₂ * d₁ := by
      have x₁ : n₁ * d₂ = d₁ * d₂ * (n₂ / d₂) + n₁ % d₁ * d₂ := by
        calc n₁ * d₂ = (d₁ * (n₁ / d₁) + n₁ % d₁) * d₂ := by rw [e₁]
          _ = _ := by rw [hqe]; ring
      have x₂ : n₂ * d₁ = d₁ * d₂ * (n₂ / d₂) + n₂ % d₂ * d₁ := by
        calc n₂ * d₁ = (d₂ * (n₂ / d₂) + n₂ % d₂) * d₁ := by rw [e₂]
          _ = _ := by ring
      omega
    unfold roundDiv
    rw [hqe]
    by_cases c : d₁ < 2 * (n₁ % d₁) ∨ (2 * (n₁ % d₁) = d₁ ∧ (n₂ / d₂) % 2 = 1)
    · have c' : d₂ < 2 * (n₂ % d₂) ∨ (2 * (n₂ % d₂) = d₂ ∧ (n₂ / d₂) % 2 = 1) := by
        rcases c with c | ⟨c, codd⟩
        · left
          have : d₁ * d₂ < 2 * (n₂ % d₂) * d₁ := by nlinarith
          nlinarith
        · have : d₁ * d₂ ≤ 2 * (n₂ % d₂) * d₁ := by nlinarith
          have : d₂ ≤ 2 * (n₂ % d₂) := by nlinarith
          rcases Nat.lt_or_ge d₂ (2 * (n₂ % d₂)) with u | u
          · exact .inl u
          · exact .inr ⟨le_antisymm u this, codd⟩
      rw [if_pos c, if_pos c']
    · rw [if_neg c]; split <;> omega

/-- `roundDiv` in full: no integer is nearer to `n / D`, and on a tie the result is even. -/
theorem roundDiv_nearest (n D : Nat) (hD : 0 < D) (k : Nat) :
    |(roundDiv n D : Int) * D - n| ≤ |(k : Int) * D - n| ∧
      (|(roundDiv n D : Int) * D - n| = |(k : Int) * D - n| → k = roundDiv n D ∨ roundDiv n D % 2 = 0) := by
  have e := Nat.div_add_mod n D
  have l := Nat.mod_lt n hD
  set q := n / D with hq
  set r := n % D with hr
  have hn : (n : Int) = D * q + r := by exact_mod_cast e.symm
  have hrl : (r : Int) < D := by exact_mod_cast l
  have hr0 : (0 : Int) ≤ r := by positivity
  have key : (roundDiv n D = q ∧ 2 * r ≤ D ∧ (2 * r = D → q % 2 = 0)) ∨
      (roundDiv n D = q + 1 ∧ D ≤ 2 * r ∧ (2 * r = D → q % 2 = 1)) := by
    unfold roundDiv; split <;> rename_i h <;> omega
  rw [hn]
  have lo : (k : Int) ≤ q → |(k : Int) * D - (D * q + r)| = (q - k) * D + r := by
    intro h
    rw [abs_of_nonpos (by nlinarith)]; ring
  have hi : (q : Int) + 1 ≤ k → |(k : Int) * D - (D * q + r)| = (k - q) * D - r := by
    intro h
    rw [abs_of_nonneg (by nlinarith)]; ring
  rcases key with ⟨h1, h2, h3⟩ | ⟨h1, h2, h3⟩
  · rw [h1]
    have : |(q : Int) * D - (D * q + r)| = r := by rw [abs_of_nonpos (by nlinarith)]; ring
    rw [this]
    have h2' : 2 * (r : Int) ≤ D := by exact_mod_cast h2
    rcases le_or_gt (k : Int) q with hk | hk
    · rw [lo hk]
      refine ⟨by nlinarith, fun he => ?_⟩
      left
      have : ((q : Int) - k) * D = 0 := by linarith
      rcases mul_eq_zero.1 this with h | h
      · omega
      · omega
    · rw [hi (by omega)]
      have hk1 : (1 : Int) ≤ k - q := by omega
      refine ⟨by nlinarith, fun he => ?_⟩
      right; apply h3
      have : (k - q : Int) * D = 2 * r := by linarith
      have : (D : Int) ≤ 2 * r := by nlinarith
      have : D ≤ 2 * r := by exact_mod_cast this
      omega
  · rw [h1]
    have : |((q + 1 : Nat) : Int) * D - (D * q + r)| = D - r := by
      push_cast; rw [abs_of_nonneg (by nlinarith)]; ring
    rw [this]
    have h2' : (D : Int) ≤ 2 * r := by exact_mod_cast h2
    rcases le_or_gt (k : Int) q with hk | hk
    · rw [lo hk]
      refine ⟨by nlinarith, fun he => ?_⟩
      right
      have a : (0 : Int) ≤ (q - k) * D := by apply mul_nonneg <;> omega
      have : 2 * (r : Int) ≤ D := by linarith
      have : 2 * r ≤ D := by exact_mod_cast this
      have := h3 (by omega); omega
    · rw [hi (by omega)]
      have hk1 : (1 : Int) ≤ k - q := by omega
      refine ⟨by nlinarith, fun he => ?_⟩
      left
      have : ((k : Int) - q - 1) * D = 0 := by linarith
      rcases mul_eq_zero.1 this with h | h
      · omega
      · omega

/-! ### The spacing -/

theorem spacing_mono {q₁ q₂ : Nat} (h : q₁ ≤ q₂) : spacing q₁ ≤ spacing q₂ := by
  have : Nat.log2 q₁ ≤ Nat.log2 q₂ := by
    rw [Nat.log2_eq_log_two, Nat.log2_eq_log_two]
    exact Nat.log_mono_right h
  unfold spacing; omega

/-- At its spacing a magnitude has at most 24 significant bits. -/
theorem lt_of_spacing (q : Nat) : q < 2 ^ 24 * 2 ^ spacing q := by
  have h : q < 2 ^ (Nat.log2 q + 1) := Nat.lt_log2_self
  have : 2 ^ (Nat.log2 q + 1) ≤ 2 ^ (24 + spacing q) :=
    Nat.pow_le_pow_right (by norm_num) (by unfold spacing; omega)
  rw [← pow_add]; exact lt_of_lt_of_le h this

/-- A spacing above one unit means a full 24-bit significand. -/
theorem ge_of_spacing_pos {q : Nat} (h : 0 < spacing q) : 2 ^ 23 * 2 ^ spacing q ≤ q := by
  have hq : q ≠ 0 := by rintro rfl; simp [spacing] at h
  have hl : 2 ^ Nat.log2 q ≤ q := Nat.log2_self_le hq
  have : 23 + spacing q = Nat.log2 q := by unfold spacing at h ⊢; omega
  rw [← pow_add, this]; exact hl

/-! ### Rounding to a magnitude -/

/-- The magnitude before the cut at infinity. -/
theorem roundMag_le_inf (n d : Nat) : roundMag n d ≤ infMag := Nat.min_le_left _ _

/-- Rounding to binary32 is monotone. -/
theorem roundMag_mono {n₁ d₁ n₂ d₂ : Nat} (h₁ : 0 < d₁) (h₂ : 0 < d₂) (h : n₁ * d₂ ≤ n₂ * d₁) :
    roundMag n₁ d₁ ≤ roundMag n₂ d₂ := by
  have hq : n₁ / d₁ ≤ n₂ / d₂ := by
    rw [Nat.le_div_iff_mul_le h₂]
    have a : n₁ / d₁ * d₁ ≤ n₁ := Nat.div_mul_le_self n₁ d₁
    exact Nat.le_of_mul_le_mul_right (le_trans (by nlinarith) h : n₁ / d₁ * d₂ * d₁ ≤ n₂ * d₁) h₁
  have ht := spacing_mono hq
  unfold roundMag
  refine min_le_min_left _ ?_
  have p₁ : 0 < d₁ * 2 ^ spacing (n₁ / d₁) := by positivity
  have p₂ : 0 < d₂ * 2 ^ spacing (n₂ / d₂) := by positivity
  rcases Nat.lt_or_ge (spacing (n₁ / d₁)) (spacing (n₂ / d₂)) with hlt | hge
  · have up : roundDiv n₁ (d₁ * 2 ^ spacing (n₁ / d₁)) ≤ 2 ^ 24 := by
      refine roundDiv_le_of_le p₁ ?_
      have a := lt_of_spacing (n₁ / d₁)
      have b : n₁ < (n₁ / d₁ + 1) * d₁ := by
        have := Nat.lt_div_mul_add h₁ (a := n₁); linarith
      nlinarith
    have lo : 2 ^ 23 ≤ roundDiv n₂ (d₂ * 2 ^ spacing (n₂ / d₂)) := by
      refine le_trans ?_ (roundDiv_ge _ _)
      rw [Nat.le_div_iff_mul_le p₂]
      have a := ge_of_spacing_pos (q := n₂ / d₂) (by omega)
      have b : n₂ / d₂ * d₂ ≤ n₂ := Nat.div_mul_le_self n₂ d₂
      nlinarith
    omega
  · have e : spacing (n₁ / d₁) = spacing (n₂ / d₂) := le_antisymm ht hge
    have : roundDiv n₁ (d₁ * 2 ^ spacing (n₁ / d₁)) ≤ roundDiv n₂ (d₂ * 2 ^ spacing (n₂ / d₂)) := by
      refine roundDiv_mono p₁ p₂ ?_
      rw [e]
      calc n₁ * (d₂ * 2 ^ spacing (n₂ / d₂)) = n₁ * d₂ * 2 ^ spacing (n₂ / d₂) := by ring
        _ ≤ n₂ * d₁ * 2 ^ spacing (n₂ / d₂) := Nat.mul_le_mul_right _ h
        _ = _ := by ring
    omega

/-! ### The fields of a packed word -/

theorem pack_toNat_pos {m : Nat} (h : m < 2 ^ 31) : (pack false m).toNat = m := by
  simp only [pack, Bool.false_eq_true, if_false, BitVec.toNat_ofNat]; omega

theorem pack_toNat_neg {m : Nat} (h : m < 2 ^ 31) : (pack true m).toNat = 2 ^ 31 + m := by
  simp only [pack, if_true, BitVec.toNat_ofNat]; omega

theorem expField_eq (v : Word) : expField v = v.toNat / 2 ^ 23 % 256 := by
  simp [expField, BitVec.extractLsb'_toNat, Nat.shiftRight_eq_div_pow]

theorem fracField_eq (v : Word) : fracField v = v.toNat % 2 ^ 23 := by
  simp [fracField, BitVec.extractLsb'_toNat]

theorem sign_eq (v : Word) : sign v = decide (2 ^ 31 ≤ v.toNat) := by
  have h := v.isLt
  rw [sign, BitVec.getLsbD, Nat.testBit_eq_decide_div_mod_eq]
  rw [decide_eq_decide]
  omega

/-- The magnitude bits of a word. -/
theorem expField_mag (v : Word) : expField v = v.toNat % 2 ^ 31 / 2 ^ 23 := by
  rw [expField_eq]; omega

theorem fracField_mag (v : Word) : fracField v = v.toNat % 2 ^ 31 % 2 ^ 23 := by
  rw [fracField_eq]; omega

theorem isNaN_iff (v : Word) : isNaN v = true ↔ infMag < v.toNat % 2 ^ 31 := by
  simp only [isNaN, Bool.and_eq_true, beq_iff_eq, bne_iff_ne, expField_mag, fracField_mag, infMag]
  omega

theorem isInf_iff (v : Word) : isInf v = true ↔ v.toNat % 2 ^ 31 = infMag := by
  simp only [isInf, Bool.and_eq_true, beq_iff_eq, expField_mag, fracField_mag, infMag]
  omega

theorem isFinite_iff (v : Word) : isFinite v = true ↔ v.toNat % 2 ^ 31 < infMag := by
  simp only [isFinite, bne_iff_ne, expField_mag, infMag, ne_eq]
  omega

theorem isZero_iff (v : Word) : isZero v = true ↔ v.toNat % 2 ^ 31 = 0 := by
  simp only [isZero, Bool.and_eq_true, beq_iff_eq, expField_mag, fracField_mag]
  omega

/-! ### Magnitudes in units -/

/-- The units of 31 magnitude bits. -/
def unitsOf (m : Nat) : Nat := if m / 2 ^ 23 = 0 then m % 2 ^ 23 else (m % 2 ^ 23 + 2 ^ 23) * 2 ^ (m / 2 ^ 23 - 1)

theorem units_eq (v : Word) : units v = unitsOf (v.toNat % 2 ^ 31) := by
  unfold units unitsOf; rw [expField_mag, fracField_mag]

/-- Rounding is exact on the magnitudes of binary32, infinity's 2^277 included. -/
theorem roundMag_unitsOf {m k : Nat} (hm : m ≤ infMag) (hk : 0 < k) : roundMag (unitsOf m * k) k = m := by
  have hdiv : unitsOf m * k / k = unitsOf m := Nat.mul_div_cancel _ hk
  unfold roundMag
  rw [hdiv]
  by_cases he : m / 2 ^ 23 = 0
  · have hu : unitsOf m = m := by
      unfold unitsOf; rw [if_pos he]; omega
    have hs : spacing m = 0 := by
      rcases Nat.eq_zero_or_pos m with rfl | hpos
      · simp [spacing]
      · have hl : Nat.log2 m < 23 := (Nat.log2_lt (by omega)).2 (by omega)
        unfold spacing; omega
    rw [hu, hs, pow_zero, Nat.mul_one, roundDiv_mul m k hk]
    simp only [Nat.zero_mul, Nat.zero_add]
    exact Nat.min_eq_right hm
  · have hu : unitsOf m = (m % 2 ^ 23 + 2 ^ 23) * 2 ^ (m / 2 ^ 23 - 1) := by
      unfold unitsOf; rw [if_neg he]
    have hlog : Nat.log2 (unitsOf m) = 23 + (m / 2 ^ 23 - 1) := by
      rw [Nat.log2_eq_iff (by rw [hu]; positivity), hu]
      constructor
      · rw [pow_add]; exact Nat.mul_le_mul_right _ (by omega)
      · have : m % 2 ^ 23 + 2 ^ 23 < 2 ^ 24 := by omega
        calc (m % 2 ^ 23 + 2 ^ 23) * 2 ^ (m / 2 ^ 23 - 1) < 2 ^ 24 * 2 ^ (m / 2 ^ 23 - 1) :=
              Nat.mul_lt_mul_of_pos_right this (by positivity)
          _ = 2 ^ (23 + (m / 2 ^ 23 - 1) + 1) := by rw [← pow_add]; congr 1; omega
    have hs : spacing (unitsOf m) = m / 2 ^ 23 - 1 := by unfold spacing; omega
    rw [hs]
    have : unitsOf m * k = (m % 2 ^ 23 + 2 ^ 23) * (k * 2 ^ (m / 2 ^ 23 - 1)) := by rw [hu]; ring
    rw [this, roundDiv_mul _ _ (by positivity)]
    rw [Nat.min_eq_right]
    · omega
    · unfold infMag at hm ⊢; omega

/-- The units of a significand added to a spacing's exponent at bit 23, a carry out of the significand included. -/
theorem unitsOf_sum {t R : Nat} (hR : R ≤ 2^24) (h : t = 0 ∨ 2^23 ≤ R) : unitsOf (t * 2^23 + R) = R * 2^t := by
  unfold unitsOf
  rcases Nat.lt_or_ge R (2^23) with h1 | h1
  · have : t = 0 := by omega
    subst this
    rw [if_pos (by omega)]; omega
  · rcases Nat.lt_or_ge R (2^24) with h2 | h2
    · have e1 : (t * 2^23 + R) / 2^23 = t + 1 := by omega
      have e2 : (t * 2^23 + R) % 2^23 + 2^23 = R := by omega
      rw [e1, e2, if_neg (by omega)]; rfl
    · have : R = 2^24 := by omega
      subst this
      have e1 : (t * 2^23 + 2^24) / 2^23 = t + 2 := by omega
      have e2 : (t * 2^23 + 2^24) % 2^23 = 0 := by omega
      rw [e1, e2, if_neg (by omega)]
      simp only [show t + 2 - 1 = t + 1 by omega]
      rw [pow_succ]; ring

/-- A larger magnitude has more units. -/
theorem unitsOf_le_iff {m₁ m₂ : Nat} (h₁ : m₁ ≤ infMag) (h₂ : m₂ ≤ infMag) : unitsOf m₁ ≤ unitsOf m₂ ↔ m₁ ≤ m₂ := by
  have key : ∀ {a b : Nat}, a ≤ infMag → b ≤ infMag → unitsOf a ≤ unitsOf b → a ≤ b := by
    intro a b ha hb h
    have := roundMag_mono (n₁ := unitsOf a * 1) (d₁ := 1) (n₂ := unitsOf b * 1) (d₂ := 1) one_pos one_pos (by omega)
    rwa [roundMag_unitsOf ha one_pos, roundMag_unitsOf hb one_pos] at this
  refine ⟨key h₁ h₂, fun h => ?_⟩
  by_contra hc
  have := key h₂ h₁ (by omega)
  have : m₁ = m₂ := by omega
  subst this; exact hc le_rfl

/-- A lower bound that is a binary32 magnitude survives rounding. -/
theorem le_roundMag {m n d : Nat} (hm : m ≤ infMag) (hd : 0 < d) (h : unitsOf m * d ≤ n) : m ≤ roundMag n d := by
  have := roundMag_mono (n₁ := unitsOf m * d) (d₁ := d) hd hd (Nat.mul_le_mul_right d h)
  rwa [roundMag_unitsOf hm hd] at this

/-- An upper bound that is a binary32 magnitude survives rounding. -/
theorem roundMag_le {m n d : Nat} (hm : m ≤ infMag) (hd : 0 < d) (h : n ≤ unitsOf m * d) : roundMag n d ≤ m := by
  have := roundMag_mono (n₂ := unitsOf m * d) (d₂ := d) hd hd (Nat.mul_le_mul_right d h)
  rwa [roundMag_unitsOf hm hd] at this

/-- What is finite is no NaN and no infinity. -/
theorem finite_no_special {a : Word} (ha : isFinite a = true) : isNaN a = false ∧ isInf a = false := by
  rw [isFinite_iff] at ha
  constructor
  · rw [← Bool.not_eq_true, isNaN_iff]; omega
  · rw [← Bool.not_eq_true, isInf_iff]; omega

/-- No NaN and no infinity among the operands: a product is the rounded product. -/
theorem fmul_finite {a b : Word} (ha : isFinite a = true) (hb : isFinite b = true) :
    fmul a b = pack (sign a != sign b) (roundMag (units a * units b) unitsPerOne) := by
  simp [fmul, finite_no_special ha, finite_no_special hb]

/-- No NaN and no infinity among the operands, and a divisor that is no zero: a quotient is the rounded quotient. -/
theorem fdiv_finite {a b : Word} (ha : isFinite a = true) (hb : isFinite b = true) (hz : isZero b = false) :
    fdiv a b = pack (sign a != sign b) (roundMag (units a * unitsPerOne) (units b)) := by
  simp [fdiv, finite_no_special ha, finite_no_special hb, hz]

/-- No NaN and no infinity among the operands: a sum is the rounded sum, an exact zero apart. -/
theorem fadd_finite {a b : Word} (ha : isFinite a = true) (hb : isFinite b = true) :
    fadd a b = if value a + value b = 0 then pack (sign a && sign b) 0
      else pack (decide (value a + value b < 0)) (roundMag (value a + value b).natAbs 1) := by
  simp [fadd, finite_no_special ha, finite_no_special hb]

/-- No NaN among the operands: a difference is the sum with the other sign. -/
theorem fsub_finite {a b : Word} (ha : isFinite a = true) (hb : isFinite b = true) :
    fsub a b = fadd a (negate b) := by
  simp [fsub, finite_no_special ha, finite_no_special hb]

theorem negate_toNat (b : Word) :
    (negate b).toNat = if 2^31 ≤ b.toNat then b.toNat - 2^31 else b.toNat + 2^31 := by
  have hb := b.isLt
  have h1 : (negate b).toNat = b.toNat ^^^ 2^31 := rfl
  have h2 : (b.toNat ^^^ 2^31) % 2^31 = b.toNat % 2^31 := by rw [Nat.xor_mod_two_pow]; simp
  have h3 : (b.toNat ^^^ 2^31) / 2^31 = b.toNat / 2^31 ^^^ 1 := by rw [Nat.xor_div_two_pow]; rfl
  have h4 : b.toNat / 2^31 = 0 ∨ b.toNat / 2^31 = 1 := by omega
  rw [h1]
  generalize b.toNat ^^^ 2^31 = X at *
  rcases h4 with h | h <;> rw [h] at h3 <;> norm_num at h3 <;> split <;> omega

/-- The other sign, and the same magnitude. -/
theorem negate_spec (b : Word) :
    sign (negate b) = !sign b ∧ isFinite (negate b) = isFinite b ∧ units (negate b) = units b ∧
      value (negate b) = -value b := by
  have hb := b.isLt
  have hm : (negate b).toNat % 2^31 = b.toNat % 2^31 := by rw [negate_toNat]; split <;> omega
  have hs : sign (negate b) = !sign b := by
    rw [sign_eq, sign_eq, negate_toNat]
    by_cases h : 2^31 ≤ b.toNat
    · rw [if_pos h, decide_eq_true h, decide_eq_false (by omega)]; rfl
    · rw [if_neg h, decide_eq_false h, decide_eq_true (by omega)]; rfl
  have hu : units (negate b) = units b := by rw [units_eq, units_eq, hm]
  refine ⟨hs, by rw [Bool.eq_iff_iff, isFinite_iff, isFinite_iff, hm], hu, ?_⟩
  unfold value; rw [hs, hu]; cases sign b <;> simp

/-! ### Comparisons and quotients by patterns -/

/-- The signed value of a word. -/
theorem value_eq (v : Word) :
    value v =
      if 2^31 ≤ v.toNat then -(unitsOf (v.toNat % 2^31) : Int) else (unitsOf (v.toNat % 2^31) : Int) := by
  unfold value; rw [sign_eq, units_eq]; simp

/-- A magnitude that is not zero has units. -/
theorem unitsOf_pos {m} (h : 0 < m) (h2 : m ≤ infMag) : 0 < unitsOf m := by
  by_contra hc
  have : unitsOf m ≤ unitsOf 0 := by simp [unitsOf] ; simp [unitsOf] at hc; omega
  rw [unitsOf_le_iff h2 (by simp)] at this; omega

/-- What is no NaN. -/
theorem isNaN_eq_false_iff (v : Word) : isNaN v = false ↔ v.toNat % 2^31 ≤ infMag := by
  rw [← Bool.not_eq_true, isNaN_iff]; omega

/-- A word below a positive one, by the patterns. -/
theorem lt_pos_iff {v c : Word} (hv : isNaN v = false) (hc : c.toNat ≤ infMag) (hc0 : 0 < c.toNat) :
   lt v c = true ↔ (2^31 ≤ v.toNat ∨ v.toNat < c.toNat) := by
  have hcN : isNaN c = false := by rw [isNaN_eq_false_iff]; unfold infMag at *; omega
  rw [isNaN_eq_false_iff] at hv
  have hcm : c.toNat % 2^31 = c.toNat := by unfold infMag at hc; omega
  have hcs : ¬ 2^31 ≤ c.toNat := by unfold infMag at hc; omega
  simp only [lt, hcN, (isNaN_eq_false_iff v).2 hv, Bool.not_false, Bool.true_and, decide_eq_true_eq]
  rw [value_eq, value_eq c, if_neg hcs, hcm]
  have hp := unitsOf_pos hc0 hc
  split <;> rename_i h
  · constructor
    · intro _; exact .inl h
    · intro _; omega
  · have hvm : v.toNat % 2^31 = v.toNat := by omega
    have := unitsOf_le_iff hc (hvm ▸ hv)
    rw [hvm]; omega

/-- A word above a positive one, by the patterns. -/
theorem pos_lt_iff {v c : Word} (hv : isNaN v = false) (hc : c.toNat ≤ infMag) (hc0 : 0 < c.toNat) :
   lt c v = true ↔ (v.toNat < 2^31 ∧ c.toNat < v.toNat) := by
  have hcN : isNaN c = false := by rw [isNaN_eq_false_iff]; unfold infMag at *; omega
  rw [isNaN_eq_false_iff] at hv
  have hcm : c.toNat % 2^31 = c.toNat := by unfold infMag at hc; omega
  have hcs : ¬ 2^31 ≤ c.toNat := by unfold infMag at hc; omega
  simp only [lt, hcN, (isNaN_eq_false_iff v).2 hv, Bool.not_false, Bool.true_and, decide_eq_true_eq]
  rw [value_eq, value_eq v, if_neg hcs, hcm]
  have hp := unitsOf_pos hc0 hc
  split <;> rename_i h
  · omega
  · have hvm : v.toNat % 2^31 = v.toNat := by omega
    have := unitsOf_le_iff (hvm ▸ hv) hc
    rw [hvm]; omega

/-- At most a positive one: not above it. -/
theorem le_iff_not_gt {v c : Word} (hv : isNaN v = false) (hc : c.toNat ≤ infMag) (hc0 : 0 < c.toNat) :
   le v c = true ↔ ¬ lt c v = true := by
  have hcN : isNaN c = false := by rw [isNaN_eq_false_iff]; unfold infMag at *; omega
  simp [le, lt, hv, hcN]

/-- At least a positive one: not below it. -/
theorem ge_iff_not_lt {v c : Word} (hv : isNaN v = false) (hc : c.toNat ≤ infMag) (hc0 : 0 < c.toNat) :
   le c v = true ↔ ¬ lt v c = true := by
  have hcN : isNaN c = false := by rw [isNaN_eq_false_iff]; unfold infMag at *; omega
  simp [le, lt, hv, hcN]

/-- Two signs that are both plus agree. -/
theorem sign_bne_of_pos {a b : Word} (ha : a.toNat < 2^31) (hb : b.toNat < 2^31) : (sign a != sign b) = false := by
  rw [sign_eq, sign_eq]; simp; omega

/-- The pattern of a quotient of positive finite values. -/
theorem fdiv_toNat {a b : Word} (ha : a.toNat < infMag) (hb : b.toNat < infMag) (hb0 : 0 < b.toNat) :
   (fdiv a b).toNat = roundMag (unitsOf a.toNat * unitsPerOne) (unitsOf b.toNat) := by
  unfold infMag at ha hb
  rw [fdiv_finite (by rw [isFinite_iff, infMag]; omega) (by rw [isFinite_iff, infMag]; omega)
    (by rw [← Bool.not_eq_true, isZero_iff]; omega)]
  rw [sign_bne_of_pos (by omega) (by omega), pack_toNat_pos, units_eq, units_eq,
    Nat.mod_eq_of_lt (by omega : a.toNat < 2^31), Nat.mod_eq_of_lt (by omega : b.toNat < 2^31)]
  have := roundMag_le_inf (units a * unitsPerOne) (units b); unfold infMag at this; omega

/-- The pattern of a product of finite values without a sign. -/
theorem fmul_toNat {a b : Word} (ha : a.toNat < infMag) (hb : b.toNat < infMag) :
   (fmul a b).toNat = roundMag (unitsOf a.toNat * unitsOf b.toNat) unitsPerOne := by
  unfold infMag at ha hb
  rw [fmul_finite (by rw [isFinite_iff, infMag]; omega) (by rw [isFinite_iff, infMag]; omega)]
  rw [sign_bne_of_pos (by omega) (by omega), pack_toNat_pos, units_eq, units_eq,
    Nat.mod_eq_of_lt (by omega : a.toNat < 2^31), Nat.mod_eq_of_lt (by omega : b.toNat < 2^31)]
  have := roundMag_le_inf (units a * units b) unitsPerOne; unfold infMag at this; omega

/-- Division is monotone on the patterns of positive finite values. -/
theorem fdiv_toNat_mono {a a' b b' : Word} (ha' : a'.toNat < infMag) (hb : b.toNat < infMag)
    (hb0' : 0 < b'.toNat) (h1 : a.toNat ≤ a'.toNat) (h2 : b'.toNat ≤ b.toNat) :
   (fdiv a b).toNat ≤ (fdiv a' b').toNat := by
  rw [fdiv_toNat (by omega) hb (by omega), fdiv_toNat ha' (by omega) hb0']
  have hi : infMag = 0x7F800000 := rfl
  refine roundMag_mono (unitsOf_pos (by omega) (by omega)) (unitsOf_pos hb0' (by omega)) ?_
  have x1 := (unitsOf_le_iff (by omega) (by omega)).2 h1
  have x2 := (unitsOf_le_iff (by omega) (by omega)).2 h2
  calc unitsOf a.toNat * unitsPerOne * unitsOf b'.toNat ≤ unitsOf a'.toNat * unitsPerOne * unitsOf b.toNat := by gcongr

/-- Among values without a sign `!=f` is difference of patterns. -/
theorem fne_iff_ne {a b : Word} (ha : a.toNat ≤ infMag) (hb : b.toNat ≤ infMag) : fne a b = true ↔ a ≠ b := by
  have hi : infMag = 0x7F800000 := rfl
  have na : isNaN a = false := by rw [isNaN_eq_false_iff]; omega
  have nb : isNaN b = false := by rw [isNaN_eq_false_iff]; omega
  simp only [fne, feq, na, nb, Bool.not_false, Bool.true_and, Bool.not_eq_true', decide_eq_false_iff_not]
  rw [value_eq, value_eq, if_neg (by omega), if_neg (by omega),
    Nat.mod_eq_of_lt (by omega : a.toNat < 2^31), Nat.mod_eq_of_lt (by omega : b.toNat < 2^31)]
  have hinj : a ≠ b ↔ ¬ a.toNat = b.toNat := by rw [BitVec.toNat_inj]
  rw [hinj]
  have i1 := unitsOf_le_iff ha hb
  have i2 := unitsOf_le_iff hb ha
  omega

end Sys2Proof.Machine.F32
end

