-- ==== Sys2Proof/Laws/State.lean ====
section
/-! SUPPORT. One lemma per field of State per named update, true by rfl, so that no later proof unfolds a record
update. -/

namespace Sys2Proof.Machine

/-! ### `raiseFault` -/

@[simp] theorem raiseFault_sampleRate (c : Cause) (s : State) : (raiseFault c s).sampleRate = s.sampleRate := rfl
@[simp] theorem raiseFault_freq (c : Cause) (s : State) : (raiseFault c s).freq = s.freq := rfl
@[simp] theorem raiseFault_depth (c : Cause) (s : State) : (raiseFault c s).depth = s.depth := rfl
@[simp] theorem raiseFault_wave (c : Cause) (s : State) : (raiseFault c s).wave = s.wave := rfl
@[simp] theorem raiseFault_samples (c : Cause) (s : State) : (raiseFault c s).samples = s.samples := rfl
@[simp] theorem raiseFault_curScale (c : Cause) (s : State) : (raiseFault c s).curScale = s.curScale := rfl
@[simp] theorem raiseFault_pendScale (c : Cause) (s : State) : (raiseFault c s).pendScale = s.pendScale := rfl
@[simp] theorem raiseFault_latDepth (c : Cause) (s : State) : (raiseFault c s).latDepth = s.latDepth := rfl
@[simp] theorem raiseFault_latSel (c : Cause) (s : State) : (raiseFault c s).latSel = s.latSel := rfl
@[simp] theorem raiseFault_remain (c : Cause) (s : State) : (raiseFault c s).remain = s.remain := rfl
@[simp] theorem raiseFault_cfg (c : Cause) (s : State) : (raiseFault c s).cfg = s.cfg := rfl
@[simp] theorem raiseFault_fault (c : Cause) (s : State) : (raiseFault c s).fault = true := rfl
@[simp] theorem raiseFault_cause (c : Cause) (s : State) : (raiseFault c s).cause = c := rfl
@[simp] theorem raiseFault_cmdDec (c : Cause) (s : State) : (raiseFault c s).cmdDec = s.cmdDec := rfl
@[simp] theorem raiseFault_parDec (c : Cause) (s : State) : (raiseFault c s).parDec = s.parDec := rfl
@[simp] theorem raiseFault_cmdWait (c : Cause) (s : State) : (raiseFault c s).cmdWait = s.cmdWait := rfl
@[simp] theorem raiseFault_parWait (c : Cause) (s : State) : (raiseFault c s).parWait = s.parWait := rfl
@[simp] theorem raiseFault_out (c : Cause) (s : State) : (raiseFault c s).out = s.out := rfl
@[simp] theorem raiseFault_rdOut (c : Cause) (s : State) : (raiseFault c s).rdOut = s.rdOut := rfl
@[simp] theorem raiseFault_host (c : Cause) (s : State) : (raiseFault c s).host = s.host := rfl

/-! ### `powerOn` -/

@[simp] theorem powerOn_sampleRate (s : State) : (powerOn s).sampleRate = 0#32 := rfl
@[simp] theorem powerOn_freq (s : State) : (powerOn s).freq = 0x40000000#32 := rfl
@[simp] theorem powerOn_depth (s : State) : (powerOn s).depth = 0x42480000#32 := rfl
@[simp] theorem powerOn_wave (s : State) : (powerOn s).wave = 1#32 := rfl
@[simp] theorem powerOn_samples (s : State) : (powerOn s).samples = 0#32 := rfl
@[simp] theorem powerOn_curScale (s : State) : (powerOn s).curScale = 0#32 := rfl
@[simp] theorem powerOn_pendScale (s : State) : (powerOn s).pendScale = 0#32 := rfl
@[simp] theorem powerOn_latDepth (s : State) : (powerOn s).latDepth = 0#32 := rfl
@[simp] theorem powerOn_latSel (s : State) : (powerOn s).latSel = .sine := rfl
@[simp] theorem powerOn_remain (s : State) : (powerOn s).remain = 0#24 := rfl
@[simp] theorem powerOn_cfg (s : State) : (powerOn s).cfg = false := rfl
@[simp] theorem powerOn_fault (s : State) : (powerOn s).fault = false := rfl
@[simp] theorem powerOn_cause (s : State) : (powerOn s).cause = .none := rfl
@[simp] theorem powerOn_cmdDec (s : State) : (powerOn s).cmdDec = Option.none := rfl
@[simp] theorem powerOn_parDec (s : State) : (powerOn s).parDec = Option.none := rfl
@[simp] theorem powerOn_cmdWait (s : State) : (powerOn s).cmdWait = [] := rfl
@[simp] theorem powerOn_parWait (s : State) : (powerOn s).parWait = [] := rfl
@[simp] theorem powerOn_out (s : State) : (powerOn s).out = s.out := rfl
@[simp] theorem powerOn_rdOut (s : State) : (powerOn s).rdOut = s.rdOut := rfl
@[simp] theorem powerOn_host (s : State) : (powerOn s).host = s.host := rfl

/-! ### `emit` -/

@[simp] theorem emit_sampleRate (v : Word) (s : State) : (emit v s).sampleRate = s.sampleRate := rfl
@[simp] theorem emit_freq (v : Word) (s : State) : (emit v s).freq = s.freq := rfl
@[simp] theorem emit_depth (v : Word) (s : State) : (emit v s).depth = s.depth := rfl
@[simp] theorem emit_wave (v : Word) (s : State) : (emit v s).wave = s.wave := rfl
@[simp] theorem emit_samples (v : Word) (s : State) : (emit v s).samples = s.samples := rfl
@[simp] theorem emit_curScale (v : Word) (s : State) : (emit v s).curScale = s.curScale := rfl
@[simp] theorem emit_pendScale (v : Word) (s : State) : (emit v s).pendScale = s.pendScale := rfl
@[simp] theorem emit_latDepth (v : Word) (s : State) : (emit v s).latDepth = s.latDepth := rfl
@[simp] theorem emit_latSel (v : Word) (s : State) : (emit v s).latSel = s.latSel := rfl
@[simp] theorem emit_remain (v : Word) (s : State) : (emit v s).remain = s.remain := rfl
@[simp] theorem emit_cfg (v : Word) (s : State) : (emit v s).cfg = s.cfg := rfl
@[simp] theorem emit_fault (v : Word) (s : State) : (emit v s).fault = s.fault := rfl
@[simp] theorem emit_cause (v : Word) (s : State) : (emit v s).cause = s.cause := rfl
@[simp] theorem emit_cmdDec (v : Word) (s : State) : (emit v s).cmdDec = s.cmdDec := rfl
@[simp] theorem emit_parDec (v : Word) (s : State) : (emit v s).parDec = s.parDec := rfl
@[simp] theorem emit_cmdWait (v : Word) (s : State) : (emit v s).cmdWait = s.cmdWait := rfl
@[simp] theorem emit_parWait (v : Word) (s : State) : (emit v s).parWait = s.parWait := rfl
@[simp] theorem emit_out (v : Word) (s : State) : (emit v s).out = s.out ++ [v] := rfl
@[simp] theorem emit_rdOut (v : Word) (s : State) : (emit v s).rdOut = s.rdOut := rfl
@[simp] theorem emit_host (v : Word) (s : State) : (emit v s).host = s.host := rfl

/-! ### `answer` -/

@[simp] theorem answer_sampleRate (v : Word) (s : State) : (answer v s).sampleRate = s.sampleRate := rfl
@[simp] theorem answer_freq (v : Word) (s : State) : (answer v s).freq = s.freq := rfl
@[simp] theorem answer_depth (v : Word) (s : State) : (answer v s).depth = s.depth := rfl
@[simp] theorem answer_wave (v : Word) (s : State) : (answer v s).wave = s.wave := rfl
@[simp] theorem answer_samples (v : Word) (s : State) : (answer v s).samples = s.samples := rfl
@[simp] theorem answer_curScale (v : Word) (s : State) : (answer v s).curScale = s.curScale := rfl
@[simp] theorem answer_pendScale (v : Word) (s : State) : (answer v s).pendScale = s.pendScale := rfl
@[simp] theorem answer_latDepth (v : Word) (s : State) : (answer v s).latDepth = s.latDepth := rfl
@[simp] theorem answer_latSel (v : Word) (s : State) : (answer v s).latSel = s.latSel := rfl
@[simp] theorem answer_remain (v : Word) (s : State) : (answer v s).remain = s.remain := rfl
@[simp] theorem answer_cfg (v : Word) (s : State) : (answer v s).cfg = s.cfg := rfl
@[simp] theorem answer_fault (v : Word) (s : State) : (answer v s).fault = s.fault := rfl
@[simp] theorem answer_cause (v : Word) (s : State) : (answer v s).cause = s.cause := rfl
@[simp] theorem answer_cmdDec (v : Word) (s : State) : (answer v s).cmdDec = s.cmdDec := rfl
@[simp] theorem answer_parDec (v : Word) (s : State) : (answer v s).parDec = s.parDec := rfl
@[simp] theorem answer_cmdWait (v : Word) (s : State) : (answer v s).cmdWait = s.cmdWait := rfl
@[simp] theorem answer_parWait (v : Word) (s : State) : (answer v s).parWait = s.parWait := rfl
@[simp] theorem answer_out (v : Word) (s : State) : (answer v s).out = s.out := rfl
@[simp] theorem answer_rdOut (v : Word) (s : State) : (answer v s).rdOut = s.rdOut ++ [v] := rfl
@[simp] theorem answer_host (v : Word) (s : State) : (answer v s).host = s.host := rfl

/-! ### `withHost` -/

@[simp] theorem withHost_sampleRate (moves : List HostMove) (s : State) : (withHost moves s).sampleRate = s.sampleRate := rfl
@[simp] theorem withHost_freq (moves : List HostMove) (s : State) : (withHost moves s).freq = s.freq := rfl
@[simp] theorem withHost_depth (moves : List HostMove) (s : State) : (withHost moves s).depth = s.depth := rfl
@[simp] theorem withHost_wave (moves : List HostMove) (s : State) : (withHost moves s).wave = s.wave := rfl
@[simp] theorem withHost_samples (moves : List HostMove) (s : State) : (withHost moves s).samples = s.samples := rfl
@[simp] theorem withHost_curScale (moves : List HostMove) (s : State) : (withHost moves s).curScale = s.curScale := rfl
@[simp] theorem withHost_pendScale (moves : List HostMove) (s : State) : (withHost moves s).pendScale = s.pendScale := rfl
@[simp] theorem withHost_latDepth (moves : List HostMove) (s : State) : (withHost moves s).latDepth = s.latDepth := rfl
@[simp] theorem withHost_latSel (moves : List HostMove) (s : State) : (withHost moves s).latSel = s.latSel := rfl
@[simp] theorem withHost_remain (moves : List HostMove) (s : State) : (withHost moves s).remain = s.remain := rfl
@[simp] theorem withHost_cfg (moves : List HostMove) (s : State) : (withHost moves s).cfg = s.cfg := rfl
@[simp] theorem withHost_fault (moves : List HostMove) (s : State) : (withHost moves s).fault = s.fault := rfl
@[simp] theorem withHost_cause (moves : List HostMove) (s : State) : (withHost moves s).cause = s.cause := rfl
@[simp] theorem withHost_cmdDec (moves : List HostMove) (s : State) : (withHost moves s).cmdDec = s.cmdDec := rfl
@[simp] theorem withHost_parDec (moves : List HostMove) (s : State) : (withHost moves s).parDec = s.parDec := rfl
@[simp] theorem withHost_cmdWait (moves : List HostMove) (s : State) : (withHost moves s).cmdWait = s.cmdWait := rfl
@[simp] theorem withHost_parWait (moves : List HostMove) (s : State) : (withHost moves s).parWait = s.parWait := rfl
@[simp] theorem withHost_out (moves : List HostMove) (s : State) : (withHost moves s).out = s.out := rfl
@[simp] theorem withHost_rdOut (moves : List HostMove) (s : State) : (withHost moves s).rdOut = s.rdOut := rfl
@[simp] theorem withHost_host (moves : List HostMove) (s : State) : (withHost moves s).host = moves := rfl

/-! ### `configure` -/

@[simp] theorem configure_sampleRate (rate : Word) (s : State) : (configure rate s).sampleRate = rate := rfl
@[simp] theorem configure_freq (rate : Word) (s : State) : (configure rate s).freq = s.freq := rfl
@[simp] theorem configure_depth (rate : Word) (s : State) : (configure rate s).depth = s.depth := rfl
@[simp] theorem configure_wave (rate : Word) (s : State) : (configure rate s).wave = s.wave := rfl
@[simp] theorem configure_samples (rate : Word) (s : State) : (configure rate s).samples = 0#32 := rfl
@[simp] theorem configure_curScale (rate : Word) (s : State) : (configure rate s).curScale = 0#32 := rfl
@[simp] theorem configure_pendScale (rate : Word) (s : State) : (configure rate s).pendScale = 0#32 := rfl
@[simp] theorem configure_latDepth (rate : Word) (s : State) : (configure rate s).latDepth = 0#32 := rfl
@[simp] theorem configure_latSel (rate : Word) (s : State) : (configure rate s).latSel = .sine := rfl
@[simp] theorem configure_remain (rate : Word) (s : State) : (configure rate s).remain = 0#24 := rfl
@[simp] theorem configure_cfg (rate : Word) (s : State) : (configure rate s).cfg = true := rfl
@[simp] theorem configure_fault (rate : Word) (s : State) : (configure rate s).fault = s.fault := rfl
@[simp] theorem configure_cause (rate : Word) (s : State) : (configure rate s).cause = s.cause := rfl
@[simp] theorem configure_cmdDec (rate : Word) (s : State) : (configure rate s).cmdDec = s.cmdDec := rfl
@[simp] theorem configure_parDec (rate : Word) (s : State) : (configure rate s).parDec = s.parDec := rfl
@[simp] theorem configure_cmdWait (rate : Word) (s : State) : (configure rate s).cmdWait = s.cmdWait := rfl
@[simp] theorem configure_parWait (rate : Word) (s : State) : (configure rate s).parWait = s.parWait := rfl
@[simp] theorem configure_out (rate : Word) (s : State) : (configure rate s).out = s.out := rfl
@[simp] theorem configure_rdOut (rate : Word) (s : State) : (configure rate s).rdOut = s.rdOut := rfl
@[simp] theorem configure_host (rate : Word) (s : State) : (configure rate s).host = s.host := rfl

/-! ### `clearPhase` -/

@[simp] theorem clearPhase_sampleRate (s : State) : (clearPhase s).sampleRate = s.sampleRate := rfl
@[simp] theorem clearPhase_freq (s : State) : (clearPhase s).freq = s.freq := rfl
@[simp] theorem clearPhase_depth (s : State) : (clearPhase s).depth = s.depth := rfl
@[simp] theorem clearPhase_wave (s : State) : (clearPhase s).wave = s.wave := rfl
@[simp] theorem clearPhase_samples (s : State) : (clearPhase s).samples = 0#32 := rfl
@[simp] theorem clearPhase_curScale (s : State) : (clearPhase s).curScale = 0#32 := rfl
@[simp] theorem clearPhase_pendScale (s : State) : (clearPhase s).pendScale = s.pendScale := rfl
@[simp] theorem clearPhase_latDepth (s : State) : (clearPhase s).latDepth = s.latDepth := rfl
@[simp] theorem clearPhase_latSel (s : State) : (clearPhase s).latSel = s.latSel := rfl
@[simp] theorem clearPhase_remain (s : State) : (clearPhase s).remain = s.remain := rfl
@[simp] theorem clearPhase_cfg (s : State) : (clearPhase s).cfg = s.cfg := rfl
@[simp] theorem clearPhase_fault (s : State) : (clearPhase s).fault = s.fault := rfl
@[simp] theorem clearPhase_cause (s : State) : (clearPhase s).cause = s.cause := rfl
@[simp] theorem clearPhase_cmdDec (s : State) : (clearPhase s).cmdDec = s.cmdDec := rfl
@[simp] theorem clearPhase_parDec (s : State) : (clearPhase s).parDec = s.parDec := rfl
@[simp] theorem clearPhase_cmdWait (s : State) : (clearPhase s).cmdWait = s.cmdWait := rfl
@[simp] theorem clearPhase_parWait (s : State) : (clearPhase s).parWait = s.parWait := rfl
@[simp] theorem clearPhase_out (s : State) : (clearPhase s).out = s.out := rfl
@[simp] theorem clearPhase_rdOut (s : State) : (clearPhase s).rdOut = s.rdOut := rfl
@[simp] theorem clearPhase_host (s : State) : (clearPhase s).host = s.host := rfl

/-! ### `latch` -/

@[simp] theorem latch_sampleRate (cnt : BitVec 24) (s : State) : (latch cnt s).sampleRate = s.sampleRate := rfl
@[simp] theorem latch_freq (cnt : BitVec 24) (s : State) : (latch cnt s).freq = s.freq := rfl
@[simp] theorem latch_depth (cnt : BitVec 24) (s : State) : (latch cnt s).depth = s.depth := rfl
@[simp] theorem latch_wave (cnt : BitVec 24) (s : State) : (latch cnt s).wave = s.wave := rfl
@[simp] theorem latch_samples (cnt : BitVec 24) (s : State) : (latch cnt s).samples = s.samples := rfl
@[simp] theorem latch_curScale (cnt : BitVec 24) (s : State) : (latch cnt s).curScale = s.curScale := rfl
@[simp] theorem latch_pendScale (cnt : BitVec 24) (s : State) : (latch cnt s).pendScale = requestedScale s := rfl
@[simp] theorem latch_latDepth (cnt : BitVec 24) (s : State) : (latch cnt s).latDepth = clampD s.depth := rfl
@[simp] theorem latch_latSel (cnt : BitVec 24) (s : State) : (latch cnt s).latSel = selectTable s.wave := rfl
@[simp] theorem latch_remain (cnt : BitVec 24) (s : State) : (latch cnt s).remain = cnt := rfl
@[simp] theorem latch_cfg (cnt : BitVec 24) (s : State) : (latch cnt s).cfg = s.cfg := rfl
@[simp] theorem latch_fault (cnt : BitVec 24) (s : State) : (latch cnt s).fault = s.fault := rfl
@[simp] theorem latch_cause (cnt : BitVec 24) (s : State) : (latch cnt s).cause = s.cause := rfl
@[simp] theorem latch_cmdDec (cnt : BitVec 24) (s : State) : (latch cnt s).cmdDec = s.cmdDec := rfl
@[simp] theorem latch_parDec (cnt : BitVec 24) (s : State) : (latch cnt s).parDec = s.parDec := rfl
@[simp] theorem latch_cmdWait (cnt : BitVec 24) (s : State) : (latch cnt s).cmdWait = s.cmdWait := rfl
@[simp] theorem latch_parWait (cnt : BitVec 24) (s : State) : (latch cnt s).parWait = s.parWait := rfl
@[simp] theorem latch_out (cnt : BitVec 24) (s : State) : (latch cnt s).out = s.out := rfl
@[simp] theorem latch_rdOut (cnt : BitVec 24) (s : State) : (latch cnt s).rdOut = s.rdOut := rfl
@[simp] theorem latch_host (cnt : BitVec 24) (s : State) : (latch cnt s).host = s.host := rfl

/-! ### `countSample` -/

@[simp] theorem countSample_sampleRate (s : State) : (countSample s).sampleRate = s.sampleRate := rfl
@[simp] theorem countSample_freq (s : State) : (countSample s).freq = s.freq := rfl
@[simp] theorem countSample_depth (s : State) : (countSample s).depth = s.depth := rfl
@[simp] theorem countSample_wave (s : State) : (countSample s).wave = s.wave := rfl
@[simp] theorem countSample_samples (s : State) : (countSample s).samples = s.samples + 1#32 := rfl
@[simp] theorem countSample_curScale (s : State) : (countSample s).curScale = s.curScale := rfl
@[simp] theorem countSample_pendScale (s : State) : (countSample s).pendScale = s.pendScale := rfl
@[simp] theorem countSample_latDepth (s : State) : (countSample s).latDepth = s.latDepth := rfl
@[simp] theorem countSample_latSel (s : State) : (countSample s).latSel = s.latSel := rfl
@[simp] theorem countSample_remain (s : State) : (countSample s).remain = s.remain - 1#24 := rfl
@[simp] theorem countSample_cfg (s : State) : (countSample s).cfg = s.cfg := rfl
@[simp] theorem countSample_fault (s : State) : (countSample s).fault = s.fault := rfl
@[simp] theorem countSample_cause (s : State) : (countSample s).cause = s.cause := rfl
@[simp] theorem countSample_cmdDec (s : State) : (countSample s).cmdDec = s.cmdDec := rfl
@[simp] theorem countSample_parDec (s : State) : (countSample s).parDec = s.parDec := rfl
@[simp] theorem countSample_cmdWait (s : State) : (countSample s).cmdWait = s.cmdWait := rfl
@[simp] theorem countSample_parWait (s : State) : (countSample s).parWait = s.parWait := rfl
@[simp] theorem countSample_out (s : State) : (countSample s).out = s.out := rfl
@[simp] theorem countSample_rdOut (s : State) : (countSample s).rdOut = s.rdOut := rfl
@[simp] theorem countSample_host (s : State) : (countSample s).host = s.host := rfl

/-! ### The updates of one port's field -/

@[simp] theorem setDecoder_sampleRate (p : Port) (op : Option DataOp) (s : State) : (setDecoder p op s).sampleRate = s.sampleRate := by
  cases p <;> rfl
@[simp] theorem setDecoder_freq (p : Port) (op : Option DataOp) (s : State) : (setDecoder p op s).freq = s.freq := by
  cases p <;> rfl
@[simp] theorem setDecoder_depth (p : Port) (op : Option DataOp) (s : State) : (setDecoder p op s).depth = s.depth := by
  cases p <;> rfl
@[simp] theorem setDecoder_wave (p : Port) (op : Option DataOp) (s : State) : (setDecoder p op s).wave = s.wave := by
  cases p <;> rfl
@[simp] theorem setDecoder_samples (p : Port) (op : Option DataOp) (s : State) : (setDecoder p op s).samples = s.samples := by
  cases p <;> rfl
@[simp] theorem setDecoder_curScale (p : Port) (op : Option DataOp) (s : State) : (setDecoder p op s).curScale = s.curScale := by
  cases p <;> rfl
@[simp] theorem setDecoder_pendScale (p : Port) (op : Option DataOp) (s : State) : (setDecoder p op s).pendScale = s.pendScale := by
  cases p <;> rfl
@[simp] theorem setDecoder_latDepth (p : Port) (op : Option DataOp) (s : State) : (setDecoder p op s).latDepth = s.latDepth := by
  cases p <;> rfl
@[simp] theorem setDecoder_latSel (p : Port) (op : Option DataOp) (s : State) : (setDecoder p op s).latSel = s.latSel := by
  cases p <;> rfl
@[simp] theorem setDecoder_remain (p : Port) (op : Option DataOp) (s : State) : (setDecoder p op s).remain = s.remain := by
  cases p <;> rfl
@[simp] theorem setDecoder_cfg (p : Port) (op : Option DataOp) (s : State) : (setDecoder p op s).cfg = s.cfg := by
  cases p <;> rfl
@[simp] theorem setDecoder_fault (p : Port) (op : Option DataOp) (s : State) : (setDecoder p op s).fault = s.fault := by
  cases p <;> rfl
@[simp] theorem setDecoder_cause (p : Port) (op : Option DataOp) (s : State) : (setDecoder p op s).cause = s.cause := by
  cases p <;> rfl
@[simp] theorem setDecoder_cmdWait (p : Port) (op : Option DataOp) (s : State) : (setDecoder p op s).cmdWait = s.cmdWait := by
  cases p <;> rfl
@[simp] theorem setDecoder_parWait (p : Port) (op : Option DataOp) (s : State) : (setDecoder p op s).parWait = s.parWait := by
  cases p <;> rfl
@[simp] theorem setDecoder_out (p : Port) (op : Option DataOp) (s : State) : (setDecoder p op s).out = s.out := by
  cases p <;> rfl
@[simp] theorem setDecoder_rdOut (p : Port) (op : Option DataOp) (s : State) : (setDecoder p op s).rdOut = s.rdOut := by
  cases p <;> rfl
@[simp] theorem setDecoder_host (p : Port) (op : Option DataOp) (s : State) : (setDecoder p op s).host = s.host := by
  cases p <;> rfl
@[simp] theorem holdWord_sampleRate (p : Port) (w : Word) (s : State) : (holdWord p w s).sampleRate = s.sampleRate := by
  cases p <;> rfl
@[simp] theorem holdWord_freq (p : Port) (w : Word) (s : State) : (holdWord p w s).freq = s.freq := by
  cases p <;> rfl
@[simp] theorem holdWord_depth (p : Port) (w : Word) (s : State) : (holdWord p w s).depth = s.depth := by
  cases p <;> rfl
@[simp] theorem holdWord_wave (p : Port) (w : Word) (s : State) : (holdWord p w s).wave = s.wave := by
  cases p <;> rfl
@[simp] theorem holdWord_samples (p : Port) (w : Word) (s : State) : (holdWord p w s).samples = s.samples := by
  cases p <;> rfl
@[simp] theorem holdWord_curScale (p : Port) (w : Word) (s : State) : (holdWord p w s).curScale = s.curScale := by
  cases p <;> rfl
@[simp] theorem holdWord_pendScale (p : Port) (w : Word) (s : State) : (holdWord p w s).pendScale = s.pendScale := by
  cases p <;> rfl
@[simp] theorem holdWord_latDepth (p : Port) (w : Word) (s : State) : (holdWord p w s).latDepth = s.latDepth := by
  cases p <;> rfl
@[simp] theorem holdWord_latSel (p : Port) (w : Word) (s : State) : (holdWord p w s).latSel = s.latSel := by
  cases p <;> rfl
@[simp] theorem holdWord_remain (p : Port) (w : Word) (s : State) : (holdWord p w s).remain = s.remain := by
  cases p <;> rfl
@[simp] theorem holdWord_cfg (p : Port) (w : Word) (s : State) : (holdWord p w s).cfg = s.cfg := by
  cases p <;> rfl
@[simp] theorem holdWord_fault (p : Port) (w : Word) (s : State) : (holdWord p w s).fault = s.fault := by
  cases p <;> rfl
@[simp] theorem holdWord_cause (p : Port) (w : Word) (s : State) : (holdWord p w s).cause = s.cause := by
  cases p <;> rfl
@[simp] theorem holdWord_cmdDec (p : Port) (w : Word) (s : State) : (holdWord p w s).cmdDec = s.cmdDec := by
  cases p <;> rfl
@[simp] theorem holdWord_parDec (p : Port) (w : Word) (s : State) : (holdWord p w s).parDec = s.parDec := by
  cases p <;> rfl
@[simp] theorem holdWord_out (p : Port) (w : Word) (s : State) : (holdWord p w s).out = s.out := by
  cases p <;> rfl
@[simp] theorem holdWord_rdOut (p : Port) (w : Word) (s : State) : (holdWord p w s).rdOut = s.rdOut := by
  cases p <;> rfl
@[simp] theorem holdWord_host (p : Port) (w : Word) (s : State) : (holdWord p w s).host = s.host := by
  cases p <;> rfl

@[simp] theorem setDecoder_decoder {p : Port} (h : p ≠ .rd) (op : Option DataOp) (s : State) :
    decoder p (setDecoder p op s) = op := by
  cases p <;> first | rfl | exact absurd rfl h

@[simp] theorem decoder_withHost (p : Port) (moves : List HostMove) (s : State) :
    decoder p (withHost moves s) = decoder p s := by
  cases p <;> rfl

end Sys2Proof.Machine
end

