-- ==== Sys2Proof/Laws/Ops.lean ====
section
/-! SUPPORT. What each shared operation can do, said once: the provers cite these instead of unfolding it. -/

namespace Sys2Proof.Machine

/-- Rule A: it fires, with both its writes, or nothing changes (42_process.md R105). -/
theorem resyncA_cases (idx : Nat) (s : State) :
    (pending s = true ∧ idx = 0 ∧ resyncA idx s = { s with curScale := s.pendScale, samples := 0#32 }) ∨
      (¬(pending s = true ∧ idx = 0) ∧ resyncA idx s = s) := by
  unfold resyncA
  by_cases h : pending s = true ∧ idx = 0
  · left; simp [h.1, h.2]
  · right; refine ⟨h, if_neg ?_⟩; simpa using h

/-- Rule B: it fires, with its one write, or nothing changes (42_process.md R108). -/
theorem resyncB_cases (idx : Nat) (s : State) :
    (Config.sampleLimit ≤ s.samples.toNat ∧ idx = 0 ∧ resyncB idx s = { s with samples := 0#32 }) ∨
      (¬(Config.sampleLimit ≤ s.samples.toNat ∧ idx = 0) ∧ resyncB idx s = s) := by
  unfold resyncB
  by_cases h : Config.sampleLimit ≤ s.samples.toNat ∧ idx = 0
  · left; simp [h.1, h.2]
  · right; refine ⟨h, if_neg ?_⟩; simpa using h

/-- Taking a command word: the four outcomes of R74, and the data word that is there or not (R73). -/
theorem takeCommand_cases (p : Port) (w : Word) (rest : List HostMove) (s : State) :
    (decodeHead p w = .illegalOpcode ∧ takeCommand p w rest s = .reject .illegalOpcode (withHost rest s)) ∨
    (decodeHead p w = .reservedBits ∧ takeCommand p w rest s = .reject .reservedBits (withHost rest s)) ∨
    (∃ i, decodeHead p w = .whole i ∧ takeCommand p w rest s = .instr i (withHost rest s)) ∨
    (∃ op d rest', decodeHead p w = .needsData op ∧ rest = .send p d :: rest' ∧
      takeCommand p w rest s = .instr (op.instr d) (withHost rest' s)) ∨
    (∃ op, decodeHead p w = .needsData op ∧ (∀ d rest', rest ≠ .send p d :: rest') ∧
      takeCommand p w rest s = .waiting (withHost rest (setDecoder p (some op) s))) := by
  unfold takeCommand
  cases h : decodeHead p w with
  | illegalOpcode => exact .inl ⟨rfl, rfl⟩
  | reservedBits => exact .inr (.inl ⟨rfl, rfl⟩)
  | whole i => exact .inr (.inr (.inl ⟨i, rfl, rfl⟩))
  | needsData op =>
    refine .inr (.inr (.inr ?_))
    match rest with
    | [] => exact .inr ⟨op, rfl, by simp, rfl⟩
    | .rst :: r => exact .inr ⟨op, rfl, by simp, rfl⟩
    | .send q d :: r =>
      by_cases hq : q = p
      · subst hq; exact .inl ⟨op, d, r, rfl, rfl, by simp⟩
      · refine .inr ⟨op, rfl, ?_, by simp [hq]⟩
        intro d' r' hc; injection hc with h₁ _; injection h₁ with h₂ _; exact hq h₂

/-- Taking a word from CMD or PAR: untaken in FAULTED, a sample, a data word, or a command word (10_state.md R42). -/
theorem takeWord_cases (p : Port) (w : Word) (rest : List HostMove) (s : State) :
    (s.fault = true ∧ takeWord p w rest s = .waiting (withHost rest (holdWord p w s))) ∨
    (s.fault = false ∧ p = .cmd ∧ s.remain ≠ 0#24 ∧ takeWord p w rest s = .sample w (withHost rest s)) ∨
    (∃ op, s.fault = false ∧ ¬(p = .cmd ∧ s.remain ≠ 0#24) ∧ decoder p s = some op ∧
      takeWord p w rest s = .instr (op.instr w) (withHost rest (setDecoder p Option.none s))) ∨
    (s.fault = false ∧ ¬(p = .cmd ∧ s.remain ≠ 0#24) ∧ decoder p s = Option.none ∧
      takeWord p w rest s = takeCommand p w rest s) := by
  unfold takeWord
  cases hf : s.fault with
  | true => exact .inl ⟨rfl, if_pos rfl⟩
  | false =>
    by_cases hs : p = .cmd ∧ s.remain ≠ 0#24
    · exact .inr (.inl ⟨rfl, hs.1, hs.2, by simp [hs.1, hs.2]⟩)
    · simp only [Bool.false_eq_true, if_false, if_neg hs]
      cases hd : decoder p s with
      | some op => exact .inr (.inr (.inl ⟨op, trivial, hs, rfl, rfl⟩))
      | none => exact .inr (.inr (.inr ⟨trivial, hs, rfl, rfl⟩))

/-- The host's next move, and the step it gives. -/
theorem step_cases (s : State) :
    (s.host = [] ∧ step s = .next s) ∨
    (∃ rest, s.host = .rst :: rest ∧ step s = .next (powerOn (withHost rest s))) ∨
    (∃ w rest, s.host = .send .rd w :: rest ∧ step s = exec (.rd (readAddress w)) (withHost rest s)) ∨
    (∃ p w rest, p ≠ .rd ∧ s.host = .send p w :: rest ∧ fetch s = takeWord p w rest s) := by
  have hstep : step s = match fetch s with
    | .idle => .next s
    | .rst t => .next (powerOn t)
    | .instr i t => exec i t
    | .sample x t => .next (sampleStep x t)
    | .reject c t => .next (raiseFault c t)
    | .waiting t => .next t := rfl
  unfold fetch at hstep ⊢
  match h : s.host with
  | [] => simp only [h] at hstep; exact .inl ⟨rfl, hstep⟩
  | .rst :: rest => simp only [h] at hstep; exact .inr (.inl ⟨rest, rfl, hstep⟩)
  | .send .rd w :: rest => simp only [h] at hstep; exact .inr (.inr (.inl ⟨w, rest, rfl, hstep⟩))
  | .send .cmd w :: rest => exact .inr (.inr (.inr ⟨.cmd, w, rest, by simp, rfl, rfl⟩))
  | .send .par w :: rest => exact .inr (.inr (.inr ⟨.par, w, rest, by simp, rfl, rfl⟩))

/-- The state each meaning answers. -/
def execResult (i : Instr) (s : State) : State :=
  match i with
  | .init d => if rateLegal d = true then configure d s else raiseFault .badSampleRate s
  | .reset => clearPhase s
  | .process cnt => if s.cfg = true then latch cnt s else raiseFault .notConfigured s
  | .processS _ => if s.cfg = true then s else raiseFault .notConfigured s
  | .setFreq d => { s with freq := d }
  | .setDepth d => { s with depth := d }
  | .setWave k => { s with wave := k }
  | .rd a => answer (readReg a s) s

/-- Every meaning answers a next state, the one named (60_exceptions.md R118, R122): no stop and no refusal. -/
theorem exec_eq (i : Instr) (s : State) : exec i s = .next (execResult i s) := by
  cases i <;> simp only [exec, execInit, execReset, execProcess, execProcessS, execSetFreq, execSetDepth, execSetWave,
    execRd, execResult] <;> split <;> rfl

end Sys2Proof.Machine
end

