-- ==== Sys2Proof/Laws/PerInstr.lean ====
section
/-! SUPPORT. A fact of every instruction, one lemma per constructor: the first word of its encoding says how many
words the whole command has (30_encoding.md R73), the samples of a PROCESS counted. -/

namespace Sys2Proof.Laws.WordCount

/-- A command word is as long as its command word says: its encoding, and the samples after it. -/
def Statement (i : Instr) : Prop :=
  i.legalOn .cmd = true →
    commandLength (encodeHead i) = (encode i).length + (match i with
      | .process cnt => cnt.toNat
      | .init _ => 0
      | .reset => 0
      | .processS _ => 0
      | .setFreq _ => 0
      | .setDepth _ => 0
      | .setWave _ => 0
      | .rd _ => 0)

theorem init (d : Word) : Statement (.init d) := by
  intro _; simp [commandLength, encodeHead, encode, encodeData]

theorem reset : Statement .reset := by
  intro _; simp [commandLength, encodeHead, encode, encodeData]

theorem process (cnt : BitVec 24) : Statement (.process cnt) := by
  intro _; simp [commandLength, encodeHead, encode, encodeData]

theorem processS (cnt : BitVec 24) : Statement (.processS cnt) := by
  intro _; simp [commandLength, encodeHead, encode, encodeData]

theorem setFreq (d : Word) : Statement (.setFreq d) := by
  intro _; simp [commandLength, encodeHead, encode, encodeData]

theorem setDepth (d : Word) : Statement (.setDepth d) := by
  intro _; simp [commandLength, encodeHead, encode, encodeData]

theorem setWave (k : Word) : Statement (.setWave k) := by
  intro _; simp [commandLength, encodeHead, encode, encodeData]

theorem rd (a : BitVec 4) : Statement (.rd a) := by
  intro h; simp [Instr.legalOn] at h

end Sys2Proof.Laws.WordCount
end

