-- ==== Sys2Proof/Laws/Rotation.lean ====
section
/-! SUPPORT. Points of the unit circle in fixed point, 60 bits after the point: what one rotation does and how far a run
of rotations can drift, said once. The provers compare the ROM with its formulas (21_wavetable_rom.md R64, R65) with
it. -/

namespace Sys2Proof.Laws.Rotation

/-- One, in fixed point. -/
def one : Int := 2 ^ 60

/-- The product of two fixed-point complex numbers, each part cut off. -/
def mul (z w : Int × Int) : Int × Int := ((z.1 * w.1 - z.2 * w.2) / one, (z.1 * w.2 + z.2 * w.1) / one)

/-- `z` rotated `n` times by `w`. -/
def rotate (w z : Int × Int) : Nat → Int × Int
  | 0 => z
  | n + 1 => mul (rotate w z n) w

/-- The complex number of a fixed-point pair. -/
noncomputable def point (z : Int × Int) : ℂ := ⟨(z.1 : ℝ) / 2 ^ 60, (z.2 : ℝ) / 2 ^ 60⟩

/-- The point of the unit circle at an angle. -/
noncomputable def cis (x : ℝ) : ℂ := Complex.exp (x * Complex.I)

theorem cis_norm (x : ℝ) : ‖cis x‖ = 1 := Complex.norm_exp_ofReal_mul_I x

theorem cis_pow (x : ℝ) (n : Nat) : cis x ^ n = cis (n * x) := by
  unfold cis; rw [← Complex.exp_nat_mul]; congr 1; push_cast; ring

theorem cis_mul (x y : ℝ) : cis x * cis y = cis (x + y) := by
  unfold cis; rw [← Complex.exp_add]; congr 1; push_cast; ring

theorem cis_eq (x : ℝ) : cis x = ⟨Real.cos x, Real.sin x⟩ := by
  unfold cis; apply Complex.ext <;> simp [Complex.exp_re, Complex.exp_im]

theorem point_one : point (one, 0) = 1 := by
  apply Complex.ext <;> simp [point, one]
  norm_num

/-- Cutting off one part of a product. -/
theorem floor_err (x : Int) : |((x / one : Int) : ℝ) / 2 ^ 60 - (x : ℝ) / 2 ^ 60 / 2 ^ 60| ≤ 1 / 2 ^ 60 := by
  have h1 := Int.emod_add_mul_ediv x one
  have h2 := Int.emod_nonneg x (b := one) (by unfold one; norm_num)
  have h3 := Int.emod_lt_of_pos x (b := one) (by unfold one; norm_num)
  have hq : (one : ℝ) = 2 ^ 60 := by unfold one; norm_num
  have h1' : ((x % one : Int) : ℝ) + 2 ^ 60 * ((x / one : Int) : ℝ) = (x : ℝ) := by rw [← hq]; exact_mod_cast h1
  have h2' : (0 : ℝ) ≤ ((x % one : Int) : ℝ) := by exact_mod_cast h2
  have h3' : ((x % one : Int) : ℝ) < 2 ^ 60 := by rw [← hq]; exact_mod_cast h3
  rw [← h1']
  generalize ((x % one : Int) : ℝ) = r at *
  generalize ((x / one : Int) : ℝ) = d at *
  have e : d / 2 ^ 60 - (r + 2 ^ 60 * d) / 2 ^ 60 / 2 ^ 60 = -(r / 2 ^ 60 / 2 ^ 60) := by ring
  have : r / 2 ^ 60 ≤ 1 := by rw [div_le_one (by positivity)]; exact h3'.le
  rw [e, abs_neg, abs_of_nonneg (by positivity)]
  gcongr

/-- One product is off by two units in the last place at most. -/
theorem mul_err (z w : Int × Int) : ‖point (mul z w) - point z * point w‖ ≤ 2 / 2 ^ 60 := by
  have e : point (mul z w) - point z * point w =
      ⟨((z.1 * w.1 - z.2 * w.2) / one : Int) / 2 ^ 60 - ((z.1 * w.1 - z.2 * w.2 : Int) : ℝ) / 2 ^ 60 / 2 ^ 60,
        ((z.1 * w.2 + z.2 * w.1) / one : Int) / 2 ^ 60 - ((z.1 * w.2 + z.2 * w.1 : Int) : ℝ) / 2 ^ 60 / 2 ^ 60⟩ := by
    apply Complex.ext
    · simp only [point, mul, Complex.sub_re, Complex.mul_re]; push_cast; ring
    · simp only [point, mul, Complex.sub_im, Complex.mul_im]; push_cast; ring
  rw [e]
  refine le_trans (Complex.norm_le_abs_re_add_abs_im _) ?_
  have := floor_err (z.1 * w.1 - z.2 * w.2)
  have := floor_err (z.1 * w.2 + z.2 * w.1)
  dsimp only
  linarith

/-- The drift of at most `N` rotations by `w`, which lies within `ε` of a point `ζ` of the unit circle, from `z`, which
lies within `δ` of a point `σ` of it: `δ`, and `μ` for each rotation. -/
theorem rotate_err {w z : Int × Int} {ζ σ : ℂ} {ε δ μ : ℝ} (N : Nat) (hζ : ‖ζ‖ = 1) (hσ : ‖σ‖ = 1)
    (hw : ‖point w - ζ‖ ≤ ε) (hz : ‖point z - σ‖ ≤ δ) (h0 : 0 ≤ μ) (hμ : (1 + δ + N * μ) * ε + 2 / 2 ^ 60 ≤ μ) :
    ∀ n ≤ N, ‖point (rotate w z n) - σ * ζ ^ n‖ ≤ δ + n * μ
  | 0, _ => by simpa [rotate] using hz
  | n + 1, h => by
    have ih := rotate_err N hζ hσ hw hz h0 hμ n (by omega)
    have hn : (n : ℝ) ≤ N := by exact_mod_cast (by omega : n ≤ N)
    have hp : ‖point (rotate w z n)‖ ≤ 1 + δ + N * μ := by
      have e : point (rotate w z n) = (point (rotate w z n) - σ * ζ ^ n) + σ * ζ ^ n := by ring
      rw [e]; refine le_trans (norm_add_le _ _) ?_
      rw [norm_mul, norm_pow, hζ, hσ, one_pow]
      have : (n : ℝ) * μ ≤ N * μ := by gcongr
      linarith
    have e : point (rotate w z (n + 1)) - σ * ζ ^ (n + 1) =
        (point (rotate w z (n + 1)) - point (rotate w z n) * point w) +
          point (rotate w z n) * (point w - ζ) + (point (rotate w z n) - σ * ζ ^ n) * ζ := by ring
    rw [e]
    refine le_trans (norm_add_le _ _) ?_
    refine le_trans (add_le_add_left (norm_add_le _ _) _) ?_
    rw [norm_mul, norm_mul, hζ, mul_one]
    have h1 : ‖point (rotate w z (n + 1)) - point (rotate w z n) * point w‖ ≤ 2 / 2 ^ 60 := mul_err (rotate w z n) w
    have h3 : ‖point (rotate w z n)‖ * ‖point w - ζ‖ ≤ (1 + δ + N * μ) * ε :=
      mul_le_mul hp hw (norm_nonneg _) (le_trans (norm_nonneg _) hp)
    push_cast
    linarith

end Sys2Proof.Laws.Rotation
end

