-- ==== Sys2Proof/Laws/Step.lean ====
section
/-! SUPPORT. What one step can do, said once: the provers cite `step_inv` instead of unfolding `step`. -/

namespace Sys2Proof.Machine

/-- A word on CMD or PAR is taken by `takeWord`. -/
theorem fetch_word {p : Port} {w rest s} (hp : p ≠ .rd) (h : s.host = .send p w :: rest) :
    fetch s = takeWord p w rest s := by
  cases p <;> first | exact absurd rfl hp | simp [fetch, h]

/-- Where a port expects a command word, the word is taken as one. -/
theorem fetch_command {p : Port} {w rest} {s : State} (he : expectsCommand p s) (h : s.host = .send p w :: rest) :
    fetch s = takeCommand p w rest s := by
  obtain ⟨hp, hf, hr, hd⟩ := he
  rw [fetch_word hp h]
  rcases takeWord_cases p w rest s with ⟨a, _⟩ | ⟨_, a, b, _⟩ | ⟨op, _, _, a, _⟩ | ⟨_, _, _, a⟩
  · simp [hf] at a
  · exact absurd (hr a) b
  · simp [hd] at a
  · exact a

/-- Where the next CMD word is a sample, a CMD word is one. -/
theorem step_sample {s : State} {x rest} (he : expectsSample s) (h : s.host = .send .cmd x :: rest) :
    step s = .next (sampleStep x (withHost rest s)) := by
  rw [step, fetch_word (by simp) h]
  simp [takeWord, he.1, he.2]

/-- In FAULTED a word on CMD or PAR is left on its port (60_exceptions.md R123). -/
theorem step_untaken {p : Port} {w rest} {s : State} (hp : p ≠ .rd) (hf : s.fault = true)
    (h : s.host = .send p w :: rest) :
    step s = .next (withHost rest (holdWord p w s)) := by
  rw [step, fetch_word hp h]; simp [takeWord, hf]

/-- All that one step can do, one constructor a case: `StepTo s t` says that a step of `s` may answer `t`, and why. -/
inductive StepTo (s : State) : State → Prop where
  /-- The host has nothing to do (60_exceptions.md R131). -/
  | idle : s.host = [] → StepTo s s
  /-- RST (70_reset_and_hazards.md R132). -/
  | rst (rest : List HostMove) : s.host = .rst :: rest → StepTo s (powerOn (withHost rest s))
  /-- A read (43_readback.md R117). -/
  | read (w : Word) (rest : List HostMove) : s.host = .send .rd w :: rest →
      StepTo s (answer (readReg (readAddress w) (withHost rest s)) (withHost rest s))
  /-- A word that FAULTED leaves on its port (60_exceptions.md R123). -/
  | untaken (p : Port) (w : Word) (rest : List HostMove) : p ≠ .rd → s.host = .send p w :: rest → s.fault = true →
      StepTo s (withHost rest (holdWord p w s))
  /-- A sample (42_process.md R101). -/
  | sample (x : Word) (rest : List HostMove) : s.host = .send .cmd x :: rest → expectsSample s →
      StepTo s (sampleStep x (withHost rest s))
  /-- A command word that faults (30_encoding.md R79, R80). -/
  | reject (p : Port) (w : Word) (rest : List HostMove) (c : Cause) : s.host = .send p w :: rest →
      expectsCommand p s → c = .illegalOpcode ∨ c = .reservedBits → StepTo s (raiseFault c (withHost rest s))
  /-- A command word whose data word is not the host's next move (30_encoding.md R73). -/
  | awaits (p : Port) (op : DataOp) (rest : List HostMove) :
      s.host = .send p (encodeHead (op.instr 0#32)) :: rest → expectsCommand p s →
      (op.instr 0#32).legalOn p = true → (∀ d r, rest ≠ .send p d :: r) →
      StepTo s (withHost rest (setDecoder p (some op) s))
  /-- A whole command. -/
  | command (p : Port) (i : Instr) (rest : List HostMove) : s.host = (encode i).map (.send p) ++ rest →
      expectsCommand p s → i.legalOn p = true → StepTo s (execResult i (withHost rest s))
  /-- The data word the decoder waits for (70_reset_and_hazards.md R133). -/
  | data (p : Port) (op : DataOp) (d : Word) (rest : List HostMove) : p ≠ .rd → s.host = .send p d :: rest →
      s.fault = false → (p = .cmd → s.remain = 0#24) → decoder p s = some op →
      StepTo s (execResult (op.instr d) (withHost rest (setDecoder p Option.none s)))

/-- The port, the words and the row of a first word that decodes to a row. -/
theorem decodeHead_row {p : Port} {w : Word} (hp : p ≠ .rd) :
    (∀ i, decodeHead p w = .whole i → encode i = [w] ∧ i.legalOn p = true) ∧
      ∀ op, decodeHead p w = .needsData op → ∀ d, encode (op.instr d) = [w, d] ∧ (op.instr d).legalOn p = true := by
  rcases decodeHead_cases p w with ⟨h, _⟩ | ⟨_, _, hd⟩ | ⟨_, _, _, hd⟩ | ⟨_, hl, hr, hd⟩
  · exact absurd h hp
  · simp [hd]
  · simp [hd]
  · rcases rowOf_spec p hp w hl hr with ⟨i', hi, hen, hlg⟩ | ⟨op', hi, hh⟩
    · rw [hd, hi]; refine ⟨fun i h => ?_, fun op h => ?_⟩
      · cases h; exact ⟨hen, hlg⟩
      · cases h
    · rw [hd, hi]; refine ⟨fun i h => ?_, fun op h => ?_⟩
      · cases h
      · cases h; exact hh

/-- A step answers a next state, and it is one of the cases of `StepTo`. -/
theorem step_inv (s : State) : ∃ t, step s = .next t ∧ StepTo s t := by
  rcases step_cases s with ⟨h, e⟩ | ⟨rest, h, e⟩ | ⟨w, rest, h1, h2⟩ | ⟨p, w, rest, hp, h1, h2⟩
  · exact ⟨_, e, .idle h⟩
  · exact ⟨_, e, .rst rest h⟩
  · rw [exec_eq] at h2; exact ⟨_, h2, .read w rest h1⟩
  · rcases takeWord_cases p w rest s with ⟨a, b⟩ | ⟨a, rfl, b, c⟩ | ⟨op, a, b, c, d⟩ | ⟨a, b, c, d⟩
    · exact ⟨_, by rw [step, h2, b], .untaken p w rest hp h1 a⟩
    · exact ⟨_, by rw [step, h2, c], .sample w rest h1 ⟨a, b⟩⟩
    · exact ⟨_, by rw [step, h2, d]; exact exec_eq _ _,
        .data p op w rest hp h1 a (fun hc => by by_contra hh; exact b ⟨hc, hh⟩) c⟩
    · have he : expectsCommand p s := ⟨hp, a, fun hc => by by_contra hh; exact b ⟨hc, hh⟩, c⟩
      have hrow := decodeHead_row (w := w) hp
      rcases takeCommand_cases p w rest s with ⟨e, f⟩ | ⟨e, f⟩ | ⟨i, e, f⟩ | ⟨op, d', r, e, g, f⟩ | ⟨op, e, g, f⟩
      · exact ⟨_, by rw [step, h2, d, f], .reject p w rest _ h1 he (.inl rfl)⟩
      · exact ⟨_, by rw [step, h2, d, f], .reject p w rest _ h1 he (.inr rfl)⟩
      · have hi := hrow.1 i e
        exact ⟨_, by rw [step, h2, d, f]; exact exec_eq _ _, .command p i rest (by simp [hi.1, h1]) he hi.2⟩
      · have hi := hrow.2 op e d'
        exact ⟨_, by rw [step, h2, d, f]; exact exec_eq _ _, .command p _ r (by simp [hi.1, h1, g]) he hi.2⟩
      · have hi := hrow.2 op e 0#32
        have hw : encodeHead (op.instr 0#32) = w := by
          have := hi.1
          unfold encode at this
          exact (List.cons.inj this).1
        exact ⟨_, by rw [step, h2, d, f], .awaits p op rest (by rw [hw]; exact h1) he hi.2 g⟩

/-- A run, by its first step. -/
theorem runSteps_succ {k : Nat} {s t : State} (h : step s = .next t) : runSteps (k + 1) s = runSteps k t := by
  rw [runSteps, h]

/-- A run, cut in two. -/
theorem runSteps_add : ∀ {j k : Nat} {s t : State}, runSteps j s = .next t → runSteps (j + k) s = runSteps k t
  | 0, k, s, t, h => by rw [runSteps] at h; injection h with h; rw [h, Nat.zero_add]
  | j + 1, k, s, t, h => by
    obtain ⟨u, hu, _⟩ := step_inv s
    rw [runSteps_succ hu] at h
    rw [Nat.add_right_comm, runSteps_succ hu]; exact runSteps_add h

end Sys2Proof.Machine
end

