-- ==== Sys2Proof/Tests/Slice0.lean ====
section
/-! SUPPORT. Tests: what WellFormed refuses, words written out from the tables of 30_encoding.md, a few steps whose
results are worked out in 95_test_vectors.md, and, for every statement with hypotheses, a state and operands that meet
them all together (`witness_…`), a boundary value for each clause. -/

namespace Sys2Proof.Tests

open Sys2Proof.Machine

/-! ### Small states -/

/-- A block at 10000 Hz after INIT, with FREQ 10 Hz (95_test_vectors.md P1). -/
abbrev idle : State := { State.reset with sampleRate := 0x461C4000#32, freq := 0x41200000#32, cfg := true }

/-- The same block after a latch of a PROCESS with `n` samples. -/
abbrev running (n : BitVec 24) : State :=
  { idle with pendScale := 0x40000000#32, latDepth := 0x42480000#32, remain := n }

/-- The same block FAULTED. -/
abbrev broken : State := { idle with fault := true, cause := .illegalOpcode }

/-- The state after a step of `exec` or `step`, the given one if there is none. -/
abbrev after (s : State) (o : Host.Outcome State Fault Refusal) : State :=
  match o with
  | .next t => t
  | .fault _ => s
  | .refused _ => s

/-! ### WellFormed: an ill-formed term for each check -/

theorem test_init_not_on_par : (Instr.init 0x461C4000#32).legalOn .par = false := by decide
theorem test_reset_not_on_par : Instr.reset.legalOn .par = false := by decide
theorem test_process_not_on_par : (Instr.process 1#24).legalOn .par = false := by decide
theorem test_processS_not_on_par : (Instr.processS 1#24).legalOn .par = false := by decide
theorem test_rd_not_on_cmd : (Instr.rd 0#4).legalOn .cmd = false := by decide
theorem test_rd_not_on_par : (Instr.rd 0#4).legalOn .par = false := by decide
theorem test_set_not_on_rd :
    (Instr.setFreq 0#32).legalOn .rd = false ∧ (Instr.setDepth 0#32).legalOn .rd = false ∧
      (Instr.setWave 0#32).legalOn .rd = false := by decide
theorem test_line_wrong_count : AsmLine.wellFormed ⟨false, .process 2 [.bits 0#32]⟩ = false := by decide
theorem test_line_count_too_large : AsmLine.wellFormed ⟨false, .processS 16777216⟩ = false := by decide
theorem test_line_wave_too_large : AsmLine.wellFormed ⟨false, .setWave 4294967296⟩ = false := by decide
theorem test_line_address_too_large : AsmLine.wellFormed ⟨false, .rd 16⟩ = false := by decide
theorem test_line_par_prefix :
    AsmLine.wellFormed ⟨true, .init (.bits 0#32)⟩ = false ∧ AsmLine.wellFormed ⟨true, .reset⟩ = false ∧
      AsmLine.wellFormed ⟨true, .process 0 []⟩ = false ∧ AsmLine.wellFormed ⟨true, .processS 0⟩ = false ∧
      AsmLine.wellFormed ⟨true, .rd 0⟩ = false := by decide
theorem test_line_taken :
    AsmLine.wellFormed ⟨true, .presetFast⟩ = true ∧ AsmLine.wellFormed ⟨false, .processS 16777215⟩ = true ∧
      AsmLine.wellFormed ⟨false, .rd 15⟩ = true ∧ AsmLine.wellFormed ⟨false, .setWave 4294967295⟩ = true := by decide

/-! ### Decoding: words written out from the rows of R72 and R81 -/

theorem test_decode_init :
    decodeWords .cmd [0x10000000#32, 0x461C4000#32] = .instr (.init 0x461C4000#32) [] := by decide
theorem test_decode_reset : decodeWords .cmd [0x20000000#32, 0x20000000#32] = .instr .reset [0x20000000#32] := by decide
/-- OPC 0011, S 0, RSV 000, CNT 0xABCDEF: the samples are not part of the command. -/
theorem test_decode_process :
    decodeWords .cmd [0x30ABCDEF#32, 0x3F800000#32] = .instr (.process 0xABCDEF#24) [0x3F800000#32] := by decide
/-- OPC 0011, S 1, RSV 000, CNT 7. -/
theorem test_decode_processS : decodeWords .cmd [0x38000007#32] = .instr (.processS 7#24) [] := by decide
theorem test_decode_setFreq :
    decodeWords .par [0x40000000#32, 0x41200000#32] = .instr (.setFreq 0x41200000#32) [] := by decide
theorem test_decode_setDepth :
    decodeWords .cmd [0x50000000#32, 0x42C80000#32] = .instr (.setDepth 0x42C80000#32) [] := by decide
theorem test_decode_setWave : decodeWords .par [0x60000000#32, 2#32] = .instr (.setWave 2#32) [] := by decide
theorem test_decode_rd : decodeWords .rd [0xFFFFFFFA#32] = .instr (.rd 0xA#4) [] := by decide
/-- R49: the word 0x10000000 as bytes, its opcode in the last of them. -/
theorem test_decode_bytes :
    decodeBytes .cmd [0x00#8, 0x00#8, 0x00#8, 0x10#8, 0x00#8, 0x40#8, 0x1C#8, 0x46#8] =
      .instr (.init 0x461C4000#32) [] := by decide
/-- R79, R80: opcodes 0 and 7 on CMD, 3 on PAR; a reserved bit of each format; S and CNT of a PROCESS are not
reserved. -/
theorem test_decode_rejects :
    decodeHead .cmd 0x00000000#32 = .illegalOpcode ∧ decodeHead .cmd 0x70000000#32 = .illegalOpcode ∧
      decodeHead .par 0x30000001#32 = .illegalOpcode ∧ decodeHead .cmd 0x10000001#32 = .reservedBits ∧
      decodeHead .cmd 0x28000000#32 = .reservedBits ∧ decodeHead .cmd 0x31000000#32 = .reservedBits ∧
      decodeHead .par 0x48000000#32 = .reservedBits := by decide

/-! ### Steps worked out in 95_test_vectors.md -/

/-- E1: 10000 Hz and 10 Hz latch a scale of 2.0. -/
theorem test_process_latch : (after idle (exec (.process 4#24) idle)).pendScale = 0x40000000#32 := by decide +kernel
/-- Section 2.1: 44100 Hz and 20 Hz. -/
theorem test_process_latch_rounds :
    (after idle (exec (.process 0#24) { idle with sampleRate := 0x472C4400#32, freq := 0x41A00000#32 })).pendScale =
      0x3F683315#32 := by decide +kernel
/-- K10: a NaN frequency is latched as 0.5, and FREQ keeps the NaN. -/
theorem test_clamp_nan : clampF 0x7FC00000#32 = 0x3F000000#32 := by decide
/-- K12: a depth of -0.0 is kept. -/
theorem test_clamp_negative_zero : clampD 0x80000000#32 = 0x80000000#32 := by decide
/-- E3 (G4, G5): depth 100 at the ends of SINE. -/
theorem test_gain_depth_100 :
    gain (romRead .sine 500) 0x42C80000#32 = 0x3F800000#32 ∧
      gain (romRead .sine 1500) 0x42C80000#32 = 0x00000000#32 := by decide +kernel
/-- E6: PROCESS.S changes nothing. -/
theorem test_processS_silent : exec (.processS 7#24) (running 0#24) = .next (running 0#24) := rfl
/-- E8: RESET clears the counter and the scale in use and keeps the scale asked for. -/
theorem test_reset_keeps_pend :
    (after idle (exec .reset { running 0#24 with samples := 9#32, curScale := 0x40000000#32 })).pendScale =
      0x40000000#32 := by decide +kernel
/-- R85: a rate of 0.0 is refused with cause 3. -/
theorem test_init_zero : (after idle (exec (.init 0#32) State.reset)).cause = .badSampleRate := by decide +kernel
/-- R74: PROCESS before INIT is refused with cause 4. -/
theorem test_process_unconfigured :
    (after idle (exec (.process 1#24) State.reset)).cause = .notConfigured := by decide +kernel
/-- R40: STATUS of a running block whose scale is not in use yet: CFG, BUSY and PENDING. -/
theorem test_status : (after idle (exec (.rd 0#4) (running 2#24))).rdOut = [0x0000000D#32] := by decide +kernel
/-- R92: a SET_FREQ from PAR while a PROCESS runs. -/
theorem test_set_freq :
    (after idle (step { running 1#24 with
      host := [.send .par 0x40000000#32, .send .par 0x41A00000#32] })).freq = 0x41A00000#32 := by decide +kernel
/-- R91, R97: 3 in WAVE is kept, and selects SQUARE. -/
theorem test_set_wave :
    (after idle (exec (.setWave 3#32) idle)).wave = 3#32 ∧ selectTable 3#32 = .square := by decide +kernel
/-- R90: a depth out of range is kept as it is. -/
theorem test_set_depth : (after idle (exec (.setDepth 0xC0A00000#32) idle)).depth = 0xC0A00000#32 := by decide +kernel
/-- R81: the words of an assembler line. -/
theorem test_assemble_text :
    assembleText "@PAR SET_WAVE 2 ; square" = some [.send .par 0x60000000#32, .send .par 2#32] := by decide +kernel

/-! ### Witnesses: the encoding -/

theorem witness_DecodeOfEncode :
    (Instr.init 1#32).legalOn .cmd = true ∧ Instr.reset.legalOn .cmd = true ∧
      (Instr.process 0xFFFFFF#24).legalOn .cmd = true ∧ (Instr.processS 0#24).legalOn .cmd = true ∧
      (Instr.setFreq 1#32).legalOn .par = true ∧ (Instr.setDepth 1#32).legalOn .cmd = true ∧
      (Instr.setWave 1#32).legalOn .par = true ∧ (Instr.rd 0xF#4).legalOn .rd = true := by decide

theorem witness_DecodedOnlyFromItsEncoding :
    Port.par ≠ .rd ∧ decodeWords .par [0x40000000#32, 5#32, 6#32] = .instr (.setFreq 5#32) [6#32] := by decide

/-- Opcodes 0 and 7 on CMD, 3 and 7 on PAR, where R79's ranges end. -/
theorem witness_IllegalOpcodeFaults :
    (expectsCommand .cmd idle ∧ expectsCommand .par (running 1#24)) ∧
      { idle with host := [.send .cmd 0x0FFFFFFF#32] }.host = .send .cmd 0x0FFFFFFF#32 :: [] ∧
      (0x0FFFFFFF#32).toNat / 2 ^ 28 = 0 ∧ (0x70000000#32).toNat / 2 ^ 28 = 7 ∧
      (0x3FFFFFFF#32).toNat / 2 ^ 28 ≤ 3 := by decide

/-- All branches: a PROCESS with RSV 111 and with RSV 000, a RESET with bit 0 and without, a PROCESS on PAR. -/
theorem witness_ReservedBitsFaultOrOneRow :
    (Port.par ≠ .rd ∧ (0x30000000#32).toNat / 2 ^ 28 < 4) ∧ expectsCommand .cmd idle ∧
      (1 ≤ (0x37000000#32).toNat / 2 ^ 28 ∧ (0x37000000#32).toNat / 2 ^ 28 ≤ 6) ∧
      (0x37000000#32).toNat / 2 ^ 24 % 8 ≠ 0 ∧ (0x38FFFFFF#32).toNat / 2 ^ 24 % 8 = 0 ∧
      (0x20000001#32).toNat % 2 ^ 28 ≠ 0 ∧ (0x20000000#32).toNat % 2 ^ 28 = 0 := by decide

theorem witness_BytesGoLeastSignificantFirst :
    ([] : List Byte).length < 4 ∧ [0xFF#8, 0xFF#8, 0xFF#8].length < 4 := by decide

theorem witness_StepRunsDecodedInstruction :
    (expectsCommand .cmd { idle with host := [.send .cmd 0x10000000#32, .send .cmd 0x461C4000#32, .rst] } ∧
      (Instr.init 0x461C4000#32).legalOn .cmd = true ∧
      [.send .cmd 0x10000000#32, .send .cmd 0x461C4000#32, .rst] =
        (encode (.init 0x461C4000#32)).map (HostMove.send .cmd) ++ [.rst]) ∧
      { broken with host := [.send .rd 0x15#32] }.host = .send .rd 0x15#32 :: [] := by decide

theorem witness_DataWordArrivesLater :
    (expectsCommand .par idle ∧ (DataOp.setFreq.instr 5#32).legalOn .par = true ∧
      { idle with host := [.send .par 0x40000000#32, .rst] }.host =
        .send .par (encodeHead (DataOp.setFreq.instr 5#32)) :: [.rst]) ∧
      (Port.cmd ≠ .rd ∧ { idle with cmdDec := some .init }.fault = false ∧ idle.remain = 0#24 ∧
        decoder .cmd { idle with cmdDec := some .init } = some .init) := by decide

theorem witness_DataWordArrivesLater_not_next (w : Word) (rest' : List HostMove) :
    [HostMove.rst] ≠ .send .par w :: rest' := by simp

/-! ### Witnesses: lifecycle, parameters and the latch -/

theorem witness_InitConfigures :
    (0x3F800000 ≤ (0x3F800000#32).toNat ∧ (0x3F800000#32).toNat ≤ 0x4B800000) ∧
      (0x3F800000 ≤ (0x4B800000#32).toNat ∧ (0x4B800000#32).toNat ≤ 0x4B800000) ∧ idle.fault = false := by decide

theorem witness_InitRefusesBadRate :
    (0x3F7FFFFF#32).toNat < 0x3F800000 ∧ 0x4B800000 < (0x4B800001#32).toNat ∧
      0x4B800000 < (0x7FC00000#32).toNat ∧ 0x4B800000 < (0x80000000#32).toNat := by decide

theorem witness_ResetIsFreshInit :
    (running 0#24).cfg = true ∧ (running 0#24).remain = 0#24 ∧ rateInRange (running 0#24).sampleRate ∧
      exec .reset (running 0#24) = .next (clearPhase (running 0#24)) ∧
      exec (.init (running 0#24).sampleRate) (running 0#24) =
        .next (configure 0x461C4000#32 (running 0#24)) :=
  ⟨rfl, rfl, by decide, rfl, by
    simp only [exec, execInit]; rw [if_pos (by decide +kernel)]⟩

theorem witness_ParameterWriteOnEitherPort :
    expectsCommand .par (running 3#24) ∧ expectsCommand .cmd idle ∧
      { idle with host := [.send .cmd 0x60000000#32, .send .cmd 2#32] }.host =
        .send .cmd 0x60000000#32 :: .send .cmd 2#32 :: [] := by decide

theorem witness_ParameterWriteMissesRunningProcess :
    (Instr.setFreq 0x41A00000#32).legalOn .par = true ∧ expectsSample (running 1#24) ∧
      (running 1#24).parDec = Option.none := by decide

theorem witness_LatchSeesCompletedWritesOnly :
    (Instr.setWave 2#32).legalOn .par = true ∧ expectsCommand .cmd idle ∧ expectsCommand .par idle ∧
      idle.cfg = true ∧ exec (.setWave 2#32) idle = .next { idle with wave := 2#32 } :=
  ⟨rfl, by decide, by decide, rfl, rfl⟩

/-- A WAVE of 1, and of 0x3F800000, the pattern of the binary32 1.0 (K18, K21). -/
theorem witness_WaveSelectsTable :
    (idle.cfg = true ∧ exec (.process 0#24) idle = .next (latch 0#24 idle) ∧ idle.wave.toNat = 1) ∧
      ({ idle with wave := 0x3F800000#32 }.cfg = true ∧
        exec (.process 0#24) { idle with wave := 0x3F800000#32 } =
          .next (latch 0#24 { idle with wave := 0x3F800000#32 }) ∧
        { idle with wave := 0x3F800000#32 }.wave.toNat ≠ 1) := ⟨⟨rfl, rfl, rfl⟩, rfl, rfl, by decide⟩

theorem witness_ProcessLatches : idle.cfg = true := by decide

theorem witness_LatchedScaleInRange :
    (idle.cfg = true ∧ rateInRange idle.sampleRate ∧ exec (.process 1#24) idle = .next (latch 1#24 idle)) ∧
      exec (.process 1#24) { idle with sampleRate := 0x4B800000#32, freq := 0x3F000000#32 } =
        .next (latch 1#24 { idle with sampleRate := 0x4B800000#32, freq := 0x3F000000#32 }) ∧
      exec (.process 1#24) { idle with sampleRate := 0x3F800000#32, freq := 0x41A00000#32 } =
        .next (latch 1#24 { idle with sampleRate := 0x3F800000#32, freq := 0x41A00000#32 }) :=
  ⟨⟨rfl, by decide, rfl⟩, rfl, rfl⟩

theorem witness_SilentProcessDoesNothing : (running 2#24).cfg = true := by decide

/-! ### Witnesses: sample steps and arithmetic -/

/-- Without and with a reserved bit. -/
theorem witness_ProcessBeforeInitFaults :
    expectsCommand .cmd State.reset ∧ State.reset.cfg = false ∧ (0x38000007#32).toNat / 2 ^ 28 = 3 ∧
      (0x38000007#32).toNat / 2 ^ 24 % 8 = 0 ∧ (0x31000000#32).toNat / 2 ^ 28 = 3 ∧
      (0x31000000#32).toNat / 2 ^ 24 % 8 ≠ 0 ∧
      { State.reset with host := [.send .cmd 0x31000000#32] }.host = .send .cmd 0x31000000#32 :: [] := by decide

theorem witness_SampleStepInFull :
    expectsSample { running 1#24 with host := [.send .cmd 0x3F800000#32] } ∧
      { running 1#24 with host := [.send .cmd 0x3F800000#32] }.host = .send .cmd 0x3F800000#32 :: [] := by decide

/-- No samples, and two; and one with a SET_FREQ from PAR and a read before it. -/
theorem witness_ProcessRunsToCompletion :
    (expectsCommand .cmd idle ∧ expectsCommand .par idle ∧ idle.cfg = true ∧
      ([] : List Word).length = (0#24).toNat) ∧
      ([([(Port.par, Instr.setFreq 5#32), (Port.rd, Instr.rd 0#4)], 1#32)] : List _).length = (1#24).toNat ∧
      (∀ c ∈ [(Port.par, Instr.setFreq 5#32), (Port.rd, Instr.rd 0#4)], c.1 ≠ .cmd ∧ c.2.legalOn c.1 = true) ∧
      [1#32, 2#32].length = (2#24).toNat ∧
      { idle with host := [.send .cmd 0x30000002#32, .send .cmd 1#32, .send .cmd 2#32, .rst] }.host =
        .send .cmd (BitVec.ofNat 32 (0x30000000 + (2#24).toNat)) ::
          [1#32, 2#32].map (.send .cmd) ++ [.rst] := by decide

theorem witness_Legal_idle : Legal idle :=
  ⟨fun _ => by decide, .inl rfl, .inl rfl, .inl (by decide), fun h => absurd rfl h, by decide, fun _ => ⟨rfl, rfl⟩,
    by decide⟩

theorem witness_Legal_running : Legal (running 1#24) :=
  ⟨fun _ => by decide, .inr (by decide), .inl rfl, .inl (by decide), fun _ => ⟨rfl, by decide, rfl⟩, by decide,
    fun _ => ⟨rfl, rfl⟩, by decide⟩

theorem witness_PhaseProductIsFinite : Legal (running 1#24) := witness_Legal_running

theorem witness_ZeroCounterGivesIndexZero : Legal (running 1#24) ∧ (running 1#24).samples = 0#32 :=
  ⟨witness_Legal_running, rfl⟩

theorem witness_FirstSampleFiresRuleA :
    expectsSample (running 1#24) ∧ (running 1#24).samples = 0#32 ∧ (running 1#24).curScale = 0#32 ∧
      scaleInRange (running 1#24).pendScale ∧
      { running 1#24 with host := [.send .cmd 5#32] }.host = .send .cmd 5#32 :: [] := by decide

/-- Each clause at the end of its range. -/
theorem witness_CounterConversion : 4294967295 < 2 ^ 32 ∧ 2 ^ 24 ≤ 2 ^ 24 := by decide

theorem witness_DepthZeroIsIdentity :
    idle.latDepth = 0x00000000#32 ∧ { idle with latDepth := 0x80000000#32 }.latDepth = 0x80000000#32 := by decide

theorem witness_SineGainWithinUnit :
    1999 < 2000 ∧ depthInRange 0x42C80000#32 ∧ depthInRange 0x80000000#32 ∧ depthInRange 0#32 := by decide

/-- Each clause: a NaN, an infinity with a zero gain and with another, a zero, a finite value. -/
theorem witness_SpecialValuesOfOutput :
    F32.isFinite 0x3F800000#32 = true ∧ F32.isFinite 0x80000000#32 = true ∧ F32.isNaN 0x7F800001#32 = true ∧
      F32.isInf 0xFF800000#32 = true ∧ F32.isZero 0x80000000#32 = true ∧ F32.isZero 0x3F800000#32 = false ∧
      F32.isFinite 0x7F7FFFFF#32 = true := by decide

theorem witness_GainIsFinite : 1999 < 2000 ∧ depthInRange 0x42C80000#32 := by decide

/-- Below the overflow threshold, on a tie; and at it. -/
theorem witness_RoundsToNearestEven :
    0 < 2 ∧ 2 * 3 < (2 ^ 25 - 1) * 2 ^ 253 * 2 ∧ F32.isFinite 1#32 = true ∧ F32.sign 1#32 = false ∧
      |(F32.units (F32.pack false (F32.roundMag 3 2)) : Int) * 2 - 3| = |(F32.units 1#32 : Int) * 2 - 3| ∧
      (2 ^ 25 - 1) * 2 ^ 253 * 2 ≤ 2 * ((2 ^ 25 - 1) * 2 ^ 253) := by decide +kernel

theorem witness_RomRange : 1999 < 2000 ∧ 0 < 2000 := by decide

theorem witness_SineListingFollowsFormula : 1999 < 2000 := by decide

theorem witness_SquareListingFollowsFormula : 1999 < 2000 := by decide

/-- Each clause: a divisor that is no zero, a sum that is none, -0.0 + -0.0, a difference that is none, and none of
two zeros. -/
theorem witness_ArithmeticIsRounded :
    F32.isFinite 0x3F800000#32 = true ∧ F32.isFinite 0x80000000#32 = true ∧ F32.units 0x3F800000#32 ≠ 0 ∧
      F32.value 0x3F800000#32 + F32.value 0x80000000#32 ≠ 0 ∧
      F32.value 0x80000000#32 + F32.value 0x80000000#32 = 0 ∧
      F32.value 0x3F800000#32 ≠ F32.value 0x80000000#32 ∧
      F32.value 0x00000000#32 = F32.value 0x80000000#32 := by decide +kernel

/-! ### Witnesses: faults, RST and the whole machine -/

theorem witness_FaultedIsFrozen :
    broken.fault = true ∧ HostMove.rst ∉ { broken with host := [.send .cmd 1#32, .send .rd 0#32] }.host := by decide

theorem witness_FaultedLeavesWordsUntaken :
    broken.fault = true ∧ { broken with host := [.send .cmd 1#32] }.host = .send .cmd 1#32 :: [] ∧
      { broken with host := [.send .par 1#32] }.host = .send .par 1#32 :: [] := by decide

/-- Opcodes 3 and 7, where the illegal ranges end, and a SET_FREQ with a reserved bit. -/
theorem witness_FaultOnParStopsProcess :
    expectsSample (running 2#24) ∧ (running 2#24).parDec = Option.none ∧ (0x3FFFFFFF#32).toNat / 2 ^ 28 ≤ 3 ∧
      7 ≤ (0x70000000#32).toNat / 2 ^ 28 ∧
      (¬((0x40000001#32).toNat / 2 ^ 28 ≤ 3 ∨ 7 ≤ (0x40000001#32).toNat / 2 ^ 28) ∧
        (0x40000001#32).toNat % 2 ^ 28 ≠ 0) ∧
      { running 2#24 with host := [.send .par 0x70000000#32, .send .cmd 1#32] }.host =
        .send .par 0x70000000#32 :: .send .cmd 1#32 :: [] := by decide

theorem witness_FaultsComeFromDecoding :
    step { idle with host := [.send .cmd 0#32] } = .next broken ∧ idle.fault = false ∧ broken.fault = true :=
  ⟨rfl, rfl, rfl⟩

theorem witness_OnlyRstLeavesFaulted :
    step { broken with host := [.rst] } = .next State.reset ∧ broken.fault = true ∧
      State.reset.fault = false := ⟨rfl, rfl, rfl⟩

theorem witness_RstRestoresPowerOn : { broken with host := [.rst] }.host = .rst :: [] := by decide

theorem witness_EveryStepCompletes : idle.host = [] := by decide

/-- A step that emits nothing, and a sample step. -/
theorem witness_OutputOnlyFromSampleSteps :
    step idle = .next idle ∧
      step { running 1#24 with host := [.send .cmd 5#32] } = .next (sampleStep 5#32 (running 1#24)) := ⟨rfl, rfl⟩

/-- RESET, and a sample step at index 0: each outcome of the statement. -/
theorem witness_ScaleChangesOnlyAtIndexZero :
    (step { idle with curScale := 0x40000000#32, host := [.send .cmd 0x20000000#32] } = .next idle ∧
      idle.curScale ≠ 0x40000000#32) ∧
      step { running 1#24 with host := [.send .cmd 5#32] } = .next (sampleStep 5#32 (running 1#24)) ∧
      (sampleStep 5#32 (running 1#24)).curScale ≠ (running 1#24).curScale := by
  exact ⟨⟨rfl, by decide⟩, rfl, by decide +kernel⟩

/-- RST, and INIT. -/
theorem witness_RateWrittenOnlyByInitOrRst :
    Legal { idle with host := [.rst] } ∧
      (step { idle with host := [.rst] } = .next State.reset ∧ State.reset.sampleRate ≠ idle.sampleRate) ∧
      Legal { State.reset with host := [.send .cmd 0x10000000#32, .send .cmd 0x461C4000#32] } ∧
      (after idle (step { State.reset with
        host := [.send .cmd 0x10000000#32, .send .cmd 0x461C4000#32] })).sampleRate ≠ State.reset.sampleRate := by
  refine ⟨⟨fun _ => by decide, .inl rfl, .inl rfl, .inl (by decide), fun h => absurd rfl h, by decide,
    fun _ => ⟨rfl, rfl⟩, by decide⟩, ⟨rfl, by decide⟩, ⟨fun h => absurd h (by decide), .inl rfl, .inl rfl, .inl (by decide),
    fun h => absurd rfl h, by decide, fun _ => ⟨rfl, rfl⟩, by decide⟩, by decide +kernel⟩

/-- A sample step at index 0, and a latch that asks for the scale in use. -/
theorem witness_ResyncOnlyAtIndexZero :
    (expectsSample { running 1#24 with host := [.send .cmd 5#32] } ∧
      step { running 1#24 with host := [.send .cmd 5#32] } = .next (sampleStep 5#32 (running 1#24)) ∧
      resyncState (running 1#24) = .pending ∧ resyncState (sampleStep 5#32 (running 1#24)) = .synced) ∧
      (Legal { idle with curScale := 0x40000000#32 } ∧ { idle with curScale := 0x40000000#32 }.cfg = true ∧
        exec (.process 1#24) { idle with curScale := 0x40000000#32 } =
          .next (latch 1#24 { idle with curScale := 0x40000000#32 })) := by
  refine ⟨⟨by decide, rfl, by decide +kernel, by decide +kernel⟩, ⟨fun _ => by decide, .inl rfl, .inr (by decide),
    .inl (by decide), fun h => absurd rfl h, by decide, fun _ => ⟨rfl, rfl⟩, by decide⟩, rfl, rfl⟩

theorem witness_StepKeepsLegal : Legal idle ∧ step idle = .next idle := ⟨witness_Legal_idle, rfl⟩

/-- The end of a PROCESS, from IN_BLOCK to IDLE. -/
theorem witness_BlockStateTransitions :
    Legal { running 1#24 with host := [.send .cmd 5#32] } ∧
      step { running 1#24 with host := [.send .cmd 5#32] } = .next (sampleStep 5#32 (running 1#24)) ∧
      blockState (running 1#24) = .inBlock ∧ blockState (sampleStep 5#32 (running 1#24)) = .idle := by
  refine ⟨⟨fun _ => by decide, .inr (by decide), .inl rfl, .inl (by decide), fun _ => ⟨rfl, by decide, rfl⟩, by decide,
    fun _ => ⟨rfl, rfl⟩, by decide⟩, rfl, by decide +kernel, by decide +kernel⟩

theorem witness_ChannelsAreIndependent :
    (channelsReset 2)[1]? = some State.reset ∧ 0 ≠ 1 := by decide

/-- The largest count of the encoding is taken, one more is not. -/
theorem witness_AssemblerEmitsProcess : 16777215 ≤ 16777215 ∧ ¬16777216 ≤ 16777215 := by decide

end Sys2Proof.Tests
end

section
/-! PROOFS. The family 00_scope.md R8: the rounding of the model is roundTiesToEven, and each operation rounds its exact
result once. The idea: `roundMag` rounds to an integer multiple of its spacing, where `roundDiv_nearest` holds, and a
binary32 value off that grid lies below the binade, whose lower end is on the grid. -/

namespace Sys2Proof.Machine.F32

/-! ### The value before the cut at infinity -/

/-- The multiple of the spacing that `n / d` is rounded to. -/
def significand (n d : Nat) : Nat := roundDiv n (d * 2 ^ spacing (n / d))

/-- The magnitude bits `n / d` would have were there no largest exponent. -/
def uncutMag (n d : Nat) : Nat := spacing (n / d) * 2 ^ 23 + significand n d

/-- The units `n / d` is rounded to, were there no largest exponent. -/
def uncutUnits (n d : Nat) : Nat := significand n d * 2 ^ spacing (n / d)

theorem roundMag_eq_min (n d : Nat) : roundMag n d = min infMag (uncutMag n d) := rfl

theorem significand_le {n d : Nat} (hd : 0 < d) : significand n d ≤ 2 ^ 24 := by
  refine roundDiv_le_of_le (by positivity) ?_
  have hq : n / d + 1 ≤ 2 ^ 24 * 2 ^ spacing (n / d) := lt_of_spacing (n / d)
  calc n ≤ (n / d + 1) * d := by rw [Nat.add_one_mul]; exact (Nat.lt_div_mul_add hd).le
    _ ≤ 2 ^ 24 * 2 ^ spacing (n / d) * d := Nat.mul_le_mul_right d hq
    _ = 2 ^ 24 * (d * 2 ^ spacing (n / d)) := by ring

/-- Above the smallest spacing the lower end of the binade is not above `n / d`. -/
theorem binade_le {n d : Nat} (ht : 0 < spacing (n / d)) : 2 ^ 23 * (d * 2 ^ spacing (n / d)) ≤ n :=
  calc 2 ^ 23 * (d * 2 ^ spacing (n / d)) = 2 ^ 23 * 2 ^ spacing (n / d) * d := by ring
    _ ≤ n / d * d := Nat.mul_le_mul_right d (ge_of_spacing_pos ht)
    _ ≤ n := Nat.div_mul_le_self n d

/-- Above the smallest spacing the significand has its leading one. -/
theorem le_significand {n d : Nat} (hd : 0 < d) (ht : 0 < spacing (n / d)) : 2 ^ 23 ≤ significand n d :=
  le_trans ((Nat.le_div_iff_mul_le (by positivity)).2 (binade_le ht)) (roundDiv_ge _ _)

theorem unitsOf_uncutMag {n d : Nat} (hd : 0 < d) : unitsOf (uncutMag n d) = uncutUnits n d :=
  unitsOf_sum (significand_le hd) (Nat.eq_zero_or_pos _ |>.imp_right (le_significand hd))

/-- The last bit of the magnitude is the last bit of the significand. -/
theorem uncutMag_mod_two (n d : Nat) : uncutMag n d % 2 = significand n d % 2 := by
  unfold uncutMag; omega

/-! ### No binary32 value is nearer -/

/-- A binary32 value is a multiple of a given spacing, or it lies below the first full significand at that spacing. -/
theorem unitsOf_dvd_or_lt (m t : Nat) : 2 ^ t ∣ unitsOf m ∨ (0 < t ∧ unitsOf m < 2 ^ 23 * 2 ^ t) := by
  rcases Nat.eq_zero_or_pos t with rfl | ht
  · exact .inl (by simp)
  by_cases he : m / 2 ^ 23 = 0
  · have hu : unitsOf m < 2 ^ 23 := by unfold unitsOf; rw [if_pos he]; omega
    exact .inr ⟨ht, lt_of_lt_of_le hu (Nat.le_mul_of_pos_right _ (by positivity))⟩
  have hu : unitsOf m = (m % 2 ^ 23 + 2 ^ 23) * 2 ^ (m / 2 ^ 23 - 1) := by unfold unitsOf; rw [if_neg he]
  rw [hu]
  rcases Nat.lt_or_ge (m / 2 ^ 23 - 1) t with hlt | hge
  · refine .inr ⟨ht, ?_⟩
    calc (m % 2 ^ 23 + 2 ^ 23) * 2 ^ (m / 2 ^ 23 - 1)
        < 2 ^ 24 * 2 ^ (m / 2 ^ 23 - 1) := Nat.mul_lt_mul_of_pos_right (by omega) (by positivity)
      _ = 2 ^ 23 * 2 ^ (m / 2 ^ 23 - 1 + 1) := by ring
      _ ≤ 2 ^ 23 * 2 ^ t := Nat.mul_le_mul_left _ (Nat.pow_le_pow_right two_pos hlt)
  · exact .inl (Dvd.dvd.mul_left (pow_dvd_pow 2 hge) _)

/-- `|u - n / d|` in units, multiplied by `d`. -/
abbrev errorOf (n d u : Nat) : Int := |(u : Int) * d - n|

/-- Without the cut at infinity: no binary32 value is nearer to `n / d`, and on a tie the last bit is 0. -/
theorem uncutUnits_nearest {n d : Nat} (hd : 0 < d) (m : Nat) :
    errorOf n d (uncutUnits n d) ≤ errorOf n d (unitsOf m) ∧
      (errorOf n d (uncutUnits n d) = errorOf n d (unitsOf m) →
        unitsOf m = uncutUnits n d ∨ uncutMag n d % 2 = 0) := by
  have onGrid (k : Nat) : errorOf n d (k * 2 ^ spacing (n / d)) =
      |(k : Int) * (d * 2 ^ spacing (n / d) : Nat) - n| := by
    unfold errorOf; push_cast; ring_nf
  have nearest (k : Nat) := roundDiv_nearest n (d * 2 ^ spacing (n / d)) (by positivity) k
  rw [uncutMag_mod_two, uncutUnits, onGrid]
  rcases unitsOf_dvd_or_lt m (spacing (n / d)) with ⟨k, hk⟩ | ⟨ht, hlt⟩
  · rw [hk, Nat.mul_comm _ k, onGrid]
    obtain ⟨hle, htie⟩ := nearest k
    exact ⟨hle, fun h => (htie h).imp_left (congrArg (· * _))⟩
  · have hfar : |((2 ^ 23 : Nat) : Int) * (d * 2 ^ spacing (n / d) : Nat) - n| < errorOf n d (unitsOf m) := by
      have hlow : ((2 ^ 23 : Nat) : Int) * (d * 2 ^ spacing (n / d) : Nat) ≤ n := by exact_mod_cast binade_le ht
      have hoff : (unitsOf m : Int) * d < (2 ^ 23 : Nat) * (d * 2 ^ spacing (n / d) : Nat) := by
        have : unitsOf m * d < 2 ^ 23 * 2 ^ spacing (n / d) * d := Nat.mul_lt_mul_of_pos_right hlt hd
        exact_mod_cast this.trans_eq (by ring)
      rw [errorOf, abs_of_nonpos (by omega), abs_of_nonpos (by omega)]
      omega
    have hstrict := lt_of_le_of_lt (nearest (2 ^ 23)).1 hfar
    exact ⟨hstrict.le, fun h => absurd h hstrict.ne⟩

/-! ### The overflow threshold -/

/-- The largest finite magnitude, as a full significand at the topmost spacing. -/
theorem unitsOf_maxFinite : unitsOf (infMag - 1) = (2 ^ 24 - 1) * 2 ^ 253 := by decide +kernel

/-- What would pass the largest exponent has at least infinity's units. -/
theorem infUnits_le_uncutUnits {n d : Nat} (hd : 0 < d) (h : infMag ≤ uncutMag n d) :
    2 ^ 24 * 2 ^ 253 ≤ uncutUnits n d := by
  have hR := significand_le (n := n) hd
  have ht : 253 ≤ spacing (n / d) := by unfold uncutMag infMag at h; omega
  have hlow := le_significand (n := n) hd (by omega)
  unfold uncutUnits
  rcases Nat.eq_or_lt_of_le ht with heq | hgt
  · have : significand n d = 2 ^ 24 := by unfold uncutMag infMag at h; omega
    rw [this, ← heq]
  · calc 2 ^ 24 * 2 ^ 253 = 2 ^ 23 * 2 ^ 254 := by norm_num
      _ ≤ significand n d * 2 ^ spacing (n / d) :=
        Nat.mul_le_mul hlow (Nat.pow_le_pow_right two_pos hgt)

/-- Below the threshold the largest exponent is not passed: the largest finite value would be nearer. -/
theorem uncutMag_lt_inf {n d : Nat} (hd : 0 < d) (h : 2 * n < (2 ^ 25 - 1) * 2 ^ 253 * d) :
    uncutMag n d < infMag := by
  by_contra hc
  have hbig := Nat.mul_le_mul_right d (infUnits_le_uncutUnits (n := n) hd (by omega))
  have hnear := (uncutUnits_nearest (n := n) hd (infMag - 1)).1
  rw [unitsOf_maxFinite] at hnear
  have : ((uncutUnits n d * d : Nat) : Int) - n ≤ |(((2 ^ 24 - 1) * 2 ^ 253 * d : Nat) : Int) - n| := by
    refine le_trans (le_abs_self _) ?_
    simpa [errorOf] using hnear
  rcases abs_cases ((((2 ^ 24 - 1) * 2 ^ 253 * d : Nat) : Int) - n) with ⟨he, _⟩ | ⟨he, _⟩ <;>
    rw [he] at this <;> omega

/-- From the threshold on rounding gives infinity. -/
theorem roundMag_eq_inf {n d : Nat} (hd : 0 < d) (h : (2 ^ 25 - 1) * 2 ^ 253 * d ≤ 2 * n) :
    roundMag n d = infMag := by
  have hmid : roundMag ((2 ^ 25 - 1) * 2 ^ 253) 2 = infMag := by decide +kernel
  refine le_antisymm (roundMag_le_inf n d) (hmid ▸ roundMag_mono two_pos hd ?_)
  omega

/-- Below the threshold nothing is cut. -/
theorem roundMag_eq_uncutMag {n d : Nat} (hd : 0 < d) (h : 2 * n < (2 ^ 25 - 1) * 2 ^ 253 * d) :
    roundMag n d = uncutMag n d := by
  rw [roundMag_eq_min, Nat.min_eq_right (uncutMag_lt_inf hd h).le]

/-! ### Packed words -/

theorem pack_toNat {s : Bool} {m : Nat} (h : m ≤ infMag) : (pack s m).toNat = (if s then 2 ^ 31 else 0) + m := by
  have hm : m < 2 ^ 31 := by unfold infMag at h; omega
  cases s
  · simpa using pack_toNat_pos hm
  · simpa using pack_toNat_neg hm

theorem pack_mag {s : Bool} {m : Nat} (h : m ≤ infMag) : (pack s m).toNat % 2 ^ 31 = m := by
  rw [pack_toNat h]; unfold infMag at h; cases s <;> simp <;> omega

theorem sign_pack {s : Bool} {m : Nat} (h : m ≤ infMag) : sign (pack s m) = s := by
  rw [sign_eq, pack_toNat h]; unfold infMag at h; cases s <;> simp; omega

theorem units_pack {s : Bool} {m : Nat} (h : m ≤ infMag) : units (pack s m) = unitsOf m := by
  rw [units_eq, pack_mag h]

theorem pack_mod_two {s : Bool} {m : Nat} (h : m ≤ infMag) : (pack s m).toNat % 2 = m % 2 := by
  rw [pack_toNat h]; split <;> omega

/-- A finite value is its sign and its units. -/
theorem eq_of_sign_of_units {v w : Word} (hv : isFinite v = true) (hw : isFinite w = true) (hs : sign v = sign w)
    (hu : units v = units w) : v = w := by
  rw [isFinite_iff] at hv hw
  rw [units_eq, units_eq] at hu
  rw [sign_eq, sign_eq, decide_eq_decide] at hs
  have hle := (unitsOf_le_iff hv.le hw.le).1 hu.le
  have hge := (unitsOf_le_iff hw.le hv.le).1 hu.ge
  exact BitVec.eq_of_toNat_eq (by omega)

/-- The only infinity without a sign. -/
theorem eq_posInf {v : Word} (hi : isInf v = true) (hs : sign v = false) : v = 0x7F800000#32 := by
  rw [isInf_iff] at hi
  rw [sign_eq, decide_eq_false_iff_not] at hs
  exact BitVec.eq_of_toNat_eq (by unfold infMag at hi; simp; omega)

/-- What every operation of the model builds is its exact magnitude rounded once. -/
theorem isRounded_pack (s : Bool) (n : Nat) {d : Nat} (hd : 0 < d) : IsRounded s n d (pack s (roundMag n d)) := by
  have hle := roundMag_le_inf n d
  refine ⟨sign_pack hle, fun hlt => ?_, fun hge => ?_⟩
  · have hcut := roundMag_eq_uncutMag hd hlt
    refine ⟨by rw [isFinite_iff, pack_mag hle, hcut]; exact uncutMag_lt_inf hd hlt, fun v _ => ?_⟩
    rw [units_pack hle, pack_mod_two hle, hcut, unitsOf_uncutMag hd, units_eq v]
    exact uncutUnits_nearest hd _
  · rw [isInf_iff, pack_mag hle, roundMag_eq_inf hd hge]

/-! ### Sums and differences -/

theorem isZero_eq_false_of_units_ne_zero {b : Word} (h : units b ≠ 0) : isZero b = false := by
  rw [← Bool.not_eq_true, isZero_iff]
  intro hz
  exact h (by rw [units_eq, hz]; rfl)

/-- A sum that is not zero is rounded once. -/
theorem fadd_isRounded {a b : Word} (ha : isFinite a = true) (hb : isFinite b = true) (h : value a + value b ≠ 0) :
    IsRounded (decide (value a + value b < 0)) (value a + value b).natAbs 1 (fadd a b) := by
  rw [fadd_finite ha hb, if_neg h]
  exact isRounded_pack _ _ one_pos

/-- An exact zero sum is +0.0 unless both operands are negative zeros. -/
theorem fadd_of_sum_zero {a b : Word} (ha : isFinite a = true) (hb : isFinite b = true) (h : value a + value b = 0) :
    fadd a b = if sign a = true ∧ sign b = true then 0x80000000#32 else 0x00000000#32 := by
  rw [fadd_finite ha hb, if_pos h]
  cases sign a <;> cases sign b <;> rfl

end Sys2Proof.Machine.F32

namespace Sys2Proof.Machine

/-- Settles O35: `isRounded_pack` without a sign, where equal units are equal words. -/
theorem roundsToNearestEven : Obligations.RoundsToNearestEven := by
  intro n d hd
  obtain ⟨hsign, hfinite, hinf⟩ := F32.isRounded_pack false n hd
  refine ⟨fun hlt => ?_, fun hge => F32.eq_posInf (hinf hge) hsign⟩
  obtain ⟨hr, hnear⟩ := hfinite hlt
  refine ⟨hr, fun v hv hs => ?_⟩
  obtain ⟨hle, htie⟩ := hnear v hv
  rw [F32.pack_mod_two (F32.roundMag_le_inf n d)] at htie
  exact ⟨hle, fun h => (htie h).imp_left (F32.eq_of_sign_of_units hv hr (hs.trans hsign.symm))⟩

/-- Settles O59: each operation packs a rounded exact magnitude, and a difference is a sum with the other sign. -/
theorem arithmeticIsRounded : Obligations.ArithmeticIsRounded := by
  intro a b ha hb
  obtain ⟨hsign, hfinite, -, hvalue⟩ := F32.negate_spec b
  have hnb : F32.isFinite (F32.negate b) = true := hfinite.trans hb
  have hsub : F32.value a + F32.value (F32.negate b) = F32.value a - F32.value b := by rw [hvalue]; ring
  refine ⟨?product, fun hne => ?quotient, F32.fadd_isRounded ha hb, F32.fadd_of_sum_zero ha hb,
    fun hne => ?difference, fun heq => ?zeroDifference⟩
  case product =>
    rw [F32.fmul_finite ha hb]
    exact F32.isRounded_pack _ _ (by decide)
  case quotient =>
    rw [F32.fdiv_finite ha hb (F32.isZero_eq_false_of_units_ne_zero hne)]
    exact F32.isRounded_pack _ _ (Nat.pos_of_ne_zero hne)
  case difference =>
    have h := F32.fadd_isRounded ha hnb (by rw [hsub]; exact sub_ne_zero.2 hne)
    rw [hsub] at h
    rw [F32.fsub_finite ha hb]
    simpa only [sub_neg] using h
  case zeroDifference =>
    rw [F32.fsub_finite ha hb, F32.fadd_of_sum_zero ha hnb (by rw [hsub]; exact sub_eq_zero.2 heq), hsign]
    simp only [Bool.not_eq_true']

end Sys2Proof.Machine
end

section
/-! PROOFS. The family 10_state.md: what a legal state is, every step keeps; which steps write OUT, SAMPLE_RATE and
CUR_SCALE; the moves of the block and of the resync machine; the read map and STATUS. Each follows from `step_inv` and
from one lemma for each operation a step is made of. -/

namespace Sys2Proof.Machine

/-! ### Ranges as patterns: the rate of an INIT, the clamped parameters, the scale a latch asks for -/

/-- Neither below `lo` nor above `hi`, both positive: a range of patterns. -/
theorem not_lt_and_not_gt_iff {v lo hi : Word} (hn : F32.isNaN v = false) (hlo : 0 < lo.toNat ∧ lo.toNat ≤ F32.infMag)
    (hhi : 0 < hi.toNat ∧ hi.toNat ≤ F32.infMag) :
    (¬F32.lt v lo = true ∧ ¬F32.lt hi v = true) ↔ lo.toNat ≤ v.toNat ∧ v.toNat ≤ hi.toNat := by
  rw [F32.lt_pos_iff hn hlo.2 hlo.1, F32.pos_lt_iff hn hhi.2 hhi.1]
  have : F32.infMag < 2 ^ 31 := by decide
  omega

/-- The check of R85 is a range of patterns. -/
theorem rateLegal_iff (d : Word) : rateLegal d = true ↔ rateInRange d := by
  have hlo : 0 < Config.rateMin.toNat ∧ Config.rateMin.toNat ≤ F32.infMag := by decide
  have hhi : 0 < Config.rateMax.toNat ∧ Config.rateMax.toNat ≤ F32.infMag := by decide
  unfold rateLegal
  cases hn : F32.isNaN d with
  | true =>
    rw [F32.isNaN_iff, F32.infMag] at hn
    simp only [Bool.not_true, Bool.false_and, Bool.false_eq_true, false_iff]
    omega
  | false =>
    rw [Bool.not_false, Bool.true_and, Bool.and_eq_true, F32.ge_iff_not_lt hn hlo.2 hlo.1,
      F32.le_iff_not_gt hn hhi.2 hhi.1, not_lt_and_not_gt_iff hn hlo hhi]
    rfl

theorem clampF_range (v : Word) : 0x3F000000 ≤ (clampF v).toNat ∧ (clampF v).toNat ≤ 0x41A00000 := by
  unfold clampF
  split_ifs with hnan hlow hhigh
  · decide
  · decide
  · decide
  · rw [Bool.not_eq_true] at hnan
    exact (not_lt_and_not_gt_iff hnan (lo := Config.freqMin) (hi := Config.freqMax) (by decide) (by decide)).1
      ⟨hlow, hhigh⟩

/-- A word that is not below +0.0 has no sign or is -0.0. -/
theorem eq_negZero_of_not_lt_zero {v : Word} (hn : F32.isNaN v = false) (h : ¬F32.lt v 0#32 = true)
    (hs : 2 ^ 31 ≤ v.toNat) : v = 0x80000000#32 := by
  have hle := (F32.isNaN_eq_false_iff v).1 hn
  have hz : F32.isNaN 0#32 = false ∧ F32.value 0#32 = 0 := by decide
  simp only [F32.lt, hn, hz, F32.value_eq v, if_pos hs, Bool.not_false, Bool.true_and, decide_eq_true_eq] at h
  have hmag : v.toNat % 2 ^ 31 = 0 := by
    by_contra hne
    have := F32.unitsOf_pos (Nat.pos_of_ne_zero hne) hle
    omega
  exact BitVec.eq_of_toNat_eq (by simp; omega)

theorem clampD_range (v : Word) : depthInRange (clampD v) := by
  unfold clampD
  split_ifs with hnan hlow hhigh
  · exact .inl (by decide)
  · exact .inl (by decide)
  · exact .inl (by decide)
  · rw [Bool.not_eq_true] at hnan
    by_cases hs : 2 ^ 31 ≤ v.toNat
    · exact .inr (eq_negZero_of_not_lt_zero hnan hlow hs)
    · rw [F32.pos_lt_iff hnan (by decide) (by decide)] at hhigh
      have hmax : Config.depthMax.toNat = 0x42C80000 := rfl
      exact .inl (by omega)

/-- R98: division is monotone, so the two divisions of R94 take their bounds at the ends of the ranges. -/
theorem requestedScale_range {s : State} (h : rateInRange s.sampleRate) : scaleInRange (requestedScale s) := by
  obtain ⟨hrlo, hrhi⟩ := h
  obtain ⟨hflo, hfhi⟩ := clampF_range s.freq
  have lowCycle : F32.fdiv 0x3F800000#32 0x41A00000#32 = 0x3D4CCCCD#32 := by decide +kernel
  have highCycle : F32.fdiv 0x4B800000#32 0x3F000000#32 = 0x4C000000#32 := by decide +kernel
  have lowScale : F32.fdiv Config.k2000 0x4C000000#32 = 0x387A0000#32 := by decide +kernel
  have highScale : F32.fdiv Config.k2000 0x3D4CCCCD#32 = 0x471C4000#32 := by decide +kernel
  have hinf : F32.infMag = 0x7F800000 := rfl
  have hclo : 0x3D4CCCCD ≤ (samplesPerCycle s).toNat := by
    have := F32.fdiv_toNat_mono (a := 0x3F800000#32) (b := 0x41A00000#32) (a' := s.sampleRate) (b' := clampF s.freq)
      (by omega) (by decide) (by omega) hrlo hfhi
    rwa [lowCycle] at this
  have hchi : (samplesPerCycle s).toNat ≤ 0x4C000000 := by
    have := F32.fdiv_toNat_mono (a := s.sampleRate) (b := clampF s.freq) (a' := 0x4B800000#32) (b' := 0x3F000000#32)
      (by decide) (by omega) (by decide) hrhi hflo
    rwa [highCycle] at this
  constructor
  · have := F32.fdiv_toNat_mono (a := Config.k2000) (a' := Config.k2000) (b := 0x4C000000#32) (b' := samplesPerCycle s)
      (by decide) (by decide) (by omega) le_rfl hchi
    rwa [lowScale] at this
  · have := F32.fdiv_toNat_mono (a := Config.k2000) (a' := Config.k2000) (b := samplesPerCycle s) (b' := 0x3D4CCCCD#32)
      (by decide) (by omega) (by decide) le_rfl hclo
    rwa [highScale] at this

/-! ### What a sample step and a whole command do -/

/-- A sample step: its output, REMAIN, and the two writes of rule A or neither (42_process.md R101, R105). -/
theorem sampleStep_cases (x : Word) (s : State) :
    ∃ c n, sampleStep x s = { s with
        curScale := c, samples := n, remain := s.remain - 1#24, out := s.out ++ [sampleOut x s] } ∧
      (pending s = true ∧ stepIndex s = 0 ∧ c = s.pendScale ∧ n = 1#32 ∨
        ¬(pending s = true ∧ stepIndex s = 0) ∧ c = s.curScale) := by
  unfold sampleStep
  rcases resyncA_cases (stepIndex s) s with ⟨hp, hi, hA⟩ | ⟨hno, hA⟩ <;> rw [hA]
  · rcases resyncB_cases (stepIndex s) { s with curScale := s.pendScale, samples := 0#32 } with
      ⟨-, -, hB⟩ | ⟨-, hB⟩ <;> rw [hB] <;> exact ⟨_, _, rfl, .inl ⟨hp, hi, rfl, rfl⟩⟩
  · rcases resyncB_cases (stepIndex s) s with ⟨-, -, hB⟩ | ⟨-, hB⟩ <;> rw [hB] <;>
      exact ⟨_, _, rfl, .inr ⟨hno, rfl⟩⟩

@[simp] theorem stepIndex_withHost (moves : List HostMove) (s : State) :
    stepIndex (withHost moves s) = stepIndex s := rfl
@[simp] theorem sampleOut_withHost (x : Word) (moves : List HostMove) (s : State) :
    sampleOut x (withHost moves s) = sampleOut x s := rfl

/-- All that a whole command can do, one constructor a case: `ExecTo s i t` says that `i` takes `s` to `t`, and why. -/
inductive ExecTo (s : State) : Instr → State → Prop where
  /-- An INIT with a legal rate (40_lifecycle.md R85). -/
  | configure (d : Word) : rateInRange d → ExecTo s (.init d) (configure d s)
  /-- RESET (40_lifecycle.md R86). -/
  | clear : ExecTo s .reset (clearPhase s)
  /-- A PROCESS of a configured block (41_parameters.md R93). -/
  | latch (cnt : BitVec 24) : s.cfg = true → ExecTo s (.process cnt) (latch cnt s)
  /-- An INIT with another rate (40_lifecycle.md R85). -/
  | badRate (d : Word) : ¬rateInRange d → ExecTo s (.init d) (raiseFault .badSampleRate s)
  /-- A PROCESS or PROCESS.S before INIT (30_encoding.md R74). -/
  | unready (i : Instr) (cnt : BitVec 24) : s.cfg = false → i = .process cnt ∨ i = .processS cnt →
      ExecTo s i (raiseFault .notConfigured s)
  /-- A parameter write, a PROCESS.S or a read: only the parameters and the record of answers change. -/
  | write (i : Instr) (f d w : Word) (r : List Word) :
      ExecTo s i { s with freq := f, depth := d, wave := w, rdOut := r }

theorem execTo_execResult (i : Instr) (s : State) : ExecTo s i (execResult i s) := by
  cases i with
  | init d =>
    by_cases hd : rateLegal d = true
    · simpa [execResult, hd] using ExecTo.configure d ((rateLegal_iff d).1 hd)
    · simpa [execResult, hd] using ExecTo.badRate d (mt (rateLegal_iff d).2 hd)
  | reset => exact .clear
  | process cnt =>
    by_cases hcfg : s.cfg = true
    · simpa [execResult, hcfg] using ExecTo.latch cnt hcfg
    · simpa [execResult, hcfg] using ExecTo.unready _ cnt (Bool.not_eq_true _ ▸ hcfg) (.inl rfl)
  | processS cnt =>
    by_cases hcfg : s.cfg = true
    · simpa [execResult, hcfg] using ExecTo.write _ s.freq s.depth s.wave s.rdOut
    · simpa [execResult, hcfg] using ExecTo.unready _ cnt (Bool.not_eq_true _ ▸ hcfg) (.inr rfl)
  | setFreq d => exact .write _ d s.depth s.wave s.rdOut
  | setDepth d => exact .write _ s.freq d s.wave s.rdOut
  | setWave k => exact .write _ s.freq s.depth k s.rdOut
  | rd a => exact .write _ s.freq s.depth s.wave _

section
variable {s t : State} {i : Instr}

theorem ExecTo.out_eq (h : ExecTo s i t) : t.out = s.out := by cases h <;> rfl

theorem ExecTo.host_eq (h : ExecTo s i t) : t.host = s.host := by cases h <;> rfl

/-- Only a RESET and an INIT with a legal rate write CUR_SCALE, and they clear it. -/
theorem ExecTo.curScale_cases (h : ExecTo s i t) :
    t.curScale = s.curScale ∨ t.curScale = 0#32 ∧ (i = .reset ∨ ∃ d, rateInRange d ∧ i = .init d) := by
  cases h with
  | configure d hd => exact .inr ⟨rfl, .inr ⟨d, hd, rfl⟩⟩
  | clear => exact .inr ⟨rfl, .inl rfl⟩
  | latch | badRate | unready | write => exact .inl rfl

/-- Only an INIT with a legal rate writes SAMPLE_RATE. -/
theorem ExecTo.sampleRate_cases (h : ExecTo s i t) :
    t.sampleRate = s.sampleRate ∨ rateInRange t.sampleRate ∧ t.cfg = true ∧ i = .init t.sampleRate := by
  cases h with
  | configure d hd => exact .inr ⟨hd, rfl, rfl⟩
  | clear | latch | badRate | unready | write => exact .inl rfl

end

/-! ### Every operation of a step keeps a legal state legal -/

section
variable {s t : State}

theorem withHost_legal (moves : List HostMove) (hs : Legal s) : Legal (withHost moves s) := { hs with }

theorem answer_legal (v : Word) (hs : Legal s) : Legal (answer v s) := { hs with }

theorem powerOn_legal (s : State) : Legal (powerOn s) where
  rate := by simp
  pend := by simp
  cur := by simp
  lat := by simp [depthInRange]
  block := by simp
  causes := by simp
  waits := by simp
  noInit := by simp

theorem raiseFault_legal {c : Cause} (hc : c ≠ .none) (hs : Legal s) : Legal (raiseFault c s) :=
  { hs with
    causes := by simp [hc]
    waits := by simp }

theorem holdWord_legal (p : Port) (w : Word) (hf : s.fault = true) (hs : Legal s) : Legal (holdWord p w s) := by
  cases p with
  | cmd => exact { hs with waits := by simp [hf] }
  | par => exact { hs with waits := by simp [hf] }
  | rd => exact hs

/-- The CMD decoder waits only where no PROCESS runs, the PAR decoder never for a rate. -/
theorem setDecoder_legal {p : Port} {op : Option DataOp} (hcmd : p = .cmd → op = Option.none ∨ s.remain = 0#24)
    (hpar : p = .par → op ≠ some .init) (hs : Legal s) : Legal (setDecoder p op s) := by
  cases p with
  | cmd =>
    refine { hs with block := fun hr => ?_ }
    obtain ⟨hcfg, hscale, -⟩ := hs.block hr
    exact ⟨hcfg, hscale, (hcmd rfl).resolve_right hr⟩
  | par => exact { hs with noInit := hpar rfl }
  | rd => exact hs

theorem configure_legal {d : Word} (hd : rateInRange d) (hs : Legal s) : Legal (configure d s) :=
  { hs with
    rate := fun _ => hd
    pend := by simp
    cur := by simp
    lat := by simp [depthInRange]
    block := by simp }

theorem clearPhase_legal (hs : Legal s) : Legal (clearPhase s) := { hs with cur := by simp }

theorem latch_legal (cnt : BitVec 24) (hcfg : s.cfg = true) (hdec : s.cmdDec = Option.none) (hs : Legal s) :
    Legal (latch cnt s) :=
  have hscale := requestedScale_range (hs.rate hcfg)
  { hs with
    pend := .inr hscale
    lat := clampD_range s.depth
    block := fun _ => ⟨hcfg, hscale, hdec⟩ }

/-- Rule A takes CUR_SCALE from PEND_SCALE, and what a running PROCESS needs stays. -/
theorem sampleStep_legal (x : Word) (hr : s.remain ≠ 0#24) (hs : Legal s) : Legal (sampleStep x s) := by
  obtain ⟨c, n, heq, hc⟩ := sampleStep_cases x s
  have hcur : c = 0#32 ∨ scaleInRange c := by
    rcases hc with ⟨-, -, rfl, -⟩ | ⟨-, rfl⟩
    · exact hs.pend
    · exact hs.cur
  rw [heq]
  exact { hs with
    cur := hcur
    block := fun _ => hs.block hr }

/-- A PROCESS, whose samples come on CMD, is the one command that asks something of the CMD decoder. -/
theorem execTo_legal {i : Instr} (hdec : ∀ cnt, i = .process cnt → s.cmdDec = Option.none) (hs : Legal s)
    (h : ExecTo s i t) : Legal t := by
  cases h with
  | configure d hd => exact configure_legal hd hs
  | clear => exact clearPhase_legal hs
  | latch cnt hcfg => exact latch_legal cnt hcfg (hdec cnt rfl) hs
  | badRate | unready => exact raiseFault_legal (by decide) hs
  | write => exact { hs with }

/-- In a legal state the decoder that waits for a rate is that of CMD. -/
theorem Legal.port_of_awaits_init {p : Port} (hs : Legal s) (hd : decoder p s = some .init) : p = .cmd := by
  cases p with
  | cmd => rfl
  | par => exact absurd hd hs.noInit
  | rd => cases hd

theorem stepTo_legal (hs : Legal s) (h : StepTo s t) : Legal t := by
  cases h with
  | idle => exact hs
  | rst rest => exact powerOn_legal _
  | read w rest => exact answer_legal _ (withHost_legal rest hs)
  | untaken p w rest _ _ hf => exact withHost_legal rest (holdWord_legal p w hf hs)
  | sample x rest _ he => exact sampleStep_legal x he.2 (withHost_legal rest hs)
  | reject p w rest c _ _ hc =>
    exact raiseFault_legal (by rcases hc with rfl | rfl <;> decide) (withHost_legal rest hs)
  | awaits p op rest _ he hl =>
    obtain ⟨-, -, hremain, -⟩ := he
    refine withHost_legal rest (setDecoder_legal (fun hp => .inr (hremain hp)) ?_ hs)
    rintro rfl heq
    cases heq
    exact absurd hl (by decide)
  | command p i rest _ he hl =>
    obtain ⟨-, -, -, hnone⟩ := he
    refine execTo_legal ?_ (withHost_legal rest hs) (execTo_execResult i _)
    rintro cnt rfl
    obtain rfl : p = .cmd := by simpa [Instr.legalOn] using hl
    exact hnone
  | data p op d rest =>
    refine execTo_legal ?_ (withHost_legal rest (setDecoder_legal (fun _ => .inl rfl) (by simp) hs))
      (execTo_execResult _ _)
    intro cnt hi
    cases op <;> cases hi

end

/-- The step of a state, by its case. -/
theorem stepTo_of_step {s t : State} (h : step s = .next t) : StepTo s t := by
  obtain ⟨u, hu, hto⟩ := step_inv s
  obtain rfl : u = t := by simpa [hu] using h
  exact hto

/-- Settles O53: each case of `StepTo` is made of operations that keep a legal state legal. -/
theorem stepKeepsLegal : Obligations.StepKeepsLegal :=
  fun _ _ hs hstep => stepTo_legal hs (stepTo_of_step hstep)

/-! ### OUT, CUR_SCALE and SAMPLE_RATE: the steps that write them -/

/-- Settles O49: of the cases of `StepTo` only a sample touches OUT. -/
theorem outputOnlyFromSampleSteps : Obligations.OutputOnlyFromSampleSteps := by
  intro s t hstep
  cases stepTo_of_step hstep with
  | sample x rest hh he =>
    obtain ⟨c, n, heq, -⟩ := sampleStep_cases x (withHost rest s)
    exact .inr ⟨x, rest, hh, he, by simp [heq], by simp [heq]⟩
  | command | data => exact .inl (by simp [(execTo_execResult _ _).out_eq])
  | _ => exact .inl (by simp)

/-- The words of an INIT, which is legal on CMD only. -/
theorem init_moves {p : Port} {d : Word} (hl : (Instr.init d).legalOn p = true) :
    p = .cmd ∧ (encode (.init d)).map (HostMove.send p) = [.send .cmd 0x10000000#32, .send .cmd d] := by
  obtain rfl : p = .cmd := by simpa [Instr.legalOn] using hl
  exact ⟨rfl, rfl⟩

/-- The word of a RESET, which is legal on CMD only. -/
theorem reset_moves {p : Port} (hl : Instr.reset.legalOn p = true) :
    p = .cmd ∧ (encode .reset).map (HostMove.send p) = [.send .cmd 0x20000000#32] := by
  obtain rfl : p = .cmd := by simpa [Instr.legalOn] using hl
  exact ⟨rfl, rfl⟩

/-- A data word completes an INIT where an INIT waits for it. -/
theorem dataInstr_eq_init {op : DataOp} {d d' : Word} (h : op.instr d = .init d') : op = .init ∧ d = d' := by
  cases op <;> cases h
  exact ⟨rfl, rfl⟩

theorem dataInstr_ne_reset (op : DataOp) (d : Word) : op.instr d ≠ .reset := by cases op <;> simp [DataOp.instr]

/-- Settles O50: RST, RESET and INIT clear CUR_SCALE, and of a sample step only rule A writes it. -/
theorem scaleChangesOnlyAtIndexZero : Obligations.ScaleChangesOnlyAtIndexZero := by
  intro s t hstep hne
  cases stepTo_of_step hstep with
  | rst rest hh => exact .inl ⟨by simp, .inl ⟨rest, hh⟩⟩
  | sample x rest hh he =>
    obtain ⟨c, n, heq, ⟨-, hidx, rfl, rfl⟩ | ⟨-, rfl⟩⟩ := sampleStep_cases x (withHost rest s)
    · exact .inr ⟨he, by simpa using hidx, by simp [heq], by simp [heq]⟩
    · exact absurd (by simp [heq]) hne
  | command p i rest hh he hl =>
    have hto := execTo_execResult i (withHost rest s)
    rcases hto.curScale_cases with hsame | ⟨hzero, rfl | ⟨d, hd, rfl⟩⟩
    · exact absurd (by simpa using hsame) hne
    · obtain ⟨rfl, hw⟩ := reset_moves hl
      exact .inl ⟨hzero, .inr (.inl ⟨he, .inl (by rw [hh, hw, hto.host_eq]; rfl)⟩)⟩
    · obtain ⟨rfl, hw⟩ := init_moves hl
      exact .inl ⟨hzero, .inr (.inl ⟨he, .inr ⟨d, hd, by rw [hh, hw, hto.host_eq]; rfl⟩⟩)⟩
  | data p op d rest _ hh hf _ hdec =>
    have hto := execTo_execResult (op.instr d) (withHost rest (setDecoder p Option.none s))
    rcases hto.curScale_cases with hsame | ⟨hzero, hreset | ⟨d', hd, hinit⟩⟩
    · exact absurd (by simpa using hsame) hne
    · exact absurd hreset (dataInstr_ne_reset op d)
    · obtain ⟨rfl, rfl⟩ := dataInstr_eq_init hinit
      exact .inl ⟨hzero, .inr (.inr ⟨p, d, hf, hdec, hd, by rw [hh, hto.host_eq]; rfl⟩)⟩
  | _ => exact absurd (by simp) hne

/-- Settles O51: of the commands only an INIT writes SAMPLE_RATE, and in a legal state its words come on CMD. -/
theorem rateWrittenOnlyByInitOrRst : Obligations.RateWrittenOnlyByInitOrRst := by
  intro s t hs hstep hne
  cases stepTo_of_step hstep with
  | rst rest hh => exact .inl ⟨⟨rest, hh⟩, by simp⟩
  | sample x rest =>
    obtain ⟨c, n, heq, -⟩ := sampleStep_cases x (withHost rest s)
    exact absurd (by simp [heq]) hne
  | command p i rest hh _ hl =>
    have hto := execTo_execResult i (withHost rest s)
    rcases hto.sampleRate_cases with hsame | ⟨hrate, hcfg, hi⟩
    · exact absurd (by simpa using hsame) hne
    · rw [hi] at hh hl
      obtain ⟨-, hw⟩ := init_moves hl
      exact .inr ⟨hcfg, hrate, .inr (by rw [hh, hw, hto.host_eq]; rfl)⟩
  | data p op d rest _ hh _ _ hdec =>
    have hto := execTo_execResult (op.instr d) (withHost rest (setDecoder p Option.none s))
    rcases hto.sampleRate_cases with hsame | ⟨hrate, hcfg, hi⟩
    · exact absurd (by simpa using hsame) hne
    · obtain ⟨rfl, hd⟩ := dataInstr_eq_init hi
      obtain rfl := hs.port_of_awaits_init hdec
      exact .inr ⟨hcfg, hrate, .inl ⟨hdec, by rw [hh, hto.host_eq, ← hd]; rfl⟩⟩
  | _ => exact absurd (by simp) hne

/-! ### The states of the resync machine and of the block -/

theorem resyncState_eq_pending_iff (s : State) : resyncState s = .pending ↔ pending s = true := by
  unfold resyncState; split <;> simp [*]

theorem resyncState_eq_synced_iff (s : State) : resyncState s = .synced ↔ pending s = false := by
  unfold resyncState; split <;> simp [*]

/-- Settles O52: without rule A a sample step keeps both scales, and the scales of a legal state have no sign, so
that `!=f` tells their patterns apart. -/
theorem resyncOnlyAtIndexZero : Obligations.ResyncOnlyAtIndexZero := by
  refine ⟨fun x rest s t he hh hstep hpend hsync => ?_, fun cnt s t hs hcfg hexec => ?_⟩
  · rw [step_sample he hh] at hstep
    cases hstep
    rw [resyncState_eq_pending_iff] at hpend
    rw [resyncState_eq_synced_iff] at hsync
    obtain ⟨c, n, heq, ⟨-, hidx, -⟩ | ⟨-, rfl⟩⟩ := sampleStep_cases x (withHost rest s)
    · exact hidx
    · have : pending (sampleStep x (withHost rest s)) = pending s := by rw [heq]; rfl
      simp [this, hpend] at hsync
  · rw [exec_eq, execResult, if_pos hcfg] at hexec
    cases hexec
    obtain ⟨-, hpend⟩ := requestedScale_range (hs.rate hcfg)
    have hcur : s.curScale.toNat ≤ F32.infMag := by
      rcases hs.cur with h | ⟨-, h⟩
      · simp [h]
      · exact h.trans (by decide)
    have hne := F32.fne_iff_ne (hpend.trans (by decide)) hcur
    rw [resyncState_eq_synced_iff, ← Bool.not_eq_true]
    exact (not_congr hne).trans not_not

theorem blockState_congr {s t : State} (hf : t.fault = s.fault) (hc : t.cfg = s.cfg) (hr : t.remain = s.remain) :
    blockState t = blockState s := by
  unfold blockState; rw [hf, hc, hr]

theorem blockState_of_fault {s : State} (hf : s.fault = true) : blockState s = .faulted := by
  simp [blockState, hf]

/-- Without a fault the block is not FAULTED. -/
theorem blockState_ne_faulted {s : State} (hf : s.fault = false) : blockState s ≠ .faulted := by
  unfold blockState; rw [hf]; split_ifs <;> simp_all

/-- CFG with no fault is IDLE or IN_BLOCK, as REMAIN says. -/
theorem blockState_of_cfg {s : State} (hf : s.fault = false) (hc : s.cfg = true) :
    blockState s = if s.remain = 0#24 then .idle else .inBlock := by
  simp [blockState, hf, hc]

/-- Where CMD takes a command word or its data word, the block is UNCONFIGURED or IDLE. -/
theorem blockState_of_remain_eq_zero {s : State} (hf : s.fault = false) (hr : s.remain = 0#24) :
    blockState s = .unconfigured ∨ blockState s = .idle := by
  unfold blockState; rw [hf, hr]; cases s.cfg <;> simp

/-- The moves of the block in a step that is neither an RST nor a last sample (10_state.md R42). -/
inductive CommandMove (a b : BlockState) : Prop where
  | stay : b = a → CommandMove a b
  | fault : a ≠ .faulted → b = .faulted → CommandMove a b
  | init : a = .unconfigured ∨ a = .idle → b = .idle → CommandMove a b
  | process : a = .idle → b = .inBlock → CommandMove a b

/-- A command that is not legal on PAR runs while REMAIN is 0, so no PROCESS is cut short by an INIT or a latch. -/
theorem ExecTo.blockState_move {s t : State} {i : Instr} (h : ExecTo s i t) (hf : s.fault = false)
    (hr : i.legalOn .par = false → s.remain = 0#24) : CommandMove (blockState s) (blockState t) := by
  cases h with
  | configure d =>
    have hidle : blockState (Machine.configure d s) = .idle := blockState_of_cfg hf rfl
    exact .init (blockState_of_remain_eq_zero hf (hr rfl)) hidle
  | clear => exact .stay (blockState_congr rfl rfl rfl)
  | latch cnt hc =>
    have hidle : blockState s = .idle := by simp [blockState_of_cfg hf hc, hr rfl]
    have hlatch : blockState (Machine.latch cnt s) = if cnt = 0#24 then .idle else .inBlock :=
      blockState_of_cfg hf hc
    by_cases hcnt : cnt = 0#24
    · exact .stay (by rw [hlatch, if_pos hcnt, hidle])
    · exact .process hidle (by rw [hlatch, if_neg hcnt])
  | badRate | unready => exact .fault (blockState_ne_faulted hf) (blockState_of_fault rfl)
  | write => exact .stay (blockState_congr rfl rfl rfl)

/-- A sample step stays IN_BLOCK, or ends it with the last sample. -/
theorem sampleStep_blockState {x : Word} {s : State} (hf : s.fault = false) (hc : s.cfg = true)
    (hr : s.remain ≠ 0#24) :
    blockState s = .inBlock ∧
      (blockState (sampleStep x s) = .inBlock ∨ blockState (sampleStep x s) = .idle ∧ s.remain = 1#24) := by
  obtain ⟨c, n, heq, -⟩ := sampleStep_cases x s
  have hend : blockState (sampleStep x s) = if s.remain - 1#24 = 0#24 then .idle else .inBlock := by
    rw [heq]; exact blockState_of_cfg hf hc
  refine ⟨by rw [blockState_of_cfg hf hc, if_neg hr], ?_⟩
  by_cases hlast : s.remain - 1#24 = 0#24
  · exact .inr ⟨by rw [hend, if_pos hlast], by bv_omega⟩
  · exact .inl (by rw [hend, if_neg hlast])

/-- The moves of the block from a legal state: RST's, that of a last sample, and the rest. -/
theorem stepTo_blockState {s t : State} (hs : Legal s) (h : StepTo s t) :
    (∃ rest, s.host = .rst :: rest) ∧ blockState t = .unconfigured ∨
      (blockState s = .inBlock ∧ blockState t = .idle ∧ s.remain = 1#24) ∨
      CommandMove (blockState s) (blockState t) := by
  cases h with
  | idle => exact .inr (.inr (.stay rfl))
  | rst rest hh => exact .inl ⟨⟨rest, hh⟩, rfl⟩
  | read w rest => exact .inr (.inr (.stay (blockState_congr rfl rfl rfl)))
  | untaken p w rest => exact .inr (.inr (.stay (blockState_congr (by simp) (by simp) (by simp))))
  | sample x rest _ he =>
    obtain ⟨hf, hr⟩ := he
    obtain ⟨hcfg, -, -⟩ := hs.block hr
    obtain ⟨hin, hstay | ⟨hidle, hlast⟩⟩ := sampleStep_blockState (x := x) (s := withHost rest s) hf hcfg hr
    · exact .inr (.inr (.stay (hstay.trans hin.symm)))
    · exact .inr (.inl ⟨hin, hidle, hlast⟩)
  | reject p w rest c _ he =>
    obtain ⟨-, hf, -, -⟩ := he
    exact .inr (.inr (.fault (blockState_ne_faulted hf) (blockState_of_fault rfl)))
  | awaits p op rest => exact .inr (.inr (.stay (blockState_congr (by simp) (by simp) (by simp))))
  | command p i rest _ he hl =>
    obtain ⟨hp, hf, hr, -⟩ := he
    refine .inr (.inr ((execTo_execResult i (withHost rest s)).blockState_move hf fun hpar => ?_))
    cases p with
    | cmd => exact hr rfl
    | par => simp [hpar] at hl
    | rd => exact absurd rfl hp
  | data p op d rest _ _ hf hr hdec =>
    have hsame : blockState (withHost rest (setDecoder p Option.none s)) = blockState s :=
      blockState_congr (by simp) (by simp) (by simp)
    rw [← hsame]
    refine .inr (.inr ((execTo_execResult (op.instr d) _).blockState_move (by simpa using hf) fun hpar => ?_))
    obtain rfl : op = .init := by cases op <;> first | rfl | cases hpar
    simpa using hr (hs.port_of_awaits_init hdec)

/-- Settles O55: every move of `stepTo_blockState` is one of R42's, and only RST's ends UNCONFIGURED. -/
theorem blockStateTransitions : Obligations.BlockStateTransitions := by
  intro s t hs hstep
  rcases stepTo_blockState hs (stepTo_of_step hstep) with ⟨hrst, ht⟩ | ⟨ha, hb, hlast⟩ | hmove
  · simp [allowedTransition, ht, hrst]
  · simp [allowedTransition, ha, hb, hlast]
  · cases hmove with
    | stay h => simp +contextual [allowedTransition, h]
    | fault ha hb => simp [allowedTransition, ha, hb]
    | init ha hb => rcases ha with ha | ha <;> simp [allowedTransition, ha, hb]
    | process ha hb => simp [allowedTransition, ha, hb]

/-! ### The read map and STATUS -/

/-- LAT_SEL as it reads (10_state.md R36). -/
theorem bit_setWidth (t : Table) : t.bit.setWidth 32 = if t = .sine then 0x00000000#32 else 0x00000001#32 := by
  cases t <;> rfl

/-- Settles O38: with LAT_SEL and REMAIN spelt as `readReg` spells them, the map agrees address by address. -/
theorem readMap : Obligations.ReadMap := by
  intro a s
  rw [exec_eq, execResult, answer]
  simp only [← bit_setWidth, BitVec.ofNat_toNat]
  congr 4
  obtain ⟨⟨k, hk⟩⟩ := a
  interval_cases k <;> rfl

/-- Fields side by side, as a number. -/
theorem append_toNat {m n : Nat} (x : BitVec m) (y : BitVec n) : (x ++ y).toNat = x.toNat * 2 ^ n + y.toNat := by
  rw [BitVec.toNat_append, ← Nat.shiftLeft_add_eq_or_of_lt y.isLt, Nat.shiftLeft_eq]

/-- A condition's weight in a sum, as a multiple of its bit. -/
theorem weight_eq_mul_bit (b : Bool) (n : Nat) : (if b = true then n else 0) = n * b.toNat := by cases b <;> simp

theorem weight_eq_mul_busy (s : State) (n : Nat) : (if s.remain = 0#24 then 0 else n) = n * (busy s).toNat := by
  rw [← weight_eq_mul_bit, busy]; simp only [bne_iff_ne, ite_not]

/-- The fields of STATUS, side by side, as one sum. -/
theorem statusWord_toNat (s : State) :
    (statusWord s).toNat =
      1 * s.cfg.toNat + 2 * s.fault.toNat + 4 * (busy s).toNat + 8 * (pending s).toNat + 16 * s.cause.code.toNat := by
  simp only [statusWord, append_toNat, BitVec.toNat_ofBool, BitVec.toNat_ofNat]
  omega

/-- Settles O39: both sides weigh the same bits, and the codes of the causes agree one by one. -/
theorem statusLayout : Obligations.StatusLayout := by
  intro s
  refine (statusWord_toNat s).trans ?_
  simp only [weight_eq_mul_bit, weight_eq_mul_busy, pending]
  congr 2
  cases s.cause <;> rfl

end Sys2Proof.Machine
end

section
/-! PROOFS. The family 20_memory.md: the bytes of a word, the order of commands on two ports, and reads. The idea for
reads: whatever a step takes together, the block ends as if it had taken its moves one at a time, and so taken a read
changes nothing but the record of answers. -/

namespace Sys2Proof

/-! ### The byte-wide transport -/

/-- A word put together from its four bytes (20_memory.md R49). -/
theorem append_bytesOfWord (w : Word) :
    w.extractLsb' 24 8 ++ w.extractLsb' 16 8 ++ w.extractLsb' 8 8 ++ w.extractLsb' 0 8 = w := by
  rw [BitVec.extractLsb'_append_extractLsb'_eq_extractLsb' (by rfl : 24 = 16 + 8),
    BitVec.extractLsb'_append_extractLsb'_eq_extractLsb' (by rfl : 16 = 8 + 8),
    BitVec.extractLsb'_append_extractLsb'_eq_extractLsb' (by rfl : 8 = 0 + 8)]
  exact BitVec.extractLsb'_eq_self

theorem bytesOfWord_toNat (w : Word) : (bytesOfWord w).map BitVec.toNat =
    [w.toNat % 256, w.toNat / 2 ^ 8 % 256, w.toNat / 2 ^ 16 % 256, w.toNat / 2 ^ 24 % 256] := by
  simp [bytesOfWord, BitVec.extractLsb'_toNat, Nat.shiftRight_eq_div_pow]

/-- Bytes that do not fill a word are no word yet (20_memory.md R51). -/
theorem wordsOfBytes_of_length_lt {part : List Byte} (h : part.length < 4) : wordsOfBytes part = [] := by
  match part with
  | [] | [_] | [_, _] | [_, _, _] => rfl
  | _ :: _ :: _ :: _ :: _ => simp at h; omega

theorem wordsOfBytes_bytesOfWords (ws : List Word) {part : List Byte} (h : part.length < 4) :
    wordsOfBytes (bytesOfWords ws ++ part) = ws := by
  induction ws with
  | nil => exact wordsOfBytes_of_length_lt h
  | cons w ws ih =>
    calc wordsOfBytes (bytesOfWords (w :: ws) ++ part)
      _ = (w.extractLsb' 24 8 ++ w.extractLsb' 16 8 ++ w.extractLsb' 8 8 ++ w.extractLsb' 0 8) ::
            wordsOfBytes (bytesOfWords ws ++ part) := rfl
      _ = w :: ws := by rw [append_bytesOfWord, ih]

end Sys2Proof

namespace Sys2Proof.Machine

/-- Settles O5: the words come back from their bytes, and decoding bytes is decoding the words they make. -/
theorem bytesGoLeastSignificantFirst : Obligations.BytesGoLeastSignificantFirst :=
  ⟨bytesOfWord_toNat, fun _ ws _ h =>
    have hwords := wordsOfBytes_bytesOfWords ws h
    ⟨hwords, by rw [decodeBytes, hwords]⟩⟩

/-! ### Whole commands, one after the other -/

/-- The words of a whole command, taken where a port expects a command word (30_encoding.md R73, R74). -/
theorem takeCommand_encode {p : Port} {i : Instr} (hp : p ≠ .rd) (hl : i.legalOn p = true) (rest : List HostMove)
    (s : State) :
    takeCommand p (encodeHead i) ((encodeData i).map (.send p) ++ rest) s = .instr i (withHost rest s) := by
  cases i with
  | rd a => exact absurd (by simpa [Instr.legalOn] using hl) hp
  | init d | reset | process cnt | processS cnt =>
    obtain rfl : p = .cmd := by simpa [Instr.legalOn] using hl
    simp [takeCommand, decodeHead, encodeHead, encodeData, opcodeLegal, reservedSet, rowOf, DataOp.instr]
  | setFreq d | setDepth d | setWave d =>
    cases p with
    | rd => exact absurd rfl hp
    | cmd | par =>
      simp [takeCommand, decodeHead, encodeHead, encodeData, opcodeLegal, reservedSet, rowOf, DataOp.instr]

@[simp] theorem expectsCommand_withHost (p : Port) (moves : List HostMove) (s : State) :
    expectsCommand p (withHost moves s) ↔ expectsCommand p s := by
  rw [expectsCommand, decoder_withHost]; rfl

/-- What a command does to the registers does not depend on the host's moves to come. -/
@[simp] theorem execResult_withHost (i : Instr) (moves : List HostMove) (s : State) :
    execResult i (withHost moves s) = withHost moves (execResult i s) := by
  cases i with
  | init | process | processS => simp only [execResult, apply_ite (withHost moves)]; rfl
  | reset | setFreq | setDepth | setWave | rd => rfl

/-- The words of a whole command, as the host's next moves (10_state.md R25). -/
theorem fetch_encode {p : Port} {i : Instr} {s : State} (rest : List HostMove) (he : expectsCommand p s)
    (hl : i.legalOn p = true) :
    fetch (withHost ((encode i).map (.send p) ++ rest) s) = .instr i (withHost rest s) :=
  (fetch_command ((expectsCommand_withHost ..).2 he) rfl).trans (takeCommand_encode he.1 hl rest _)

theorem step_encode {p : Port} {i : Instr} {s : State} (rest : List HostMove) (he : expectsCommand p s)
    (hl : i.legalOn p = true) :
    step (withHost ((encode i).map (.send p) ++ rest) s) = .next (withHost rest (execResult i s)) := by
  rw [step, fetch_encode rest he hl, ← execResult_withHost]
  exact exec_eq i _

/-- Two whole commands, each where its port expects one. -/
theorem runSteps_two_commands {p q : Port} {i j : Instr} {s : State} (rest : List HostMove) (hp : expectsCommand p s)
    (hi : i.legalOn p = true) (hq : expectsCommand q (execResult i s)) (hj : j.legalOn q = true) :
    runSteps 2 (withHost (sendAll [(p, i), (q, j)] ++ rest) s) =
      .next (withHost rest (execResult j (execResult i s))) := by
  have hmoves : sendAll [(p, i), (q, j)] ++ rest =
      (encode i).map (.send p) ++ ((encode j).map (.send q) ++ rest) := by simp [sendAll]
  rw [hmoves, runSteps_succ (step_encode _ hp hi), runSteps_succ (step_encode _ hq hj), runSteps]

/-- A command legal on PAR writes FREQ, DEPTH and WAVE only, and its values do not depend on the other registers: the
state it answers from `s`, and from the latch of `s` (41_parameters.md R89 to R91). -/
theorem execResult_of_legalOn_par {i : Instr} (hl : i.legalOn .par = true) (s : State) :
    ∃ f d w, execResult i s = { s with freq := f, depth := d, wave := w } ∧
      ∀ cnt, execResult i (latch cnt s) = { latch cnt s with freq := f, depth := d, wave := w } := by
  cases i with
  | init | reset | process | processS | rd => exact absurd hl (by simp [Instr.legalOn])
  | setFreq d => exact ⟨d, s.depth, s.wave, rfl, fun _ => rfl⟩
  | setDepth d => exact ⟨s.freq, d, s.wave, rfl, fun _ => rfl⟩
  | setWave k => exact ⟨s.freq, s.depth, k, rfl, fun _ => rfl⟩

theorem selectTable_eq_sine_iff (wave : Word) : selectTable wave = .sine ↔ wave = 1#32 := by
  unfold selectTable Config.waveSine; split <;> simp_all

/-- Settles O16: in one order the latch reads the state the write left, in the other the write comes after it and
leaves what it latched. -/
theorem latchSeesCompletedWritesOnly : Obligations.LatchSeesCompletedWritesOnly := by
  intro i cnt rest s u hl hcmd hpar hcfg hu
  obtain rfl : execResult i s = u := by simpa [exec_eq] using hu
  obtain ⟨f, d, w, hwrite, hafter⟩ := execResult_of_legalOn_par hl s
  have hlatch : ∀ t : State, t.cfg = true → execResult (.process cnt) t = latch cnt t := fun _ h => if_pos h
  have hcfg' : (execResult i s).cfg = true := by rw [hwrite]; exact hcfg
  have hcmd' : expectsCommand .cmd (execResult i s) := by rw [hwrite]; exact hcmd
  have hpar' : expectsCommand .par (execResult (.process cnt) s) := by
    obtain ⟨hp, hf, -, hd⟩ := hpar
    rw [hlatch s hcfg]; exact ⟨hp, hf, by simp, hd⟩
  refine ⟨_, _, runSteps_two_commands rest hpar hl hcmd' rfl, runSteps_two_commands rest hcmd rfl hpar' hl, ?_⟩
  rw [hlatch s hcfg, hlatch _ hcfg', hafter, hwrite]
  simp [requestedScale, samplesPerCycle, Config.k2000, selectTable_eq_sine_iff]

/-! ### Moves taken one at a time -/

/-- The block without the two records that are no state of it: what the host does next, and what it has read. -/
def bare (s : State) : State := { s with rdOut := [], host := [] }

@[simp] theorem bare_withHost (moves : List HostMove) (s : State) : bare (withHost moves s) = bare s := rfl
@[simp] theorem bare_answer (v : Word) (s : State) : bare (answer v s) = bare s := rfl
@[simp] theorem bare_powerOn (s : State) : bare (powerOn s) = powerOn (bare s) := rfl
@[simp] theorem bare_raiseFault (c : Cause) (s : State) : bare (raiseFault c s) = raiseFault c (bare s) := rfl
@[simp] theorem bare_remain (s : State) : (bare s).remain = s.remain := rfl
@[simp] theorem bare_fault (s : State) : (bare s).fault = s.fault := rfl

@[simp] theorem bare_decoder (p : Port) (s : State) : decoder p (bare s) = decoder p s := by cases p <;> rfl

@[simp] theorem bare_setDecoder (p : Port) (op : Option DataOp) (s : State) :
    bare (setDecoder p op s) = setDecoder p op (bare s) := by
  cases p <;> rfl

@[simp] theorem bare_holdWord (p : Port) (w : Word) (s : State) : bare (holdWord p w s) = holdWord p w (bare s) := by
  cases p <;> rfl

theorem bare_resyncA (idx : Nat) (s : State) : bare (resyncA idx s) = resyncA idx (bare s) := apply_ite bare _ _ _

theorem bare_resyncB (idx : Nat) (s : State) : bare (resyncB idx s) = resyncB idx (bare s) := apply_ite bare _ _ _

@[simp] theorem bare_sampleStep (x : Word) (s : State) : bare (sampleStep x s) = sampleStep x (bare s) :=
  calc bare (sampleStep x s)
    _ = emit (sampleOut x s) (countSample (bare (resyncB (stepIndex s) (resyncA (stepIndex s) s)))) := rfl
    _ = emit (sampleOut x s) (countSample (resyncB (stepIndex s) (resyncA (stepIndex s) (bare s)))) := by
      rw [bare_resyncB, bare_resyncA]
    _ = sampleStep x (bare s) := rfl

/-- A command of CMD or PAR neither looks at the records nor writes them. -/
theorem bare_execResult {i : Instr} {p : Port} (hp : p ≠ .rd) (hl : i.legalOn p = true) (s : State) :
    bare (execResult i s) = execResult i (bare s) := by
  cases i with
  | init | process | processS => simp only [execResult, apply_ite bare]; rfl
  | reset | setFreq | setDepth | setWave => rfl
  | rd => exact absurd (by simpa [Instr.legalOn] using hl) hp

@[simp] theorem bare_execResult_data (op : DataOp) (d : Word) (s : State) :
    bare (execResult (op.instr d) s) = execResult (op.instr d) (bare s) :=
  bare_execResult (p := .cmd) (by simp) (by cases op <;> rfl) s

/-- A word where a port expects a command word, taken alone: a data word that it asks for is awaited. -/
def takeFirst (p : Port) (w : Word) (s : State) : State :=
  match decodeHead p w with
  | .whole i => execResult i s
  | .needsData op => setDecoder p (some op) s
  | .illegalOpcode => raiseFault .illegalOpcode s
  | .reservedBits => raiseFault .reservedBits s

/-- A word on CMD or PAR, taken alone. -/
def takeAlone (p : Port) (w : Word) (s : State) : State :=
  if s.fault = true then holdWord p w s
  else if p = .cmd ∧ s.remain ≠ 0#24 then sampleStep w s
  else
    match decoder p s with
    | some op => execResult (op.instr w) (setDecoder p Option.none s)
    | Option.none => takeFirst p w s

/-- What one move of the host makes of the block, a read nothing. -/
def takeMove (s : State) : HostMove → State
  | .rst => powerOn s
  | .send .rd _ => s
  | .send .cmd w => takeAlone .cmd w s
  | .send .par w => takeAlone .par w s

/-- The block once it has taken all the host's moves, one at a time. -/
def settled (s : State) : State := s.host.foldl takeMove (bare s)

theorem takeMove_send {p : Port} (hp : p ≠ .rd) (w : Word) (s : State) :
    takeMove s (.send p w) = takeAlone p w s := by
  cases p with
  | cmd | par => rfl
  | rd => exact absurd rfl hp

/-- `t` has fewer of the host's moves to take than `s`, if `s` has any, and settles where `s` does. -/
def Takes (s t : State) : Prop := settled t = settled s ∧ t.host.length ≤ s.host.length - 1

section
variable {p : Port} {s t : State} {w : Word} {m : HostMove} {rest : List HostMove}

theorem Takes.one (h : s.host = m :: rest) (hhost : t.host = rest) (hbare : bare t = takeMove (bare s) m) :
    Takes s t := by
  simp [Takes, settled, h, hhost, hbare]

@[simp] theorem execResult_host (i : Instr) (s : State) : (execResult i s).host = s.host :=
  (execTo_execResult i s).host_eq

@[simp] theorem sampleStep_host (x : Word) (s : State) : (sampleStep x s).host = s.host := by
  obtain ⟨c, n, heq, -⟩ := sampleStep_cases x s
  rw [heq]

theorem takeMove_of_fault (hp : p ≠ .rd) (hf : s.fault = true) : takeMove s (.send p w) = holdWord p w s :=
  (takeMove_send hp w s).trans (if_pos hf)

theorem takeMove_of_remain (hf : s.fault = false) (hr : s.remain ≠ 0#24) :
    takeMove s (.send .cmd w) = sampleStep w s := by
  simp [takeMove, takeAlone, hf, hr]

theorem takeMove_of_decoder {op : DataOp} (hp : p ≠ .rd) (hf : s.fault = false) (hr : ¬(p = .cmd ∧ s.remain ≠ 0#24))
    (hd : decoder p s = some op) :
    takeMove s (.send p w) = execResult (op.instr w) (setDecoder p Option.none s) := by
  rw [takeMove_send hp, takeAlone, if_neg (by simp [hf]), if_neg hr, hd]

theorem takeMove_of_expectsCommand (he : expectsCommand p s) : takeMove s (.send p w) = takeFirst p w s := by
  obtain ⟨hp, hf, hr, hd⟩ := he
  rw [takeMove_send hp, takeAlone, if_neg (by simp [hf]), if_neg fun h => h.2 (hr h.1), hd]

theorem expectsCommand_bare : expectsCommand p (bare s) ↔ expectsCommand p s := by
  rw [expectsCommand, bare_decoder]; rfl

/-- A decoder that waits, and no longer waits. -/
theorem setDecoder_none_setDecoder {op : DataOp} (hd : decoder p s = Option.none) :
    setDecoder p Option.none (setDecoder p (some op) s) = s := by
  cases s
  cases p with
  | rd => rfl
  | cmd | par => cases hd; rfl

/-- A command word and its data word taken together, or one after the other. -/
theorem takeMove_dataWord {op : DataOp} {d : Word} (he : expectsCommand p s) (hw : decodeHead p w = .needsData op) :
    takeMove (takeMove s (.send p w)) (.send p d) = execResult (op.instr d) s := by
  have ⟨hp, hf, hr, hd⟩ := he
  have hfirst : takeMove s (.send p w) = setDecoder p (some op) s := by
    rw [takeMove_of_expectsCommand he, takeFirst, hw]
  rw [hfirst, takeMove_of_decoder hp (by simpa using hf) (by simpa using hr) (setDecoder_decoder hp _ _),
    setDecoder_none_setDecoder hd]

/-- The step that takes a command word. -/
theorem step_takes_command (he : expectsCommand p s) (h : s.host = .send p w :: rest) :
    ∃ t, step s = .next t ∧ Takes s t := by
  have hfirst : takeMove (bare s) (.send p w) = takeFirst p w (bare s) :=
    takeMove_of_expectsCommand (expectsCommand_bare.2 he)
  rw [step, fetch_command he h]
  rcases takeCommand_cases p w rest s with ⟨hw, hf⟩ | ⟨hw, hf⟩ | ⟨i, hw, hf⟩ | ⟨op, d, rest', hw, rfl, hf⟩ |
      ⟨op, hw, -, hf⟩ <;> rw [hf]
  · exact ⟨_, rfl, .one h rfl (by rw [hfirst, takeFirst, hw]; rfl)⟩
  · exact ⟨_, rfl, .one h rfl (by rw [hfirst, takeFirst, hw]; rfl)⟩
  · have hl : i.legalOn p = true := ((decodeHead_row he.1).1 i hw).2
    exact ⟨_, exec_eq i _, .one h (by simp) (by rw [hfirst, takeFirst, hw]; exact bare_execResult he.1 hl _)⟩
  · refine ⟨_, exec_eq _ _, ?_, by simp [h]⟩
    have hboth := takeMove_dataWord (d := d) (expectsCommand_bare.2 he) hw
    simp [settled, h, hboth]
  · exact ⟨_, rfl, .one h rfl (by rw [hfirst, takeFirst, hw]; simp)⟩

/-- A step keeps where the block settles. A command word and its data word, which 10_state.md R25 makes one step, are no
exception. -/
theorem step_takes (s : State) : ∃ t, step s = .next t ∧ Takes s t := by
  rcases step_cases s with ⟨h, hs⟩ | ⟨rest, h, hs⟩ | ⟨w, rest, h, hs⟩ | ⟨p, w, rest, hp, h, hfetch⟩
  · exact ⟨s, hs, rfl, by simp [h]⟩
  · exact ⟨_, hs, .one h rfl rfl⟩
  · exact ⟨_, hs.trans (exec_eq _ _), .one h rfl rfl⟩
  · rcases takeWord_cases p w rest s with ⟨hf, hw⟩ | ⟨hf, rfl, hr, hw⟩ | ⟨op, hf, hr, hd, hw⟩ | ⟨hf, hr, hd, -⟩
    · exact ⟨_, by rw [step, hfetch, hw], .one h (by simp) (by simp [takeMove_of_fault hp (s := bare s) hf])⟩
    · exact ⟨_, by rw [step, hfetch, hw], .one h (by simp) (by simp [takeMove_of_remain (s := bare s) hf hr])⟩
    · refine ⟨_, by rw [step, hfetch, hw]; exact exec_eq _ _, .one h (by simp) ?_⟩
      simp [takeMove_of_decoder (s := bare s) hp hf hr (by simpa using hd)]
    · exact step_takes_command ⟨hp, hf, by simpa using hr, hd⟩ h

end

/-- A run long enough for all the host's moves ends where the moves, taken one at a time, lead. -/
theorem runSteps_settles (k : Nat) (s : State) (h : s.host.length ≤ k) :
    ∃ t, runSteps k s = .next t ∧ bare t = settled s := by
  induction k generalizing s with
  | zero =>
    have hnil : s.host = [] := by simpa using h
    exact ⟨s, rfl, by rw [settled, hnil, List.foldl_nil]⟩
  | succ k ih =>
    obtain ⟨u, hu, hsettled, hlength⟩ := step_takes s
    rw [runSteps_succ hu, ← hsettled]
    exact ih u (by omega)

/-! ### Reads -/

/-- A read takes no part in where the block ends (20_memory.md R54, R59). -/
theorem settled_filter_notRead (s : State) : settled (withHost (s.host.filter HostMove.notRead) s) = settled s := by
  have hskip : (fun s m => if HostMove.notRead m = true then takeMove s m else s) = takeMove := by
    funext s m
    match m with
    | .rst | .send .cmd _ | .send .par _ | .send .rd _ => rfl
  rw [settled, withHost_host, List.foldl_filter, hskip, bare_withHost, settled]

/-- Settles O40: the run and the run without the reads settle in one and the same block. -/
theorem readsDoNotInterfere : Obligations.ReadsDoNotInterfere := by
  intro s
  obtain ⟨t, ht, hbt⟩ := runSteps_settles s.host.length s le_rfl
  obtain ⟨u, hu, hbu⟩ := runSteps_settles s.host.length (withHost (s.host.filter HostMove.notRead) s)
    (List.length_filter_le _ _)
  have hbare : bare t = bare u := by rw [hbt, hbu, settled_filter_notRead]
  injection hbare
  exact ⟨t, u, ht, hu, by simp only [sameRegisters, *, and_self]⟩

end Sys2Proof.Machine
end

section
/-! PROOFS. The family 21_wavetable_rom.md: the range of the ROM, and how far its listing lies from the formulas R64 and
R65. The idea: 2000 rotations by 2π/2000 in fixed point pass close to every angle the formulas ask for, so the kernel
compares each entry with integers only; the analysis is in the two points the rotations start from. -/

namespace Sys2Proof.Machine

open Sys2Proof.Laws.Rotation

/-! ### The listing as one list -/

/-- The entries of a table, in the order of their indices. -/
def listing (sel : Table) : List Nat := (romBlocks sel).flatten

theorem romBlocks_length (sel : Table) : ∀ b ∈ romBlocks sel, b.length = 100 := by cases sel <;> decide +kernel

theorem listing_length (sel : Table) : (listing sel).length = 2000 := by cases sel <;> decide +kernel

theorem listing_lt (sel : Table) : ∀ x ∈ listing sel, x < 2 ^ 32 := by cases sel <;> decide +kernel

/-- Finding an entry of equal blocks by quotient and remainder. -/
theorem getD_flatten {n : Nat} (hn : 0 < n) : ∀ (bs : List (List Nat)), (∀ b ∈ bs, b.length = n) → ∀ i,
    bs.flatten.getD i 0 = (bs.getD (i / n) []).getD (i % n) 0
  | [], _, i => by simp
  | b :: bs, hb, i => by
    have hlen : b.length = n := hb b List.mem_cons_self
    rw [List.flatten_cons]
    rcases Nat.lt_or_ge i n with hi | hi
    · rw [List.getD_append _ _ _ _ (by omega), Nat.div_eq_of_lt hi, Nat.mod_eq_of_lt hi, List.getD_cons_zero]
    · rw [List.getD_append_right _ _ _ _ (by omega), hlen, Nat.div_eq_sub_div hn hi, Nat.mod_eq_sub_mod hi,
        List.getD_cons_succ, getD_flatten hn bs (fun c hc => hb c (List.mem_cons_of_mem b hc)) (i - n)]

theorem romRead_toNat {sel : Table} {i : Nat} (hi : i < (listing sel).length) :
    (romRead sel i).toNat = (listing sel)[i] := by
  rw [romRead, ← getD_flatten (by omega) _ (romBlocks_length sel)]
  change (BitVec.ofNat 32 ((listing sel).getD i 0)).toNat = _
  rw [List.getD_eq_getElem _ _ hi, BitVec.toNat_ofNat, Nat.mod_eq_of_lt (listing_lt sel _ (List.getElem_mem hi))]

/-- What holds of every entry of the listing and its index holds of what the ROM reads. -/
theorem forall_romRead {sel : Table} {P : Nat → Nat → Prop} (h : ∀ p ∈ (listing sel).zipIdx, P p.1 p.2) {i : Nat}
    (hi : i < 2000) : P (romRead sel i).toNat i := by
  have hl : i < (listing sel).length := by rwa [listing_length]
  rw [romRead_toNat hl]
  exact h ((listing sel)[i], i) (List.mk_mem_zipIdx_iff_getElem?.2 (List.getElem?_eq_getElem hl))

/-! ### The range of the entries (R68) -/

theorem sine_range {i : Nat} (hi : i < 2000) :
    (romRead .sine i).toNat ≤ 0x3F800000 ∧ ((romRead .sine i).toNat = 0x3F800000 ↔ i = 500) ∧
      ((romRead .sine i).toNat = 0 ↔ i = 1500) :=
  forall_romRead (P := fun x i => x ≤ 0x3F800000 ∧ (x = 0x3F800000 ↔ i = 500) ∧ (x = 0 ↔ i = 1500))
    (by decide +kernel) hi

/-- Bit 31 is set from entry 1367 to entry 1429. -/
theorem square_sign {i : Nat} (hi : i < 2000) : 2 ^ 31 < (romRead .square i).toNat ↔ 1367 ≤ i ∧ i ≤ 1429 :=
  forall_romRead (P := fun x i => 2 ^ 31 < x ↔ 1367 ≤ i ∧ i ≤ 1429) (by decide +kernel) hi

theorem square_above_one {i : Nat} (hi : i < 2000) :
    (romRead .square i).toNat < 2 ^ 31 ∧ 0x3F800000 < (romRead .square i).toNat ↔
      25 ≤ i ∧ i ≤ 177 ∨ 200 ≤ i ∧ i ≤ 596 ∨ 619 ≤ i ∧ i ≤ 772 :=
  forall_romRead (P := fun x i => x < 2 ^ 31 ∧ 0x3F800000 < x ↔
    25 ≤ i ∧ i ≤ 177 ∨ 200 ≤ i ∧ i ≤ 596 ∨ 619 ≤ i ∧ i ≤ 772) (by decide +kernel) hi

/-- No pattern with bit 31 lies above that of the minimum, and none without it above that of the maximum. -/
theorem square_extremes {i : Nat} (hi : i < 2000) :
    (romRead .square i).toNat ≤ 0xBB010564 ∧
      ((romRead .square i).toNat < 2 ^ 31 → (romRead .square i).toNat ≤ 0x3F8146A8) :=
  forall_romRead (P := fun x _ => x ≤ 0xBB010564 ∧ (x < 2 ^ 31 → x ≤ 0x3F8146A8)) (by decide +kernel) hi

/-- A word below +0.0, by the pattern: -0.0 is not. -/
theorem lt_zero_iff {v : Word} (hv : F32.isNaN v = false) : F32.lt v 0#32 = true ↔ 2 ^ 31 < v.toNat := by
  constructor
  · intro hlt
    have hz : F32.isNaN 0#32 = false ∧ F32.value 0#32 = 0 := by decide
    simp only [F32.lt, hv, hz, F32.value_eq v, Bool.not_false, Bool.true_and, decide_eq_true_eq] at hlt
    split at hlt <;> rename_i hs
    · rcases Nat.eq_or_lt_of_le hs with heq | hgt
      · rw [← heq] at hlt; exact absurd hlt (by decide)
      · exact hgt
    · omega
  · intro hs
    by_contra hlt
    rw [eq_negZero_of_not_lt_zero hv hlt hs.le] at hs
    exact absurd hs (by decide)

/-- A word at least a negative one, by the patterns. -/
theorem neg_le_iff {v c : Word} (hv : F32.isNaN v = false) (hc : F32.isNaN c = false) (hs : 2 ^ 31 < c.toNat) :
    F32.le c v = true ↔ v.toNat < 2 ^ 31 ∨ v.toNat ≤ c.toNat := by
  have hvm := (F32.isNaN_eq_false_iff v).1 hv
  have hcm := (F32.isNaN_eq_false_iff c).1 hc
  have hle := F32.unitsOf_le_iff hvm hcm
  simp only [F32.le, hv, hc, Bool.not_false, Bool.true_and, decide_eq_true_eq, F32.value_eq, if_pos hs.le]
  split <;> omega

/-- Settles O36: the range of the patterns, read as an order of values. -/
theorem romRange : Obligations.RomRange := by
  intro i hi
  obtain ⟨hle, hone, hzero⟩ := sine_range hi
  obtain ⟨hmin, hmax⟩ := square_extremes hi
  have hmin_eq : romRead .square 1398 = 0xBB010564#32 := by decide +kernel
  have hmax_eq : romRead .square 398 = 0x3F8146A8#32 := by decide +kernel
  have hnan : F32.isNaN (romRead .square i) = false := by
    rw [F32.isNaN_eq_false_iff, F32.infMag]; omega
  have hOne : (0x3F800000#32).toNat ≤ F32.infMag := by decide
  have hMax : (0x3F8146A8#32).toNat ≤ F32.infMag := by decide
  refine ⟨hle, ?_, ?_, ?_, ?_, ?_, ?_, hmin_eq, hmax_eq⟩
  · rw [← hone, ← BitVec.toNat_inj]; rfl
  · rw [← hzero, ← BitVec.toNat_inj]; rfl
  · rw [lt_zero_iff hnan, square_sign hi]
  · rw [F32.pos_lt_iff hnan hOne (by decide), ← square_above_one hi]; rfl
  · rw [hmin_eq, neg_le_iff hnan (by decide) (by decide)]; exact .inr hmin
  · rw [hmax_eq, F32.le_iff_not_gt hnan hMax (by decide), F32.pos_lt_iff hnan hMax (by decide)]
    rintro ⟨hpos, habove⟩
    exact absurd (hmax hpos) (by simpa using habove)

/-! ### Fixed-point points near points of the unit circle -/

/-- The exponential series of a point of the unit circle, its first ten terms. -/
noncomputable def taylorPoint (x : ℝ) : ℂ :=
  ⟨1 - x ^ 2 / 2 + x ^ 4 / 24 - x ^ 6 / 720 + x ^ 8 / 40320,
    x - x ^ 3 / 6 + x ^ 5 / 120 - x ^ 7 / 5040 + x ^ 9 / 362880⟩

theorem taylorPoint_eq_sum (x : ℝ) :
    taylorPoint x = ∑ m ∈ Finset.range 10, ((x : ℂ) * Complex.I) ^ m / m.factorial := by
  apply Complex.ext <;> simp [taylorPoint, Finset.sum_range_succ, Nat.factorial, pow_succ] <;> ring

theorem taylorPoint_err {x : ℝ} (hx : |x| ≤ 1) : ‖taylorPoint x - cis x‖ ≤ |x| ^ 10 / 3000000 := by
  have hnorm : ‖(x : ℂ) * Complex.I‖ = |x| := by simp
  have hbound := Complex.exp_bound (x := x * Complex.I) (by rwa [hnorm]) (n := 10) (by norm_num)
  rw [← taylorPoint_eq_sum, hnorm, norm_sub_rev] at hbound
  refine hbound.trans ?_
  rw [div_eq_mul_inv]
  gcongr
  norm_num [Nat.factorial]

/-- Two points of the unit circle are no farther apart than their angles. -/
theorem cis_sub_le (x y : ℝ) : ‖cis x - cis y‖ ≤ |x - y| := by
  have e : cis x - cis y = cis y * (cis (x - y) - 1) := by rw [mul_sub, cis_mul, mul_one, add_sub_cancel]
  rw [e, norm_mul, cis_norm, one_mul, cis, mul_comm]
  exact Real.norm_exp_I_mul_ofReal_sub_one_le

/-- The rotation by 2π/2000 in fixed point. -/
def stepPoint : Int × Int := (1152915815171948361, 3622003771074307)

/-- The point at the phase of R65, 0.32, in fixed point. -/
def phasePoint : Int × Int := (1094393926441717164, 362670552364535428)

/-- A fixed-point point is as near to the unit circle's point at `y` as its parts are to the series at a rational `x`
near `y`. -/
theorem point_sub_cis_le {z : Int × Int} {x y a b c d : ℝ} (hx : |x| ≤ 1)
    (hre : |(z.1 : ℝ) / 2 ^ 60 - (taylorPoint x).re| ≤ a) (him : |(z.2 : ℝ) / 2 ^ 60 - (taylorPoint x).im| ≤ b)
    (hrest : |x| ^ 10 / 3000000 ≤ c) (hxy : |x - y| ≤ d) : ‖point z - cis y‖ ≤ a + b + c + d := by
  have hz : ‖point z - taylorPoint x‖ ≤ a + b :=
    (Complex.norm_le_abs_re_add_abs_im _).trans (add_le_add hre him)
  calc ‖point z - cis y‖ = ‖point z - taylorPoint x + (taylorPoint x - cis x) + (cis x - cis y)‖ := by congr 1; ring
    _ ≤ ‖point z - taylorPoint x‖ + ‖taylorPoint x - cis x‖ + ‖cis x - cis y‖ := norm_add₃_le
    _ ≤ a + b + c + d := add_le_add (add_le_add hz ((taylorPoint_err hx).trans hrest)) ((cis_sub_le x y).trans hxy)

theorem stepPoint_err : ‖point stepPoint - cis (2 * Real.pi / 2000)‖ ≤ 1 / 2 ^ 58 := by
  have hpi : |(314159265358979323846 / 10 ^ 23 : ℝ) - 2 * Real.pi / 2000| ≤ 1 / 2 ^ 62 := by
    have hlo := Real.pi_gt_d20
    have hhi := Real.pi_lt_d20
    rw [abs_le]; constructor <;> norm_num at hlo hhi ⊢ <;> linarith
  refine (point_sub_cis_le (a := 1 / 2 ^ 60) (b := 1 / 2 ^ 60) (c := 1 / 2 ^ 62) ?_ ?_ ?_ ?_ hpi).trans (by norm_num)
    <;> norm_num [stepPoint, taylorPoint, abs_le]

theorem phasePoint_err : ‖point phasePoint - cis 0.32‖ ≤ 1 / 2 ^ 36 := by
  refine (point_sub_cis_le (x := 0.32) (a := 1 / 2 ^ 38) (b := 1 / 2 ^ 40) (c := 1 / 2 ^ 37) (d := 0) ?_ ?_ ?_ ?_
    ?_).trans (by norm_num) <;> norm_num [phasePoint, taylorPoint, abs_le]

/-! ### The tour of the 2000 angles -/

/-- A rotation through the 2000 angles of the formulas stays near the unit circle's points. -/
theorem tour_err {z : Int × Int} {φ : ℝ} (hz : ‖point z - cis φ‖ ≤ 1 / 2 ^ 36) {i : Nat} (hi : i < 2000) :
    ‖point (rotate stepPoint z i) - cis (2 * Real.pi * i / 2000 + φ)‖ ≤ 1 / 2 ^ 35 := by
  have hrun := rotate_err (μ := 1 / 2 ^ 57) 2000 (cis_norm _) (cis_norm φ) stepPoint_err hz (by positivity)
    (by norm_num) i hi.le
  have hangle : cis φ * cis (2 * Real.pi / 2000) ^ i = cis (2 * Real.pi * i / 2000 + φ) := by
    rw [cis_pow, cis_mul]; congr 1; ring
  rw [hangle] at hrun
  have hi' : (i : ℝ) ≤ 2000 := by exact_mod_cast hi.le
  linarith

/-- The imaginary part of the odd power `2k + 1` of a fixed-point point. -/
def harmonic (z : Int × Int) (k : Nat) : Int := (rotate (mul z z) z k).2

/-- The odd powers of a point near the unit circle stay near it: their imaginary parts are the sines of R65. -/
theorem harmonic_err {z : Int × Int} {φ : ℝ} (hz : ‖point z - cis φ‖ ≤ 1 / 2 ^ 35) {k : Nat} (hk : k ≤ 6) :
    |(harmonic z k : ℝ) / 2 ^ 60 - Real.sin ((2 * k + 1) * φ)| ≤ 1 / 2 ^ 29 := by
  have hsq : ‖point (mul z z) - cis (2 * φ)‖ ≤ 1 / 2 ^ 33 := by
    have hnorm : ‖point z‖ ≤ 2 := by
      have := norm_sub_norm_le (point z) (cis φ)
      rw [cis_norm] at this; linarith
    have e : point (mul z z) - cis (2 * φ) =
        point (mul z z) - point z * point z + point z * (point z - cis φ) + (point z - cis φ) * cis φ := by
      rw [two_mul, ← cis_mul]; ring
    rw [e]
    refine norm_add₃_le.trans ?_
    rw [norm_mul, norm_mul, cis_norm, mul_one]
    have := mul_err z z
    have := mul_le_mul hnorm hz (norm_nonneg _) zero_le_two
    linarith
  have hrun := rotate_err (μ := 1 / 2 ^ 32) 6 (cis_norm _) (cis_norm φ) hsq hz (by positivity) (by norm_num) k hk
  have hangle : cis φ * cis (2 * φ) ^ k = cis ((2 * k + 1) * φ) := by
    rw [cis_pow, cis_mul]; congr 1; ring
  rw [hangle, cis_eq] at hrun
  have hk' : (k : ℝ) ≤ 6 := by exact_mod_cast hk
  have him := (Complex.abs_im_le_norm _).trans hrun
  simp only [Complex.sub_im, point] at him
  rw [harmonic]
  linarith

/-! ### The comparison by the kernel -/

/-- `ok` holds of every entry of a list and the point beside it, the first point `z` and each next one rotated once. -/
def checkTour (ok : Nat → Int × Int → Bool) : Int × Int → List Nat → Bool
  | _, [] => true
  | z, x :: xs => ok x z && checkTour ok (mul z stepPoint) xs

theorem checkTour_getElem {ok : Nat → Int × Int → Bool} {z : Int × Int} : ∀ {xs : List Nat} {n : Nat},
    checkTour ok (rotate stepPoint z n) xs = true → ∀ {i : Nat} (hi : i < xs.length),
      ok xs[i] (rotate stepPoint z (n + i)) = true
  | x :: xs, n, h, i, hi => by
    obtain ⟨hx, hxs⟩ := Bool.and_eq_true_iff.1 h
    match i with
    | 0 => exact hx
    | i + 1 =>
      have hrest := checkTour_getElem (n := n + 1) hxs (Nat.lt_of_succ_lt_succ hi)
      rwa [Nat.add_right_comm] at hrest

/-- What the tour checks on the listing holds of what the ROM reads. -/
theorem romRead_of_checkTour {sel : Table} {ok : Nat → Int × Int → Bool} {z : Int × Int}
    (h : checkTour ok z (listing sel) = true) {i : Nat} (hi : i < 2000) :
    ok (romRead sel i).toNat (rotate stepPoint z i) = true := by
  have hl : i < (listing sel).length := by rwa [listing_length]
  rw [romRead_toNat hl]
  simpa using checkTour_getElem (n := 0) h hl

/-- The signed value of a pattern, in units. -/
def signedUnits (x : Nat) : Int :=
  if 2 ^ 31 ≤ x then -(F32.unitsOf (x % 2 ^ 31) : Int) else (F32.unitsOf (x % 2 ^ 31) : Int)

theorem value_eq_signedUnits (v : Word) : F32.value v = signedUnits v.toNat := F32.value_eq v

/-- A pattern lies within `tol` units of the fixed-point fraction `num / den`. -/
def near (x : Nat) (num : Int) (den tol : Nat) : Bool :=
  Nat.ble (signedUnits x * den - num * 2 ^ 89).natAbs (tol * den)

theorem abs_le_of_near {v : Word} {num : Int} {den tol : Nat} (hden : 0 < den) (h : near v.toNat num den tol = true) :
    |(F32.value v : ℝ) / 2 ^ 149 - num / 2 ^ 60 / den| ≤ (tol : ℝ) / 2 ^ 149 := by
  have hd : (0 : ℝ) < den := by exact_mod_cast hden
  have hint : |signedUnits v.toNat * den - num * 2 ^ 89| ≤ (tol : Int) * den := by
    rw [Int.abs_eq_natAbs]; exact_mod_cast Nat.le_of_ble_eq_true h
  have hreal : |(F32.value v : ℝ) * den - num * 2 ^ 89| ≤ (tol : ℝ) * den := by
    rw [value_eq_signedUnits]; exact_mod_cast hint
  have e : (F32.value v : ℝ) / 2 ^ 149 - num / 2 ^ 60 / den =
      ((F32.value v : ℝ) * den - num * 2 ^ 89) / (2 ^ 149 * den) := by field_simp
  rw [e, abs_div, abs_of_pos (by positivity : (0 : ℝ) < 2 ^ 149 * den), div_le_div_iff₀ (by positivity) (by positivity)]
  nlinarith

/-! ### SINE (R64) -/

/-- The formula of R64 at a point of the unit circle, in halves. -/
def sineSum (z : Int × Int) : Int := harmonic z 0 + one

theorem sineSum_err {z : Int × Int} {φ : ℝ} (hz : ‖point z - cis φ‖ ≤ 1 / 2 ^ 35) :
    |(sineSum z : ℝ) / 2 ^ 60 / (2 : Nat) - (Real.sin φ + 1) / 2| ≤ 1 / 2 ^ 28 := by
  have h0 := harmonic_err hz (k := 0) (by omega)
  norm_num [sineSum, one, abs_le] at h0 ⊢
  constructor <;> linarith

/-- An entry against R64 at a fixed-point point: seven eighths of the bound, the rest being for the drift of the tour. -/
def sineNear (x : Nat) (z : Int × Int) : Bool := near x (sineSum z) 2 (7 * 2 ^ 122)

theorem sine_checkTour : checkTour sineNear (one, 0) (listing .sine) = true := by decide +kernel

theorem sine_value {i : Nat} (hi : i < 2000) : F32.value (romRead .sine i) = F32.units (romRead .sine i) := by
  have hpos := (sine_range hi).1
  rw [F32.value_eq, F32.units_eq, if_neg (by omega)]

/-- Settles O37: the entry is near the point of the tour, and that point near the one of the formula. -/
theorem sineListingFollowsFormula : Obligations.SineListingFollowsFormula := by
  intro i hi
  have hstart : ‖point (one, 0) - cis 0‖ ≤ 1 / 2 ^ 36 := by rw [point_one]; simp [cis]
  have hentry := abs_le_of_near two_pos (romRead_of_checkTour sine_checkTour hi)
  have hformula := sineSum_err (tour_err hstart hi)
  rw [sine_value hi, Int.cast_natCast] at hentry
  rw [add_zero] at hformula
  exact (abs_sub_le _ _ _).trans ((add_le_add hentry hformula).trans (by norm_num))

/-! ### SQUARE (R65) -/

/-- The formula of R65. -/
noncomputable def squareFormula (phase : ℝ) : ℝ :=
  0.63 * (1 * Real.sin (1 * phase) + 0.3 * Real.sin (3 * phase) + 0.15 * Real.sin (5 * phase) +
    0.075 * Real.sin (7 * phase) + 0.0375 * Real.sin (9 * phase) + 0.01875 * Real.sin (11 * phase) +
    0.009375 * Real.sin (13 * phase) + 0.8)

/-- The sum of the imaginary parts of `z`, `z * w`, `z * w * w` and so on, each with its weight: every power is computed
once. -/
def weigh (w : Int × Int) : Int × Int → List Int → Int
  | _, [] => 0
  | z, c :: cs => c * z.2 + weigh w (mul z w) cs

/-- The formula of R65 at a point of the unit circle, in units of 10^-8. -/
def squareSum (z : Int × Int) : Int :=
  63 * (weigh (mul z z) z [1000000, 300000, 150000, 75000, 37500, 18750, 9375] + 800000 * one)

theorem squareSum_eq (z : Int × Int) :
    squareSum z = 63 * (1000000 * harmonic z 0 + 300000 * harmonic z 1 + 150000 * harmonic z 2 + 75000 * harmonic z 3 +
      37500 * harmonic z 4 + 18750 * harmonic z 5 + 9375 * harmonic z 6 + 800000 * one) := by
  simp only [squareSum, weigh, harmonic, rotate]; ring

theorem squareSum_err {z : Int × Int} {φ : ℝ} (hz : ‖point z - cis φ‖ ≤ 1 / 2 ^ 35) :
    |(squareSum z : ℝ) / 2 ^ 60 / (100000000 : Nat) - squareFormula φ| ≤ 1 / 2 ^ 28 := by
  have h0 := harmonic_err hz (k := 0) (by omega)
  have h1 := harmonic_err hz (k := 1) (by omega)
  have h2 := harmonic_err hz (k := 2) (by omega)
  have h3 := harmonic_err hz (k := 3) (by omega)
  have h4 := harmonic_err hz (k := 4) (by omega)
  have h5 := harmonic_err hz (k := 5) (by omega)
  have h6 := harmonic_err hz (k := 6) (by omega)
  rw [squareSum_eq]
  norm_num [squareFormula, one, abs_le] at h0 h1 h2 h3 h4 h5 h6 ⊢
  constructor <;> linarith

/-- An entry against R65 at a fixed-point point: seven eighths of the bound, the rest being for the drift of the tour. -/
def squareNear (x : Nat) (z : Int × Int) : Bool := near x (squareSum z) 100000000 (7 * 2 ^ 123)

theorem square_checkTour : checkTour squareNear phasePoint (listing .square) = true := by decide +kernel

/-- Settles O60: the entry is near the sum over the odd powers of the tour's point, and each power near its harmonic. -/
theorem squareListingFollowsFormula : Obligations.SquareListingFollowsFormula := by
  intro i hi phase
  have hentry := abs_le_of_near (by norm_num) (romRead_of_checkTour square_checkTour hi)
  have hformula := squareSum_err (tour_err phasePoint_err hi)
  exact (abs_sub_le _ _ _).trans ((add_le_add hentry hformula).trans (by norm_num))

end Sys2Proof.Machine
end

section
/-! PROOFS. The family 30_encoding.md: the decoder undoes the encoder and accepts nothing else, what a command word
does in the step that takes it, and the words of the assembler. The idea: the first word alone decides, so what
`decodeHead` makes of it is said once, for an encoded word and by the fields of any word. -/

namespace Sys2Proof

/-! ### The first word of an encoding -/

@[simp] theorem encodeData_dataInstr (op : DataOp) (d : Word) : encodeData (op.instr d) = [d] := by
  cases op <;> rfl

/-- A command has no data word, or it is of format F1 (30_encoding.md R73). -/
theorem encodeData_cases (i : Instr) : encodeData i = [] ∨ ∃ (op : DataOp) (d : Word), i = op.instr d := by
  cases i with
  | reset | process | processS | rd => exact .inl rfl
  | init d => exact .inr ⟨.init, d, rfl⟩
  | setFreq d => exact .inr ⟨.setFreq, d, rfl⟩
  | setDepth d => exact .inr ⟨.setDepth, d, rfl⟩
  | setWave d => exact .inr ⟨.setWave, d, rfl⟩

theorem decodeHead_encodeHead_whole {i : Instr} {p : Port} (hl : i.legalOn p = true) (hdata : encodeData i = []) :
    decodeHead p (encodeHead i) = .whole i := by
  cases i with
  | init | setFreq | setDepth | setWave => exact absurd hdata (List.cons_ne_nil _ _)
  | rd a =>
    obtain rfl : p = .rd := by simpa [Instr.legalOn] using hl
    simp [decodeHead, encodeHead, readAddress_setWidth]
  | reset | process cnt | processS cnt =>
    obtain rfl : p = .cmd := by simpa [Instr.legalOn] using hl
    simp [decodeHead, encodeHead, opcodeLegal, reservedSet, rowOf]

theorem decodeHead_encodeHead_data {op : DataOp} {p : Port} {d : Word} (hl : (op.instr d).legalOn p = true) :
    decodeHead p (encodeHead (op.instr d)) = .needsData op := by
  cases op with
  | init =>
    obtain rfl : p = .cmd := by simpa [Instr.legalOn, DataOp.instr] using hl
    simp [decodeHead, encodeHead, opcodeLegal, reservedSet, rowOf, DataOp.instr]
  | setFreq | setDepth | setWave =>
    have hp : p = .cmd ∨ p = .par := by simpa [Instr.legalOn, DataOp.instr] using hl
    rcases hp with rfl | rfl <;> simp [decodeHead, encodeHead, opcodeLegal, reservedSet, rowOf, DataOp.instr]

/-! ### What the fields of a command word decide -/

theorem opcField_eq_iff (w : Word) (opc : BitVec 4) : opcField w = opc ↔ w.toNat / 2 ^ 28 = opc.toNat := by
  rw [← BitVec.toNat_inj, opcField_toNat]

/-- The opcodes of 30_encoding.md R79, as numbers. -/
theorem opcodeLegal_iff {p : Port} (hp : p ≠ .rd) (w : Word) :
    opcodeLegal p (opcField w) = true ↔
      p = .cmd ∧ 1 ≤ w.toNat / 2 ^ 28 ∧ w.toNat / 2 ^ 28 ≤ 6 ∨
        p = .par ∧ 4 ≤ w.toNat / 2 ^ 28 ∧ w.toNat / 2 ^ 28 ≤ 6 := by
  cases p with
  | rd => exact absurd rfl hp
  | cmd | par => simp [opcodeLegal, opcField_toNat]

/-- The reserved bits of 30_encoding.md R80, as numbers. -/
theorem reservedSet_iff (w : Word) :
    reservedSet w = true ↔
      (w.toNat / 2 ^ 28 = 3 ∧ w.toNat / 2 ^ 24 % 8 ≠ 0) ∨ (w.toNat / 2 ^ 28 ≠ 3 ∧ w.toNat % 2 ^ 28 ≠ 0) := by
  have hopc : opcField w = 0x3#4 ↔ w.toNat / 2 ^ 28 = 3 := opcField_eq_iff w _
  have hrsv : rsvField w = 0#3 ↔ w.toNat / 2 ^ 24 % 8 = 0 := by rw [← BitVec.toNat_inj, rsvField_toNat]; rfl
  have hlow : lowField w = 0#28 ↔ w.toNat % 2 ^ 28 = 0 := by rw [← BitVec.toNat_inj, lowField_toNat]; rfl
  unfold reservedSet
  split <;> simp_all

/-- The decoder finds an opcode illegal exactly where R79 says so: no row of a legal one stands for it. -/
theorem decodeHead_eq_illegalOpcode_iff {p : Port} (hp : p ≠ .rd) (w : Word) :
    decodeHead p w = .illegalOpcode ↔ opcodeLegal p (opcField w) = false := by
  rcases decodeHead_cases p w with ⟨h, -⟩ | ⟨-, hl, hd⟩ | ⟨-, hl, -, hd⟩ | ⟨-, hl, hr, hd⟩
  · exact absurd h hp
  · simp [hl, hd]
  · simp [hl, hd]
  · rcases rowOf_spec p hp w hl hr with ⟨i, hrow, -⟩ | ⟨op, hrow, -⟩ <;> simp [hl, hd, hrow]

/-- A legal opcode: its reserved bits, or its row (30_encoding.md R80). -/
theorem decodeHead_of_opcodeLegal {p : Port} {w : Word} (hp : p ≠ .rd) (hl : opcodeLegal p (opcField w) = true) :
    decodeHead p w = if reservedSet w = true then .reservedBits else rowOf w := by
  rcases decodeHead_cases p w with ⟨h, -⟩ | ⟨-, hl', -⟩ | ⟨-, -, hr, hd⟩ | ⟨-, -, hr, hd⟩
  · exact absurd h hp
  · exact absurd (hl.symm.trans hl') Bool.noConfusion
  · rw [hd, if_pos hr]
  · rw [hd, if_neg (by simp [hr])]

/-- The rows of opcode 3: PROCESS and PROCESS.S. -/
theorem rowOf_opcode_three {w : Word} (h : opcField w = 0x3#4) :
    ∃ i, rowOf w = .whole i ∧ (i = .process (cntField w) ∨ i = .processS (cntField w)) := by
  by_cases hs : sField w = 1#1
  · exact ⟨_, by simp [rowOf, h, hs], .inr rfl⟩
  · exact ⟨_, by simp [rowOf, h, hs], .inl rfl⟩

end Sys2Proof

namespace Sys2Proof.Machine

/-! ### A port's words -/

/-- Settles O1: by the first word, a command is whole, or the word after it is its data word. -/
theorem decodeOfEncode : Obligations.DecodeOfEncode := by
  intro i p rest hl
  rcases encodeData_cases i with hdata | ⟨op, d, rfl⟩
  · simp [encode, decodeWords, hdata, decodeHead_encodeHead_whole hl hdata]
  · simp [encode, decodeWords, decodeHead_encodeHead_data hl]

/-- Settles O2: the words decoded are those of the row that the first word selects. -/
theorem decodedOnlyFromItsEncoding : Obligations.DecodedOnlyFromItsEncoding := by
  intro p ws i rest hp hdec
  match ws with
  | [] => cases hdec
  | w :: ws =>
    obtain ⟨hwhole, hdata⟩ := decodeHead_row (w := w) hp
    simp only [decodeWords] at hdec
    cases hw : decodeHead p w with
    | illegalOpcode | reservedBits => simp [hw] at hdec
    | whole j =>
      obtain ⟨rfl, rfl⟩ : j = i ∧ ws = rest := by simpa [hw] using hdec
      obtain ⟨henc, hl⟩ := hwhole j hw
      exact ⟨hl, by rw [henc]; rfl⟩
    | needsData op =>
      match ws with
      | [] => simp [hw] at hdec
      | d :: ws =>
        obtain ⟨rfl, rfl⟩ : op.instr d = i ∧ ws = rest := by simpa [hw] using hdec
        obtain ⟨henc, hl⟩ := hdata op hw d
        exact ⟨hl, by rw [henc]; rfl⟩

/-- Settles O6: closed words, decoded by evaluation. -/
theorem writtenWordsDecode : Obligations.WrittenWordsDecode := by
  unfold Obligations.WrittenWordsDecode
  decide

/-! ### The step that takes a command word, by what the word decodes to -/

section
variable {p : Port} {w : Word} {rest : List HostMove} {s t : State} (he : expectsCommand p s)
  (h : s.host = .send p w :: rest)
include he h

theorem step_of_illegalOpcode (hw : decodeHead p w = .illegalOpcode) :
    step s = .next (raiseFault .illegalOpcode (withHost rest s)) := by
  rw [step, fetch_command he h, takeCommand, hw]

theorem step_of_reservedBits (hw : decodeHead p w = .reservedBits) :
    step s = .next (raiseFault .reservedBits (withHost rest s)) := by
  rw [step, fetch_command he h, takeCommand, hw]

theorem step_of_whole {i : Instr} (hw : decodeHead p w = .whole i) :
    step s = .next (execResult i (withHost rest s)) := by
  rw [step, fetch_command he h, takeCommand, hw]
  exact exec_eq i _

theorem step_of_needsData {op : DataOp} (hw : decodeHead p w = .needsData op)
    (hlate : ∀ d rest', rest ≠ .send p d :: rest') :
    step s = .next (withHost rest (setDecoder p (some op) s)) := by
  rw [step, fetch_command he h]
  rcases takeCommand_cases p w rest s with ⟨hd, -⟩ | ⟨hd, -⟩ | ⟨i, hd, -⟩ | ⟨op', d, rest', -, hr, -⟩ |
    ⟨op', hd, -, htake⟩
  · simp [hw] at hd
  · simp [hw] at hd
  · simp [hw] at hd
  · exact absurd hr (hlate d rest')
  · obtain rfl : op = op' := by simpa [hw] using hd
    rw [htake]

end

/-- No meaning records cause 1: it is the decoder's own (60_exceptions.md R119). -/
theorem ExecTo.cause_ne_illegalOpcode {s t : State} {i : Instr} (hx : ExecTo s i t) (hf : s.fault = false)
    (ht : t.fault = true) : t.cause ≠ .illegalOpcode := by
  cases hx with
  | badRate | unready => simp
  | configure | clear | latch | write => simp [hf] at ht

/-- A step that takes a command word and records cause 1 found its opcode illegal. -/
theorem decodeHead_of_step_illegalOpcode {p : Port} {w : Word} {rest : List HostMove} {s t : State}
    (he : expectsCommand p s) (h : s.host = .send p w :: rest) (hs : step s = .next t) (hf : t.fault = true)
    (hc : t.cause = .illegalOpcode) : decodeHead p w = .illegalOpcode := by
  have ⟨_, hfault, _⟩ := he
  have hexec : ∀ i rest', t ≠ execResult i (withHost rest' s) := by
    rintro i rest' rfl
    exact (execTo_execResult i (withHost rest' s)).cause_ne_illegalOpcode hfault hf hc
  rw [step, fetch_command he h] at hs
  rcases takeCommand_cases p w rest s with ⟨hw, htake⟩ | ⟨-, htake⟩ | ⟨i, -, htake⟩ | ⟨op, d, rest', -, -, htake⟩ |
    ⟨op, -, -, htake⟩ <;> simp only [htake, exec_eq, Host.Outcome.next.injEq] at hs
  · exact hw
  · subst hs; cases hc
  · exact absurd hs.symm (hexec i rest)
  · exact absurd hs.symm (hexec _ rest')
  · subst hs; simp [hfault] at hf

/-- Settles O3: the opcode decides what the decoder answers, and only that answer records cause 1. -/
theorem illegalOpcodeFaults : Obligations.IllegalOpcodeFaults := by
  intro p w rest s he h
  have hillegal : decodeHead p w = .illegalOpcode ↔
      (p = .cmd ∧ (w.toNat / 2 ^ 28 = 0 ∨ 7 ≤ w.toNat / 2 ^ 28) ∨
        p = .par ∧ (w.toNat / 2 ^ 28 ≤ 3 ∨ 7 ≤ w.toNat / 2 ^ 28)) := by
    rw [decodeHead_eq_illegalOpcode_iff he.1, ← Bool.not_eq_true, opcodeLegal_iff he.1]
    cases p with
    | rd => exact absurd rfl he.1
    | cmd | par => simp; omega
  rw [← hillegal]
  exact ⟨step_of_illegalOpcode he h, fun hs => decodeHead_of_step_illegalOpcode he h hs rfl rfl⟩

/-- Settles O4: the checks of R74 in their order, each a branch of the statement. -/
theorem reservedBitsFaultOrOneRow : Obligations.ReservedBitsFaultOrOneRow := by
  intro p w hp
  simp only [← opcodeLegal_iff hp, ← reservedSet_iff]
  split <;> rename_i hl
  · have hw := decodeHead_of_opcodeLegal hp hl
    split at hw <;> rename_i hr
    · rw [if_pos hr]
      exact fun rest s he h => step_of_reservedBits he h hw
    · rw [if_neg hr, hw]
      rcases rowOf_spec p hp w hl (by simpa using hr) with ⟨i, hrow, henc, -⟩ | ⟨op, hrow, henc⟩
      · exact .inl ⟨i, hrow, henc⟩
      · exact .inr ⟨op, hrow, fun d => (henc d).1⟩
  · exact (decodeHead_eq_illegalOpcode_iff hp w).2 (by simpa using hl)

/-- A PROCESS or PROCESS.S before INIT (30_encoding.md R74). -/
theorem execResult_of_not_configured {s : State} {i : Instr} {cnt : BitVec 24} (hcfg : s.cfg = false)
    (hi : i = .process cnt ∨ i = .processS cnt) : execResult i s = raiseFault .notConfigured s := by
  rcases hi with rfl | rfl <;> simp [execResult, hcfg]

/-- Settles O23: the reserved bits are checked by the decoder, CFG by the meanings of both rows of opcode 3. -/
theorem processBeforeInitFaults : Obligations.ProcessBeforeInitFaults := by
  intro w rest s he hcfg hopc h
  have hl : opcodeLegal .cmd (opcField w) = true := (opcodeLegal_iff he.1 w).2 (.inl ⟨rfl, by omega⟩)
  have hreserved : reservedSet w = true ↔ w.toNat / 2 ^ 24 % 8 ≠ 0 := by
    rw [reservedSet_iff]; omega
  have hw := decodeHead_of_opcodeLegal he.1 hl
  split <;> rename_i hrsv
  · rw [if_neg (mt hreserved.1 (not_not_intro hrsv))] at hw
    obtain ⟨i, hrow, hi⟩ := rowOf_opcode_three ((opcField_eq_iff w 0x3#4).2 hopc)
    rw [step_of_whole he h (hw.trans hrow), execResult_of_not_configured (s := withHost rest s) hcfg hi]
    rfl
  · rw [if_pos (hreserved.2 hrsv)] at hw
    exact step_of_reservedBits he h hw

/-- Settles O7: the words are taken together and their instruction runs on what the host sends after them. -/
theorem stepRunsDecodedInstruction : Obligations.StepRunsDecodedInstruction := by
  refine ⟨fun i p rest s he hl h => ?_, fun w rest s h => ?_⟩
  · have hfetch : fetch s = .instr i (withHost rest s) :=
      (fetch_command he h).trans (takeCommand_encode he.1 hl rest s)
    rw [step, hfetch]
    rfl
  · have haddr : readAddress w = BitVec.ofNat 4 (w.toNat % 16) := by
      apply BitVec.eq_of_toNat_eq; simp [readAddress_toNat]
    have hfetch : fetch s = .instr (.rd (readAddress w)) (withHost rest s) := by rw [fetch, h]
    rw [step, hfetch, haddr]
    rfl

/-- Settles O8: only the port's decoder changes, and it then takes the port's next word as the data word. -/
theorem dataWordArrivesLater : Obligations.DataWordArrivesLater := by
  refine ⟨fun op p d rest s he hl h hlate => ?_, fun op p d rest s hp hf hr hd h => ?_⟩
  · refine ⟨_, step_of_needsData he h (decodeHead_encodeHead_data hl) hlate, ?_⟩
    simp [sameRegisters, he.1]
  · have hwithHost : setDecoder p none (withHost rest s) = withHost rest (setDecoder p none s) := by cases p <;> rfl
    rw [step, fetch_word hp h, takeWord, if_neg (by simp [hf]), if_neg fun hc => hc.2 (hr hc.1), hd]
    exact congrArg (exec (op.instr d)) hwithHost.symm

/-! ### The assembler -/

/-- The words of a SET_* (30_encoding.md R81), as numbers. -/
theorem encode_set (d : Word) :
    encode (.setFreq d) = [0x40000000#32, d] ∧ encode (.setDepth d) = [0x50000000#32, d] ∧
      encode (.setWave d) = [0x60000000#32, d] := ⟨rfl, rfl, rfl⟩

/-- Settles O57: the three commands of each preset, word by word. -/
theorem presetsExpand : Obligations.PresetsExpand := by
  intro onPar
  constructor <;> simp [assembleLine, AsmLine.wellFormed, AsmForm.wellFormed, AsmForm.mayGoOnPar, linePort, formWords,
    encode_set]

/-- The command word of a PROCESS (30_encoding.md R81), as a number. -/
theorem encode_process {n : Nat} (hn : n ≤ maxCount) :
    encode (.process (BitVec.ofNat 24 n)) = [BitVec.ofNat 32 (0x30000000 + n)] := by
  have hword : commandWord 0x3#4 0#1 (BitVec.ofNat 24 n) = BitVec.ofNat 32 (0x30000000 + n) := by
    apply BitVec.eq_of_toNat_eq
    rw [commandWord_toNat]
    simp only [maxCount, BitVec.toNat_ofNat] at hn ⊢
    omega
  rw [encode, encodeHead, hword, encodeData]

/-- Settles O58: the line's checks are the condition of the statement, and a sample's word is its pattern. -/
theorem assemblerEmitsProcess : Obligations.AssemblerEmitsProcess := by
  intro n samples
  have hwf : AsmLine.wellFormed ⟨false, .process n (samples.map .bits)⟩ = true ↔
      n ≤ 16777215 ∧ samples.length = n := by
    simp only [AsmLine.wellFormed, AsmForm.wellFormed, Bool.and_eq_true, decide_eq_true_eq, List.length_map]
    exact and_iff_left rfl
  have hbits : (samples.map Literal.bits).map literalWord = samples := by
    rw [List.map_map]; exact List.map_id samples
  rw [assembleLine]
  simp only [hwf]
  split <;> rename_i hok
  · rw [formWords, encode_process hok.1, hbits]
    rfl
  · rfl

end Sys2Proof.Machine
end

section
/-! PROOFS. The family 40_lifecycle.md: INIT and RESET from every state, and R88, that a block after RESET and the same
block after a fresh INIT act alike. The idea for R88 is a relation between the two blocks, `LatchesLike`: they differ at
most in the latched registers and in what the host has read, and no longer in the latched registers once these matter.
Every step keeps it. -/

namespace Sys2Proof.Machine

/-! ### INIT (R85) -/

theorem exec_init_of_rateInRange {d : Word} (hd : rateInRange d) (s : State) :
    exec (.init d) s = .next (configure d s) := by
  rw [exec_eq, execResult, if_pos ((rateLegal_iff d).2 hd)]

/-- Right after INIT both scales are +0.0, so nothing is pending. -/
theorem pending_configure (d : Word) (s : State) : pending (configure d s) = false :=
  show F32.fne 0#32 0#32 = false by decide

/-- Settles O9: the rate passes the check of R85, and of the fields of STATUS only CFG is set. -/
theorem initConfigures : Obligations.InitConfigures := by
  intro d s hlo hhi
  refine ⟨configure d s, exec_init_of_rateInRange ⟨hlo, hhi⟩ s, rfl, fun hfault hcause => ?_⟩
  apply BitVec.eq_of_toNat_eq
  refine (statusWord_toNat (configure d s)).trans ?_
  simp [pending_configure, busy, hfault, hcause, Cause.code]

/-- Settles O10: the rate does not pass the check of R85. -/
theorem initRefusesBadRate : Obligations.InitRefusesBadRate := by
  intro d s hd
  have hbad : ¬rateInRange d := by unfold rateInRange; omega
  rw [exec_eq, execResult, if_neg (mt (rateLegal_iff d).1 hbad), raiseFault]

/-! ### RESET (R86) -/

/-- The words that differ from +0.0 by value: all but the two zeros, NaNs included. -/
theorem fne_zero_iff (v : Word) : F32.fne v 0#32 = true ↔ v ≠ 0#32 ∧ v ≠ 0x80000000#32 := by
  have hz : F32.isNaN 0#32 = false ∧ F32.value 0#32 = 0 := by decide
  have hzeros : v.toNat % 2 ^ 31 = 0 ↔ v = 0#32 ∨ v = 0x80000000#32 := by
    simp only [← BitVec.toNat_inj, BitVec.toNat_ofNat]
    omega
  rw [← not_or, ← hzeros]
  simp only [F32.fne, F32.feq, hz, Bool.not_false, Bool.and_true, Bool.not_eq_true']
  cases hn : F32.isNaN v with
  | true =>
    rw [F32.isNaN_iff, F32.infMag] at hn
    simp only [Bool.not_true, Bool.false_and, true_iff]
    omega
  | false =>
    have hvalue : F32.value v = 0 ↔ F32.unitsOf (v.toNat % 2 ^ 31) = 0 := by
      rw [F32.value_eq]; split <;> omega
    have hunits : F32.unitsOf (v.toNat % 2 ^ 31) = 0 ↔ v.toNat % 2 ^ 31 = 0 := by
      refine ⟨fun h => ?_, fun h => by rw [h]; rfl⟩
      by_contra hne
      have := F32.unitsOf_pos (Nat.pos_of_ne_zero hne) ((F32.isNaN_eq_false_iff v).1 hn)
      omega
    simp only [Bool.not_false, Bool.true_and, decide_eq_false_iff_not, hvalue, hunits]

/-- Bit 3 of STATUS (10_state.md R40). -/
theorem statusWord_getLsbD_three (s : State) : (statusWord s).getLsbD 3 = pending s := by
  have hbit : (statusWord s).toNat / 2 ^ 3 % 2 = (pending s).toNat := by
    have := s.cfg.toNat_le
    have := s.fault.toNat_le
    have := (busy s).toNat_le
    have := (pending s).toNat_le
    rw [statusWord_toNat]
    omega
  rw [BitVec.getLsbD, Nat.testBit_eq_decide_div_mod_eq, hbit]
  cases pending s <;> rfl

/-- Settles O11: after RESET CUR_SCALE is +0.0, and PENDING tells PEND_SCALE from it by value. -/
theorem resetClearsPhase : Obligations.ResetClearsPhase := by
  intro s
  refine ⟨clearPhase s, rfl, rfl, ?_, rfl⟩
  calc (readReg 0#4 (clearPhase s)).getLsbD 3 = true
    _ ↔ pending (clearPhase s) = true := by rw [← statusWord_getLsbD_three]; rfl
    _ ↔ s.pendScale ≠ 0#32 ∧ s.pendScale ≠ 0x80000000#32 := fne_zero_iff s.pendScale

/-! ### Blocks that differ in what was latched (R88) -/

/-- `LatchesLike t s`: `s` is `t` but for the latched registers and the record of what the host has read, and the
latched registers are those of `t` too while a PROCESS runs or once PEND_SCALE of `t` is not +0.0. -/
inductive LatchesLike (t : State) : State → Prop where
  | mk (scale depth : Word) (sel : Table) (reads : List Word) :
      (t.remain ≠ 0#24 ∨ t.pendScale ≠ 0#32 → scale = t.pendScale ∧ depth = t.latDepth ∧ sel = t.latSel) →
      LatchesLike t { t with pendScale := scale, latDepth := depth, latSel := sel, rdOut := reads }

/-- Two blocks that latch alike do the same next: the second outcome of the fetch is the first one's, from a state that
latches like the first one's. A sample comes only while a PROCESS runs. -/
inductive FetchesLike : Fetched → Fetched → Prop where
  | idle : FetchesLike .idle .idle
  | rst {s t : State} : LatchesLike t s → FetchesLike (.rst t) (.rst s)
  | instr {s t : State} (i : Instr) : LatchesLike t s → FetchesLike (.instr i t) (.instr i s)
  | sample {s t : State} (x : Word) : t.remain ≠ 0#24 → LatchesLike t s → FetchesLike (.sample x t) (.sample x s)
  | reject {s t : State} (c : Cause) : LatchesLike t s → FetchesLike (.reject c t) (.reject c s)
  | waiting {s t : State} : LatchesLike t s → FetchesLike (.waiting t) (.waiting s)

section
variable {s t : State}

/-- Blocks that differ in what the host has read only. -/
theorem LatchesLike.of_bare (hhost : s.host = t.host) (hbare : bare s = bare t) : LatchesLike t s := by
  cases s
  cases t
  injection hbare
  simp only at hhost
  subst_vars
  exact .mk _ _ _ _ fun _ => ⟨rfl, rfl, rfl⟩

theorem withHost_latchesLike (moves : List HostMove) (h : LatchesLike t s) :
    LatchesLike (withHost moves t) (withHost moves s) := by
  obtain ⟨_, _, _, _, hl⟩ := h
  exact .mk _ _ _ _ hl

theorem setDecoder_latchesLike (p : Port) (op : Option DataOp) (h : LatchesLike t s) :
    LatchesLike (setDecoder p op t) (setDecoder p op s) := by
  obtain ⟨_, _, _, _, hl⟩ := h
  cases p <;> exact .mk _ _ _ _ hl

theorem holdWord_latchesLike (p : Port) (w : Word) (h : LatchesLike t s) :
    LatchesLike (holdWord p w t) (holdWord p w s) := by
  obtain ⟨_, _, _, _, hl⟩ := h
  cases p <;> exact .mk _ _ _ _ hl

theorem raiseFault_latchesLike (c : Cause) (h : LatchesLike t s) :
    LatchesLike (raiseFault c t) (raiseFault c s) := by
  obtain ⟨_, _, _, _, hl⟩ := h
  exact .mk _ _ _ _ hl

/-- RST clears the latched registers of both. -/
theorem powerOn_latchesLike (h : LatchesLike t s) : LatchesLike (powerOn t) (powerOn s) := by
  cases h
  exact .of_bare rfl rfl

/-- INIT clears the latched registers of both. -/
theorem configure_latchesLike (d : Word) (h : LatchesLike t s) : LatchesLike (configure d t) (configure d s) := by
  cases h
  exact .of_bare rfl rfl

/-- A latch writes the latched registers of both from registers that are the same. -/
theorem latch_latchesLike (cnt : BitVec 24) (h : LatchesLike t s) : LatchesLike (latch cnt t) (latch cnt s) := by
  cases h
  exact .of_bare rfl rfl

/-- No command looks at the latched registers but a read, which only answers them. -/
theorem execResult_latchesLike (i : Instr) (h : LatchesLike t s) : LatchesLike (execResult i t) (execResult i s) := by
  have hcfg : s.cfg = t.cfg := by cases h; rfl
  cases i with
  | init d =>
    simp only [execResult]
    split_ifs
    · exact configure_latchesLike d h
    · exact raiseFault_latchesLike _ h
  | process cnt =>
    simp only [execResult, hcfg]
    split_ifs
    · exact latch_latchesLike cnt h
    · exact raiseFault_latchesLike _ h
  | processS cnt =>
    simp only [execResult, hcfg]
    split_ifs
    · exact h
    · exact raiseFault_latchesLike _ h
  | reset | setFreq | setDepth | setWave | rd =>
    obtain ⟨_, _, _, _, hl⟩ := h
    exact .mk _ _ _ _ hl

/-- While a PROCESS runs the latched registers are the same, and a sample step does not look at the reads. -/
theorem sampleStep_latchesLike (x : Word) (hr : t.remain ≠ 0#24) (h : LatchesLike t s) :
    LatchesLike (sampleStep x t) (sampleStep x s) := by
  obtain ⟨_, _, _, _, hl⟩ := h
  obtain ⟨rfl, rfl, rfl⟩ := hl (.inl hr)
  exact .of_bare (by simp) (by simp only [bare_sampleStep]; rfl)

/-! ### They take the same words -/

theorem takeCommand_fetchesLike (p : Port) (w : Word) (rest : List HostMove) (h : LatchesLike t s) :
    FetchesLike (takeCommand p w rest t) (takeCommand p w rest s) := by
  unfold takeCommand
  cases decodeHead p w with
  | illegalOpcode | reservedBits => exact .reject _ (withHost_latchesLike rest h)
  | whole i => exact .instr i (withHost_latchesLike rest h)
  | needsData op =>
    have hwaits := FetchesLike.waiting (withHost_latchesLike rest (setDecoder_latchesLike p (some op) h))
    match rest with
    | [] | .rst :: _ => exact hwaits
    | .send q d :: rest' =>
      dsimp only
      split_ifs
      · exact .instr _ (withHost_latchesLike rest' h)
      · exact hwaits

theorem takeWord_fetchesLike (p : Port) (w : Word) (rest : List HostMove) (h : LatchesLike t s) :
    FetchesLike (takeWord p w rest t) (takeWord p w rest s) := by
  have hfault : s.fault = t.fault := by cases h; rfl
  have hremain : s.remain = t.remain := by cases h; rfl
  have hdecoder : decoder p s = decoder p t := by cases h; cases p <;> rfl
  unfold takeWord
  rw [hfault, hremain, hdecoder]
  split_ifs with _ hr
  · exact .waiting (withHost_latchesLike rest (holdWord_latchesLike p w h))
  · exact .sample w hr.2 (withHost_latchesLike rest h)
  · cases decoder p t with
    | some op => exact .instr _ (withHost_latchesLike rest (setDecoder_latchesLike p Option.none h))
    | none => exact takeCommand_fetchesLike p w rest h

theorem fetch_fetchesLike (h : LatchesLike t s) : FetchesLike (fetch t) (fetch s) := by
  have hhost : s.host = t.host := by cases h; rfl
  unfold fetch
  rw [hhost]
  match t.host with
  | [] => exact .idle
  | .rst :: rest => exact .rst (withHost_latchesLike rest h)
  | .send .rd w :: rest => exact .instr _ (withHost_latchesLike rest h)
  | .send .cmd w :: rest => exact takeWord_fetchesLike .cmd w rest h
  | .send .par w :: rest => exact takeWord_fetchesLike .par w rest h

theorem step_latchesLike (h : LatchesLike t s) :
    ∃ t' s', step t = .next t' ∧ step s = .next s' ∧ LatchesLike t' s' := by
  have hfetch := fetch_fetchesLike h
  unfold step
  generalize fetch t = ft, fetch s = fs at hfetch ⊢
  cases hfetch with
  | idle => exact ⟨t, s, rfl, rfl, h⟩
  | rst h' => exact ⟨_, _, rfl, rfl, powerOn_latchesLike h'⟩
  | instr i h' => exact ⟨_, _, exec_eq i _, exec_eq i _, execResult_latchesLike i h'⟩
  | sample x hr h' => exact ⟨_, _, rfl, rfl, sampleStep_latchesLike x hr h'⟩
  | reject c h' => exact ⟨_, _, rfl, rfl, raiseFault_latchesLike c h'⟩
  | waiting h' => exact ⟨_, _, rfl, rfl, h'⟩

theorem runSteps_latchesLike (k : Nat) (h : LatchesLike t s) :
    ∃ t' s', runSteps k t = .next t' ∧ runSteps k s = .next s' ∧ LatchesLike t' s' := by
  induction k generalizing t s with
  | zero => exact ⟨t, s, rfl, rfl, h⟩
  | succ k ih =>
    obtain ⟨t', s', ht, hs, h'⟩ := step_latchesLike h
    rw [runSteps_succ ht, runSteps_succ hs]
    exact ih h'

/-- RESET leaves of a configured block that is not in a PROCESS what a fresh INIT at its rate leaves, but for the
latched registers, and INIT leaves PEND_SCALE at +0.0. -/
theorem clearPhase_latchesLike_configure (hcfg : s.cfg = true) (hr : s.remain = 0#24) :
    LatchesLike (configure s.sampleRate s) (clearPhase s) := by
  cases s
  cases hcfg
  cases hr
  exact .mk _ _ _ _ (by simp)

end

/-- Settles O12: the two blocks latch alike at first, so they do after any number of steps. -/
theorem resetIsFreshInit : Obligations.ResetIsFreshInit := by
  intro s s₁ s₂ k hcfg hr hrate hreset hinit
  obtain rfl : clearPhase s = s₁ := by injection hreset
  obtain rfl : configure s.sampleRate s = s₂ := by simpa [exec_init_of_rateInRange hrate] using hinit
  obtain ⟨t₂, t₁, h₂, h₁, ⟨_, _, _, _, hl⟩⟩ := runSteps_latchesLike k (clearPhase_latchesLike_configure hcfg hr)
  exact ⟨_, t₂, h₁, h₂, rfl, rfl, rfl, rfl, hl⟩

end Sys2Proof.Machine
end

section
/-! PROOFS. The family 41_parameters.md: the parameter writes, the clamps by the patterns of their arguments, and what a
latch leaves. The idea for R92: no register of a sample step is computed from FREQ, DEPTH or WAVE, and it writes none of
them, so a sample step and a parameter write commute. -/

namespace Sys2Proof.Machine

/-! ### The parameter writes (R89 to R91) -/

/-- Settles O13: each write answers its register set. -/
theorem parameterWritesComplete : Obligations.ParameterWritesComplete :=
  fun d s => ⟨exec_eq (.setFreq d) s, exec_eq (.setDepth d) s, exec_eq (.setWave d) s⟩

/-- A SET_* is legal on every port that takes commands (30_encoding.md R72). -/
theorem legalOn_of_ne_init {op : DataOp} {p : Port} (hop : op ≠ .init) (hp : p ≠ .rd) (d : Word) :
    (op.instr d).legalOn p = true := by
  cases op with
  | init => exact absurd rfl hop
  | setFreq | setDepth | setWave =>
    cases p with
    | rd => exact absurd rfl hp
    | cmd | par => rfl

/-- The two words of a SET_*, taken in one step on either port. -/
theorem step_set {op : DataOp} {p : Port} {d : Word} {rest : List HostMove} {s : State} (hop : op ≠ .init)
    (he : expectsCommand p s) (h : s.host = .send p (encodeHead (op.instr d)) :: .send p d :: rest) :
    step s = .next (execResult (op.instr d) (withHost rest s)) := by
  have hwords : s.host = (encode (op.instr d)).map (.send p) ++ rest := by
    rw [encode, encodeData_dataInstr]; exact h
  rw [stepRunsDecodedInstruction.1 _ p rest s he (legalOn_of_ne_init hop he.1 d) hwords]
  exact exec_eq _ _

/-- Settles O14: the three command words are those of R81. -/
theorem parameterWriteOnEitherPort : Obligations.ParameterWriteOnEitherPort :=
  fun _ _ _ _ he =>
    ⟨fun h => step_set (op := .setFreq) (by decide) he h, fun h => step_set (op := .setDepth) (by decide) he h,
      fun h => step_set (op := .setWave) (by decide) he h⟩

/-! ### The clamps (R95, R96) -/

/-- Settles O17: the comparisons with 0.5 and 20.0, read branch by branch as an order of patterns. -/
theorem frequencyClamp : Obligations.FrequencyClamp := by
  intro v
  unfold clampF
  refine ite_congr (propext (F32.isNaN_iff v)) (fun _ => rfl) fun hmag => ?_
  have hn : F32.isNaN v = false := (F32.isNaN_eq_false_iff v).2 (not_lt.1 hmag)
  refine ite_congr (propext (F32.lt_pos_iff hn (by decide) (by decide))) (fun _ => rfl) fun hbelow => ?_
  have habove : F32.lt Config.freqMax v = true ↔ v.toNat < 2 ^ 31 ∧ 0x41A00000 < v.toNat :=
    F32.pos_lt_iff hn (by decide) (by decide)
  refine ite_congr (propext (habove.trans (and_iff_right ?_))) (fun _ => rfl) fun _ => rfl
  exact not_le.1 fun hs => hbelow (.inl hs)

/-- Settles O18: as for the frequency, but the lower bound is a zero, which -0.0 is not below. -/
theorem depthClamp : Obligations.DepthClamp := by
  intro v
  unfold clampD
  refine ite_congr (propext (F32.isNaN_iff v)) (fun _ => rfl) fun hmag => ?_
  have hn : F32.isNaN v = false := (F32.isNaN_eq_false_iff v).2 (not_lt.1 hmag)
  refine ite_congr (propext (lt_zero_iff hn)) (fun _ => rfl) fun hbelow => ?_
  have habove : F32.lt Config.depthMax v = true ↔ v.toNat < 2 ^ 31 ∧ 0x42C80000 < v.toNat :=
    F32.pos_lt_iff hn (by decide) (by decide)
  refine ite_congr (propext (habove.trans ?_)) (fun _ => rfl) fun _ => rfl
  omega

/-! ### The latch (R93, R94, R97, R98) -/

theorem exec_process_of_cfg {s : State} (hcfg : s.cfg = true) (cnt : BitVec 24) :
    exec (.process cnt) s = .next (latch cnt s) := by
  rw [exec_eq, execResult, if_pos hcfg]

/-- What a PROCESS of a configured block answers is its latch. -/
theorem eq_latch_of_exec_process {cnt : BitVec 24} {s t : State} (hcfg : s.cfg = true)
    (h : exec (.process cnt) s = .next t) : t = latch cnt s := by
  rw [exec_process_of_cfg hcfg] at h
  exact (Host.Outcome.next.inj h).symm

/-- Settles O20: the writes of the latch, written out. -/
theorem processLatches : Obligations.ProcessLatches := fun cnt _ hcfg => exec_process_of_cfg hcfg cnt

theorem selectTable_eq_square_iff (wave : Word) : selectTable wave = .square ↔ wave ≠ 1#32 := by
  rw [ne_eq, ← selectTable_eq_sine_iff]
  cases selectTable wave <;> decide

/-- Settles O19: WAVE is compared as a whole word. -/
theorem waveSelectsTable : Obligations.WaveSelectsTable := by
  intro cnt s t hcfg hexec
  have hone : s.wave = 1#32 ↔ s.wave.toNat = 1 := BitVec.toNat_inj.symm
  obtain rfl := eq_latch_of_exec_process hcfg hexec
  rw [latch_latSel, ne_eq, ← hone]
  exact ⟨selectTable_eq_sine_iff _, selectTable_eq_square_iff _⟩

/-- The highest rate with the lowest frequency gives the lowest scale. -/
theorem requestedScale_lowest {s : State} (hrate : s.sampleRate = 0x4B800000#32) (hfreq : s.freq = 0x3F000000#32) :
    requestedScale s = 0x387A0000#32 := by
  rw [requestedScale, samplesPerCycle, hrate, hfreq]; decide +kernel

/-- The lowest rate with the highest frequency gives the highest scale. -/
theorem requestedScale_highest {s : State} (hrate : s.sampleRate = 0x3F800000#32) (hfreq : s.freq = 0x41A00000#32) :
    requestedScale s = 0x471C4000#32 := by
  rw [requestedScale, samplesPerCycle, hrate, hfreq]; decide +kernel

/-- Settles O21: PEND_SCALE is the scale asked for, whose range `requestedScale_range` gives. -/
theorem latchedScaleInRange : Obligations.LatchedScaleInRange := by
  refine ⟨fun cnt s t hcfg hrate hexec => ?_, fun cnt s t hcfg hrate hfreq hexec => ?_,
    fun cnt s t hcfg hrate hfreq hexec => ?_⟩ <;> obtain rfl := eq_latch_of_exec_process hcfg hexec
  · exact requestedScale_range hrate
  · exact requestedScale_lowest hrate hfreq
  · exact requestedScale_highest hrate hfreq

/-! ### A parameter write beside a running PROCESS (R92) -/

/-- The sample step as one record update. After rule A the counter is 0, so rule B has nothing left to write
(42_process.md R109). -/
theorem sampleStep_eq (x : Word) (s : State) :
    sampleStep x s = { s with
      curScale := if firesA s then s.pendScale else s.curScale
      samples := if firesA s ∨ firesB s then 1#32 else s.samples + 1#32
      remain := s.remain - 1#24
      out := s.out ++ [sampleOut x s] } := by
  unfold sampleStep
  rcases resyncA_cases (stepIndex s) s with ⟨hp, hi, hA⟩ | ⟨hno, hA⟩ <;> rw [hA]
  · have hfires : firesA s := ⟨hp, hi⟩
    rcases resyncB_cases (stepIndex s) { s with curScale := s.pendScale, samples := 0#32 } with
      ⟨-, -, hB⟩ | ⟨-, hB⟩ <;> rw [hB, if_pos hfires, if_pos (.inl hfires)] <;> rfl
  · have hnoA : ¬firesA s := hno
    rcases resyncB_cases (stepIndex s) s with ⟨hlimit, hi, hB⟩ | ⟨hnoB, hB⟩ <;> rw [hB, if_neg hnoA]
    · have hfires : firesB s := ⟨hnoA, hlimit, hi⟩
      rw [if_pos (.inr hfires)]; rfl
    · have hquiet : ¬(firesA s ∨ firesB s) := not_or.2 ⟨hnoA, fun hfires => hnoB hfires.2⟩
      rw [if_neg hquiet]; rfl

@[simp] theorem sampleStep_withHost (x : Word) (moves : List HostMove) (s : State) :
    sampleStep x (withHost moves s) = withHost moves (sampleStep x s) := by
  rw [sampleStep_eq, sampleStep_eq]; rfl

/-- R92: a sample step looks at no parameter and writes none. -/
theorem execResult_sampleStep {i : Instr} (hl : i.legalOn .par = true) (x : Word) (s : State) :
    execResult i (sampleStep x s) = sampleStep x (execResult i s) := by
  rw [sampleStep_eq, sampleStep_eq]
  cases i with
  | init | reset | process | processS | rd => exact absurd hl (by simp [Instr.legalOn])
  | setFreq | setDepth | setWave => rfl

theorem expectsSample_execResult {i : Instr} (hl : i.legalOn .par = true) {s : State} (he : expectsSample s) :
    expectsSample (execResult i s) := by
  obtain ⟨f, d, w, hwrite, -⟩ := execResult_of_legalOn_par hl s
  rw [hwrite]; exact he

/-- A sample step leaves the PAR decoder alone. -/
theorem expectsCommand_par_sampleStep {s : State} (he : expectsCommand .par s) (x : Word) :
    expectsCommand .par (sampleStep x s) := by
  obtain ⟨hp, hf, -, hd⟩ := he
  rw [sampleStep_eq]; exact ⟨hp, hf, by simp, hd⟩

/-- The sample step, with the moves to come kept apart from the state. -/
theorem step_sample_withHost {x : Word} {rest : List HostMove} {s : State} (he : expectsSample s) :
    step (withHost (.send .cmd x :: rest) s) = .next (withHost rest (sampleStep x s)) := by
  rw [step_sample (s := withHost (.send .cmd x :: rest) s) he rfl]
  simp only [sampleStep_withHost]; rfl

/-- Settles O15: one step for the words of the write and one for the sample, in either order, and the two commute. -/
theorem parameterWriteMissesRunningProcess : Obligations.ParameterWriteMissesRunningProcess := by
  intro i x rest s hl he hdec
  have hpar : expectsCommand .par s := ⟨by simp, he.1, by simp, hdec⟩
  have hwriteFirst : runSteps 2 (withHost ((encode i).map (.send .par) ++ .send .cmd x :: rest) s) =
      .next (withHost rest (sampleStep x (execResult i s))) := by
    rw [runSteps_succ (step_encode _ hpar hl), runSteps_succ (step_sample_withHost (expectsSample_execResult hl he)),
      runSteps]
  have hsampleFirst : runSteps 2 (withHost (.send .cmd x :: ((encode i).map (.send .par) ++ rest)) s) =
      .next (withHost rest (execResult i (sampleStep x s))) := by
    rw [runSteps_succ (step_sample_withHost he),
      runSteps_succ (step_encode _ (expectsCommand_par_sampleStep hpar x) hl), runSteps]
  have hout : (execResult i (sampleStep x s)).out = s.out ++ [sampleOut x s] := by
    rw [(execTo_execResult i _).out_eq, sampleStep_eq]
  rw [← execResult_sampleStep hl] at hwriteFirst
  exact ⟨_, hwriteFirst, hsampleFirst, hout, rfl⟩

end Sys2Proof.Machine
end

section
/-! PROOFS. The family 42_process.md: PROCESS and PROCESS.S, and the sample step with its index, its two resync rules,
its gain and its output. The idea for the bounds on products and gains: rounding is monotone and exact on binary32
values, so a bound that is one survives every operation; whole numbers up to 2^24 are such bounds. The idea for the run
of a PROCESS: what is sent beside it changes nothing that a sample step reads. -/

namespace Sys2Proof.Machine.F32

/-! ### Finite words without a sign -/

/-- A pattern below infinity's: no sign, and its units are its value. -/
theorem value_of_toNat_lt {v : Word} (h : v.toNat < infMag) :
    isFinite v = true ∧ sign v = false ∧ units v = unitsOf v.toNat ∧
      value v = unitsOf v.toNat := by
  have hs : ¬2 ^ 31 ≤ v.toNat := by unfold infMag at h; omega
  have hm : v.toNat % 2 ^ 31 = v.toNat := by omega
  refine ⟨by rwa [isFinite_iff, hm], by rw [sign_eq, decide_eq_false hs], by rw [units_eq, hm], ?_⟩
  rw [value_eq, if_neg hs, hm]

/-! ### The conversion of a counter (R102) -/

/-- What is below the overflow threshold is rounded to a finite value. -/
theorem isFinite_pack_roundMag (s : Bool) {n d : Nat} (hd : 0 < d) (h : 2 * n < (2 ^ 25 - 1) * 2 ^ 253 * d) :
    isFinite (pack s (roundMag n d)) = true :=
  have ⟨_, hfinite, _⟩ := isRounded_pack s n hd
  (hfinite h).1

/-- A whole number of units that is a multiple of its spacing is not rounded. -/
theorem uncutUnits_of_dvd {q : Nat} (h : 2 ^ spacing q ∣ q) : uncutUnits q 1 = q := by
  obtain ⟨k, hk⟩ := h
  have hround := roundDiv_mul k (2 ^ spacing q) (by positivity)
  rw [Nat.mul_comm k, ← hk] at hround
  rw [uncutUnits, significand, Nat.div_one, one_mul, hround, Nat.mul_comm, ← hk]

/-- The spacing at a whole number of ones divides it, as far as 24 bits hold it. -/
theorem spacing_dvd_ones {n : Nat} (hn : n ≤ 2 ^ 24) : 2 ^ spacing (n * 2 ^ 149) ∣ n * 2 ^ 149 := by
  rcases Nat.eq_or_lt_of_le hn with rfl | hlt
  · decide +kernel
  · have hspacing : spacing (n * 2 ^ 149) ≤ 149 := by
      rcases Nat.eq_zero_or_pos n with rfl | hpos
      · decide
      · have hlog : Nat.log2 (n * 2 ^ 149) < 173 := by
          rw [Nat.log2_lt (by positivity)]; omega
        unfold spacing; omega
    exact Dvd.dvd.mul_left (pow_dvd_pow 2 hspacing) n

theorem cvt_below_threshold {n : Nat} (hn : n ≤ 2 ^ 32) : 2 * (n * unitsPerOne) < (2 ^ 25 - 1) * 2 ^ 253 * 1 := by
  unfold unitsPerOne; omega

theorem cvt_isFinite {n : Nat} (hn : n ≤ 2 ^ 32) : isFinite (cvt n) = true :=
  isFinite_pack_roundMag false one_pos (cvt_below_threshold hn)

theorem cvt_sign (n : Nat) : sign (cvt n) = false := sign_pack (roundMag_le_inf _ _)

theorem cvt_units {n : Nat} (hn : n ≤ 2 ^ 24) : units (cvt n) = n * 2 ^ 149 := by
  rw [cvt, units_pack (roundMag_le_inf _ _), roundMag_eq_uncutMag one_pos (cvt_below_threshold (by omega)),
    unitsOf_uncutMag one_pos]
  exact uncutUnits_of_dvd (spacing_dvd_ones hn)

/-- A counter is converted to 2^32 at most. -/
theorem cvt_toNat_le {n : Nat} (hn : n ≤ 2 ^ 32) : (cvt n).toNat ≤ 0x4F800000 := by
  have hmag : roundMag (n * unitsPerOne) 1 ≤ 0x4F800000 := by
    have hunits : unitsOf 0x4F800000 = 2 ^ 32 * unitsPerOne := by decide +kernel
    refine roundMag_le (by decide) one_pos ?_
    rw [hunits, mul_one]
    exact Nat.mul_le_mul_right _ hn
  rw [cvt, pack_toNat (roundMag_le_inf _ _)]
  simpa using hmag

/-! ### Products -/

/-- Multiplication is monotone on the patterns of positive finite values. -/
theorem fmul_toNat_mono {a a' b b' : Word} (ha' : a'.toNat < infMag) (hb' : b'.toNat < infMag)
    (ha : a.toNat ≤ a'.toNat) (hb : b.toNat ≤ b'.toNat) : (fmul a b).toNat ≤ (fmul a' b').toNat := by
  rw [fmul_toNat (by omega) (by omega), fmul_toNat ha' hb']
  refine roundMag_mono (by decide) (by decide) (Nat.mul_le_mul_right _ (Nat.mul_le_mul ?_ ?_))
  · exact (unitsOf_le_iff (by omega) (by omega)).2 ha
  · exact (unitsOf_le_iff (by omega) (by omega)).2 hb

/-- A factor of at most 1.0 does not raise a value. -/
theorem fmul_toNat_le_of_le_one {a d : Word} (ha : a.toNat ≤ 0x3F800000) (hd : d.toNat < infMag) :
    (fmul a d).toNat ≤ d.toNat := by
  have hone : unitsOf 0x3F800000 = unitsPerOne := by decide +kernel
  have hle : unitsOf a.toNat ≤ unitsPerOne := hone ▸ (unitsOf_le_iff (ha.trans (by decide)) (by decide)).2 ha
  rw [fmul_toNat (ha.trans_lt (by decide)) hd]
  refine roundMag_le hd.le (by decide) ?_
  rw [Nat.mul_comm]
  exact Nat.mul_le_mul_left _ hle

/-- A product of finite values with a zero among them. -/
theorem fmul_of_units_zero {a b : Word} (ha : isFinite a = true) (hb : isFinite b = true)
    (h : units a = 0 ∨ units b = 0) : fmul a b = pack (sign a != sign b) 0 := by
  have hzero : units a * units b = 0 := Nat.mul_eq_zero.2 h
  have hround : roundMag 0 unitsPerOne = 0 := by decide +kernel
  rw [fmul_finite ha hb, hzero, hround]

theorem units_eq_zero_of_isZero {v : Word} (h : isZero v = true) : units v = 0 := by
  rw [units_eq, (isZero_iff v).1 h]; rfl

theorem isFinite_of_isZero {v : Word} (h : isZero v = true) : isFinite v = true := by
  rw [isFinite_iff, (isZero_iff v).1 h]; decide

/-- A NaN times what is no NaN. -/
theorem fmul_of_isNaN {x g : Word} (hx : isNaN x = true) (hg : isFinite g = true) :
    fmul x g = x ||| 0x00400000#32 := by
  simp [fmul, nanResult, quiet, hx, finite_no_special hg]

theorem isNaN_of_isInf {x : Word} (hx : isInf x = true) : isNaN x = false := by
  rw [isNaN_eq_false_iff, (isInf_iff x).1 hx]

/-- An infinity times a finite value. -/
theorem fmul_of_isInf {x g : Word} (hx : isInf x = true) (hg : isFinite g = true) :
    fmul x g = if isZero g = true then 0x7FC00000#32 else pack (sign x != sign g) infMag := by
  have hxzero : isZero x = false := by
    rw [← Bool.not_eq_true, isZero_iff, (isInf_iff x).1 hx]; decide
  simp [fmul, isNaN_of_isInf hx, hx, finite_no_special hg, hxzero, Config.nanCanon]

/-- A word is its sign and its magnitude bits. -/
theorem pack_sign_mag (x : Word) : pack (sign x) (x.toNat % 2 ^ 31) = x := by
  apply BitVec.eq_of_toNat_eq
  have := x.isLt
  rw [sign_eq]
  by_cases hs : 2 ^ 31 ≤ x.toNat
  · rw [decide_eq_true hs, pack_toNat_neg (by omega)]; omega
  · rw [decide_eq_false hs, pack_toNat_pos (by omega)]; omega

/-- 1.0 is neutral, but for a NaN, which is made quiet. -/
theorem fmul_one (x : Word) : fmul x 0x3F800000#32 = if isNaN x = true then x ||| 0x00400000#32 else x := by
  have hone : isFinite 0x3F800000#32 = true ∧ isZero 0x3F800000#32 = false ∧ sign 0x3F800000#32 = false ∧
      units 0x3F800000#32 = unitsPerOne := by decide +kernel
  obtain ⟨hfinite, hzero, hsign, hunits⟩ := hone
  split <;> rename_i hn
  · exact fmul_of_isNaN hn hfinite
  · have hmag := (isNaN_eq_false_iff x).1 (by simpa using hn)
    rcases Nat.eq_or_lt_of_le hmag with hinf | hlt
    · rw [fmul_of_isInf ((isInf_iff x).2 hinf) hfinite, hzero, hsign, if_neg (by simp), Bool.bne_false, ← hinf,
        pack_sign_mag]
    · rw [fmul_finite ((isFinite_iff x).2 hlt) hfinite, hsign, hunits, units_eq, roundMag_unitsOf hmag (by decide),
        Bool.bne_false, pack_sign_mag]

/-! ### Bounds that are whole numbers -/

/-- `v` is finite and its magnitude is at most `k`. -/
def Within (k : Nat) (v : Word) : Prop := isFinite v = true ∧ units v ≤ k * 2 ^ 149

/-- A whole number that binary32 holds bounds a rounded magnitude if it bounds the exact one. -/
theorem within_pack {k n d : Nat} (s : Bool) (hk : k ≤ 2 ^ 24) (hd : 0 < d) (h : n ≤ k * 2 ^ 149 * d) :
    Within k (pack s (roundMag n d)) := by
  have hfinite : (cvt k).toNat % 2 ^ 31 < infMag := (isFinite_iff _).1 (cvt_isFinite (by omega))
  have hunits : unitsOf ((cvt k).toNat % 2 ^ 31) = k * 2 ^ 149 := by rw [← units_eq, cvt_units hk]
  have hround : roundMag n d ≤ (cvt k).toNat % 2 ^ 31 := roundMag_le hfinite.le hd (by rwa [hunits])
  refine ⟨?_, ?_⟩
  · rw [isFinite_iff, pack_mag (roundMag_le_inf n d)]; omega
  · rw [units_pack (roundMag_le_inf n d), ← hunits]
    exact (unitsOf_le_iff (roundMag_le_inf n d) hfinite.le).2 hround

/-- A pattern whose magnitude bits are at most those of a whole number. -/
theorem within_of_mag_le {k m : Nat} {v : Word} (hm : m < infMag) (hk : unitsOf m ≤ k * 2 ^ 149)
    (h : v.toNat % 2 ^ 31 ≤ m) : Within k v := by
  refine ⟨(isFinite_iff v).2 (by omega), ?_⟩
  rw [units_eq]
  exact ((unitsOf_le_iff (by omega) hm.le).2 h).trans hk

section
variable {j k : Nat} {a b : Word}

theorem natAbs_value (v : Word) : (value v).natAbs = units v := by
  unfold value; split <;> simp

theorem fmul_within (ha : Within j a) (hb : Within k b) (hjk : j * k ≤ 2 ^ 24) : Within (j * k) (fmul a b) := by
  obtain ⟨hfa, hua⟩ := ha
  obtain ⟨hfb, hub⟩ := hb
  rw [fmul_finite hfa hfb]
  refine within_pack _ hjk (by decide) ?_
  calc units a * units b ≤ j * 2 ^ 149 * (k * 2 ^ 149) := Nat.mul_le_mul hua hub
    _ = j * k * 2 ^ 149 * unitsPerOne := by unfold unitsPerOne; ring

theorem fadd_within (ha : Within j a) (hb : Within k b) (hjk : j + k ≤ 2 ^ 24) : Within (j + k) (fadd a b) := by
  obtain ⟨hfa, hua⟩ := ha
  obtain ⟨hfb, hub⟩ := hb
  rw [fadd_finite hfa hfb]
  split
  · have hzero : roundMag 0 1 = 0 := by decide
    rw [← hzero]
    exact within_pack _ hjk one_pos (Nat.zero_le _)
  · refine within_pack _ hjk one_pos ?_
    have hsum := Int.natAbs_add_le (value a) (value b)
    rw [natAbs_value, natAbs_value] at hsum
    omega

theorem fsub_within (ha : Within j a) (hb : Within k b) (hjk : j + k ≤ 2 ^ 24) : Within (j + k) (fsub a b) := by
  obtain ⟨-, hfinite, hunits, -⟩ := negate_spec b
  rw [fsub_finite ha.1 hb.1]
  exact fadd_within ha ⟨hfinite.trans hb.1, hunits.trans_le hb.2⟩ hjk

end

/-! ### Values between a bound's negative and zero -/

/-- A finite value in [-c, +0.0], c being a positive pattern. -/
def NegatedWithin (c : Nat) (v : Word) : Prop :=
  isFinite v = true ∧ value v ≤ 0 ∧ units v ≤ unitsOf c

/-- What is at most `d`, less `d`. -/
theorem fsub_negatedWithin {a d : Word} (had : a.toNat ≤ d.toNat) (hd : d.toNat < infMag) :
    NegatedWithin d.toNat (fsub a d) := by
  obtain ⟨hfa, hsa, -, hva⟩ := value_of_toNat_lt (had.trans_lt hd)
  obtain ⟨hfd, -, -, hvd⟩ := value_of_toNat_lt hd
  obtain ⟨-, hfinite, -, hvalue⟩ := negate_spec d
  have hle := (unitsOf_le_iff (had.trans hd.le) hd.le).2 had
  have hsum : value a + value (negate d) = -((unitsOf d.toNat - unitsOf a.toNat : Nat) : Int) := by
    omega
  rw [fsub_finite hfa hfd, fadd_finite hfa (hfinite.trans hfd), hsum, hsa, Bool.false_and, Int.natAbs_neg,
    Int.natAbs_natCast]
  split
  · exact ⟨by decide, by decide, Nat.zero_le _⟩
  · have hround := roundMag_le (n := unitsOf d.toNat - unitsOf a.toNat) hd.le one_pos (by omega)
    have hmag := roundMag_le_inf (unitsOf d.toNat - unitsOf a.toNat) 1
    rw [decide_eq_true (by omega)]
    refine ⟨?_, ?_, ?_⟩
    · rw [isFinite_iff, pack_mag hmag]; omega
    · rw [value, sign_pack hmag, if_pos rfl]; omega
    · rw [units_pack hmag]
      exact (unitsOf_le_iff hmag hd.le).2 hround

/-- A value in [-c, +0.0] plus `c` lies in [+0.0, c]. -/
theorem fadd_toNat_le_of_negatedWithin {v c : Word} (hc : c.toNat < infMag) (hv : NegatedWithin c.toNat v) :
    (fadd v c).toNat ≤ c.toNat := by
  obtain ⟨hfinite, hnonpos, hunits⟩ := hv
  obtain ⟨hfc, hsc, -, hvc⟩ := value_of_toNat_lt hc
  have habs := natAbs_value v
  rw [fadd_finite hfinite hfc, hvc, hsc, Bool.and_false]
  split
  · simp [pack]
  · rw [decide_eq_false (by omega), pack_toNat (roundMag_le_inf _ _), if_neg Bool.false_ne_true, Nat.zero_add]
    exact roundMag_le hc.le one_pos (by omega)

end Sys2Proof.Machine.F32

namespace Sys2Proof.Machine

/-! ### The index (R102 to R106, R115) -/

/-- Settles O30: below the overflow threshold the conversion is finite, and 24 bits hold a counter up to 2^24. -/
theorem counterConversion : Obligations.CounterConversion := by
  refine ⟨fun n hn => ⟨F32.isRounded_pack false _ one_pos, F32.cvt_isFinite hn.le⟩, fun n hn => ?_, ?_, ?_, ?_, ?_⟩
  · rw [F32.value, F32.cvt_sign, if_neg Bool.false_ne_true, F32.cvt_units hn]
  all_goals decide +kernel

theorem indexOf_lt (p : Word) : indexOf p < 2000 := by
  unfold indexOf
  split
  · exact Nat.mod_lt _ (by decide)
  · exact (Config.freeIndex p).isLt

/-- Settles O27: a remainder by 2000, or the free index, which is one. -/
theorem indexInTable : Obligations.IndexInTable := fun s => indexOf_lt (phaseProduct s)

/-- A scale of a legal state is at most 40000.0 (R104). -/
theorem Legal.curScale_le {s : State} (hs : Legal s) : s.curScale.toNat ≤ 0x471C4000 := by
  rcases hs.cur with h | ⟨-, h⟩
  · simp [h]
  · exact h

/-- R104: no product is above that of the highest counter and the highest scale. -/
theorem phaseProduct_le {s : State} (hs : Legal s) : (phaseProduct s).toNat ≤ 0x571C4000 := by
  have hmax : F32.fmul 0x4F800000#32 0x471C4000#32 = 0x571C4000#32 := by decide +kernel
  have h := F32.fmul_toNat_mono (a := F32.cvt s.samples.toNat) (a' := 0x4F800000#32) (b := s.curScale)
    (b' := 0x471C4000#32) (by decide) (by decide) (F32.cvt_toNat_le s.samples.isLt.le) hs.curScale_le
  rwa [hmax] at h

/-- The index of a product that is finite and has no sign (R103). -/
theorem indexOf_eq {p : Word} (hf : F32.isFinite p = true) (hs : F32.sign p = false) :
    indexOf p = F32.units p / 2 ^ 149 % 2000 := by
  have hv : 0 ≤ F32.value p := by simp [F32.value, hs]
  rw [indexOf, hf, decide_eq_true hv, Bool.and_self, if_pos rfl]
  rfl

/-- Settles O26: the product is at most that of the highest counter and the highest scale. -/
theorem phaseProductIsFinite : Obligations.PhaseProductIsFinite := by
  intro s hs
  obtain ⟨hf, hsign, -, -⟩ := F32.value_of_toNat_lt ((phaseProduct_le hs).trans_lt (by decide))
  exact ⟨hf, hsign, indexOf_eq hf hsign⟩

/-- A counter at 0 gives index 0 at every finite scale without a sign. -/
theorem stepIndex_of_samples_zero {s : State} (hsamples : s.samples = 0#32) (hscale : s.curScale.toNat < F32.infMag) :
    stepIndex s = 0 := by
  have hcvt : F32.cvt (0#32).toNat = 0#32 := by decide
  obtain ⟨hfinite, hsign, -, -⟩ := F32.value_of_toNat_lt hscale
  have hp : phaseProduct s = 0#32 := by
    rw [phaseProduct, hsamples, hcvt, F32.fmul_of_units_zero (by decide) hfinite (.inl (by decide)), hsign]
    rfl
  rw [stepIndex, hp, indexOf_eq (by decide) (by decide)]
  decide

/-- Settles O28: the scales of a legal state are finite and have no sign. -/
theorem zeroCounterGivesIndexZero : Obligations.ZeroCounterGivesIndexZero :=
  fun _ hs h => stepIndex_of_samples_zero h (hs.curScale_le.trans_lt (by decide))

/-! ### The gain (R111, R112) -/

/-- With a depth of either zero the gain of a finite entry is 1.0 (R112). -/
theorem gain_of_depth_zero {raw d : Word} (hraw : F32.isFinite raw = true)
    (hd : d = 0x00000000#32 ∨ d = 0x80000000#32) : gain raw d = 0x3F800000#32 := by
  have hzero : F32.isFinite d = true ∧ F32.units d = 0 := by rcases hd with rfl | rfl <;> decide
  obtain ⟨hfinite, hunits⟩ := hzero
  rw [gain, F32.fmul_of_units_zero hraw hfinite (.inr hunits)]
  generalize (F32.sign raw != F32.sign d) = negative
  rcases hd with rfl | rfl <;> cases negative <;> decide +kernel

theorem romRead_within {i : Nat} (sel : Table) (hi : i < 2000) : F32.Within 2 (romRead sel i) := by
  refine F32.within_of_mag_le (m := 0x40000000) (by decide) (by decide +kernel) ?_
  cases sel with
  | sine =>
    obtain ⟨hle, -, -⟩ := sine_range hi
    omega
  | square =>
    obtain ⟨hmin, hmax⟩ := square_extremes hi
    omega

theorem depth_within {d : Word} (hd : depthInRange d) : F32.Within 100 d := by
  refine F32.within_of_mag_le (m := 0x42C80000) (by decide) (by decide +kernel) ?_
  rcases hd with hle | rfl
  · omega
  · decide

/-- Settles O34: whole-number bounds of the four operations, 2 · 100, + 100, + 100 and · 1. -/
theorem gainIsFinite : Obligations.GainIsFinite := by
  intro sel i d hi hd
  have hdepth := depth_within hd
  have hK100 : F32.Within 100 Config.k100 := depth_within (.inl (by decide))
  have hK001 : F32.Within 1 Config.k001 :=
    F32.within_of_mag_le (m := 0x3F800000) (by decide) (by decide +kernel) (by decide)
  have h1 := F32.fmul_within (romRead_within sel hi) hdepth (by decide)
  have h2 := F32.fsub_within h1 hdepth (by decide)
  have h3 := F32.fadd_within h2 hK100 (by decide)
  exact (F32.fmul_within h3 hK001 (by decide)).1

/-- Settles O32: raw · d is at most d, less d it lies in [-d, 0], plus 100.0 in [0, 100], and 100.0 · K001 is 1.0. -/
theorem sineGainWithinUnit : Obligations.SineGainWithinUnit := by
  intro i d hi hd
  obtain ⟨hraw, -, -⟩ := sine_range hi
  rcases hd with hle | hneg
  · have hdinf : d.toNat < F32.infMag := hle.trans_lt (by decide)
    have hless : F32.NegatedWithin Config.k100.toNat (F32.fsub (F32.fmul (romRead .sine i) d) d) := by
      obtain ⟨hfinite, hnonpos, hunits⟩ := F32.fsub_negatedWithin (F32.fmul_toNat_le_of_le_one hraw hdinf) hdinf
      exact ⟨hfinite, hnonpos, hunits.trans ((F32.unitsOf_le_iff hdinf.le (by decide)).2 hle)⟩
    have hplus := F32.fadd_toNat_le_of_negatedWithin (by decide) hless
    have hone : F32.fmul Config.k100 Config.k001 = 0x3F800000#32 := by decide +kernel
    have hgain := F32.fmul_toNat_mono (b := Config.k001) (b' := Config.k001) (by decide) (by decide) hplus le_rfl
    rwa [hone] at hgain
  · rw [gain_of_depth_zero (romRead_within .sine hi).1 (.inr hneg)]
    decide

/-! ### The output (R112 to R114) -/

/-- Settles O31: the gain is 1.0, which is neutral. -/
theorem depthZeroIsIdentity : Obligations.DepthZeroIsIdentity := by
  intro x s hd
  have hraw := (romRead_within s.latSel (indexInTable s)).1
  rw [sampleOut, gain_of_depth_zero hraw hd, F32.fmul_one]

/-- Settles O33: the branches of a product with a finite factor. -/
theorem specialValuesOfOutput : Obligations.SpecialValuesOfOutput := by
  intro x g hg
  refine ⟨fun hx => F32.fmul_of_isNaN hx hg, fun hx hz => ?_, fun hx hz => ?_, fun hx => ?_,
    fun hx => (arithmeticIsRounded x g hx hg).1⟩
  · rw [F32.fmul_of_isInf hx hg, if_pos hz]
  · rw [F32.fmul_of_isInf hx hg, hz, if_neg Bool.false_ne_true]
    cases F32.sign x <;> cases F32.sign g <;> rfl
  · rw [F32.fmul_of_units_zero (F32.isFinite_of_isZero hx) hg (.inl (F32.units_eq_zero_of_isZero hx))]
    cases F32.sign x <;> cases F32.sign g <;> rfl

/-! ### The sample step in full (R101) -/

/-- Settles O24: the record update of a sample step, its counters as numbers. -/
theorem sampleStepInFull : Obligations.SampleStepInFull := by
  intro x rest s he h
  have hsamples : s.samples + 1#32 = BitVec.ofNat 32 ((s.samples.toNat + 1) % 2 ^ 32) := by
    apply BitVec.eq_of_toNat_eq; simp
  have hremain : s.remain - 1#24 = BitVec.ofNat 24 (s.remain.toNat - 1) := by
    have := he.2
    bv_omega
  rw [step_sample he h, sampleStep_withHost, sampleStep_eq, ← hsamples, ← hremain]
  rfl

/-- Settles O29: at +0.0 the scale asked for differs, and counter and scale give index 0. -/
theorem firstSampleFiresRuleA : Obligations.FirstSampleFiresRuleA := by
  intro x rest s he h hsamples hcur hpend
  obtain ⟨hlo, hhi⟩ := hpend
  have hidx : stepIndex s = 0 := stepIndex_of_samples_zero hsamples (by rw [hcur]; decide)
  have hne : F32.fne s.pendScale s.curScale = true := by
    have hinf : F32.infMag = 0x7F800000 := rfl
    rw [hcur, F32.fne_iff_ne (by omega) (by decide)]
    intro hzero
    simp [hzero] at hlo
  have hfires : firesA s := ⟨hne, hidx⟩
  refine ⟨_, step_sample he h, ?_⟩
  rw [sampleStep_withHost, sampleStep_eq, if_pos hfires, if_pos (.inl hfires), sampleOut, hidx]
  exact ⟨rfl, rfl, rfl⟩

/-! ### PROCESS and PROCESS.S (R99, R100) -/

/-- Settles O22: the one check of PROCESS.S passes. -/
theorem silentProcessDoesNothing : Obligations.SilentProcessDoesNothing := by
  intro cnt s hcfg
  rw [exec_eq, execResult, if_pos hcfg]

/-- The sample steps of a list of samples. -/
def sampleSteps (xs : List Word) (s : State) : State := xs.foldl (fun s x => sampleStep x s) s

theorem sampleSteps_cons (x : Word) (xs : List Word) (s : State) :
    sampleSteps (x :: xs) s = sampleSteps xs (sampleStep x s) := rfl

/-- A sample step counts REMAIN down. -/
theorem sampleStep_remain_toNat {n : Nat} {s : State} (h : s.remain.toNat = n + 1) (x : Word) :
    (sampleStep x s).remain.toNat = n := by
  have hremain : (sampleStep x s).remain = s.remain - 1#24 := by rw [sampleStep_eq]
  rw [hremain]; bv_omega

theorem sampleStep_fault (x : Word) (s : State) : (sampleStep x s).fault = s.fault := by rw [sampleStep_eq]

theorem expectsSample_of_remain {n : Nat} {s : State} (hf : s.fault = false) (h : s.remain.toNat = n + 1) :
    expectsSample s := ⟨hf, fun hzero => by simp [hzero] at h⟩

/-- While as many samples are due as are sent, each is taken (R37, R56). -/
theorem runSteps_samples {xs : List Word} (rest : List HostMove) {s : State} (hf : s.fault = false)
    (hr : s.remain.toNat = xs.length) :
    runSteps xs.length (withHost (xs.map (.send .cmd) ++ rest) s) = .next (withHost rest (sampleSteps xs s)) := by
  induction xs generalizing s with
  | nil => rfl
  | cons x xs ih =>
    rw [List.length_cons, List.map_cons, List.cons_append,
      runSteps_succ (step_sample_withHost (expectsSample_of_remain hf hr)), sampleSteps_cons]
    exact ih ((sampleStep_fault x s).trans hf) (sampleStep_remain_toNat hr x)

/-- The last sample leaves REMAIN 0 and CMD at a command word, and every sample has put one word on OUT. -/
theorem sampleSteps_spec {xs : List Word} {s : State} (hf : s.fault = false) (hr : s.remain.toNat = xs.length)
    (hd : s.cmdDec = Option.none) :
    (sampleSteps xs s).remain = 0#24 ∧ expectsCommand .cmd (sampleSteps xs s) ∧
      ∃ ys, (sampleSteps xs s).out = s.out ++ ys ∧ ys.length = xs.length := by
  induction xs generalizing s with
  | nil =>
    have hzero : s.remain = 0#24 := BitVec.eq_of_toNat_eq hr
    exact ⟨hzero, ⟨by simp, hf, fun _ => hzero, hd⟩, [], by simp [sampleSteps], rfl⟩
  | cons x xs ih =>
    have hdec : (sampleStep x s).cmdDec = Option.none := by rw [sampleStep_eq]; exact hd
    obtain ⟨hremain, hcommand, ys, hout, hlen⟩ :=
      ih ((sampleStep_fault x s).trans hf) (sampleStep_remain_toNat hr x) hdec
    have hfirst : (sampleStep x s).out = s.out ++ [sampleOut x s] := by rw [sampleStep_eq]
    rw [sampleSteps_cons]
    exact ⟨hremain, hcommand, sampleOut x s :: ys, by rw [hout, hfirst]; simp, by simp [hlen]⟩

/-! ### What is sent beside a PROCESS (R57, R59, R92) -/

/-- The block without the parameters, the answers of reads and the moves to come: all that a sample step reads or
writes. -/
def signalPath (s : State) : State :=
  { s with freq := 0#32, depth := 0#32, wave := 0#32, rdOut := [], host := [] }

/-- What the signal path holds. -/
theorem counters_of_signalPath {s t : State} (h : signalPath s = signalPath t) :
    s.out = t.out ∧ s.samples = t.samples ∧ s.curScale = t.curScale ∧ s.remain = t.remain := by
  injection h
  simp only [*, and_self]

/-- A command that the host may send beside a running PROCESS: whole, on PAR or RD. -/
abbrev Beside (c : Port × Instr) : Prop := c.1 ≠ .cmd ∧ c.2.legalOn c.1 = true

/-- The state after some commands. -/
def execResults (cs : List (Port × Instr)) (s : State) : State := cs.foldl (fun s c => execResult c.2 s) s

/-- The sample steps of a list of samples, each with the commands sent before it. -/
def besideSteps (xs : List (List (Port × Instr) × Word)) (s : State) : State :=
  xs.foldl (fun s x => sampleStep x.2 (execResults x.1 s)) s

/-- The moves of a list of samples, each with the commands sent before it. -/
def besideMoves (xs : List (List (Port × Instr) × Word)) : List HostMove :=
  xs.flatMap fun x => sendAll x.1 ++ [.send .cmd x.2]

theorem signalPath_sampleStep (x : Word) (s : State) : signalPath (sampleStep x s) = sampleStep x (signalPath s) := by
  rw [sampleStep_eq, sampleStep_eq]; rfl

/-- A parameter write or a read is nothing to a sample step. -/
theorem signalPath_execResult {c : Port × Instr} (hc : Beside c) (s : State) :
    signalPath (execResult c.2 s) = signalPath s := by
  obtain ⟨p, i⟩ := c
  obtain ⟨hp, hl⟩ := hc
  cases i with
  | init | reset | process | processS => exact absurd (by simpa [Instr.legalOn] using hl) hp
  | setFreq | setDepth | setWave | rd => rfl

theorem signalPath_execResults {cs : List (Port × Instr)} (hcs : ∀ c ∈ cs, Beside c) (s : State) :
    signalPath (execResults cs s) = signalPath s := by
  induction cs generalizing s with
  | nil => rfl
  | cons c cs ih =>
    exact (ih (fun d hd => hcs d (List.mem_cons_of_mem c hd)) _).trans
      (signalPath_execResult (hcs c List.mem_cons_self) s)

/-- Noninterference: the samples with the commands and the samples alone end in the same signal path. -/
theorem signalPath_besideSteps {xs : List (List (Port × Instr) × Word)} (hxs : ∀ x ∈ xs, ∀ c ∈ x.1, Beside c)
    {s t : State} (hst : signalPath s = signalPath t) :
    signalPath (besideSteps xs s) = signalPath (sampleSteps (xs.map Prod.snd) t) := by
  induction xs generalizing s t with
  | nil => exact hst
  | cons x xs ih =>
    refine ih (fun y hy => hxs y (List.mem_cons_of_mem x hy)) ?_
    rw [signalPath_sampleStep, signalPath_sampleStep, signalPath_execResults (hxs x List.mem_cons_self), hst]

/-- Whether PAR expects a command word is a matter of the signal path. -/
theorem expectsCommand_par_of_signalPath {s t : State} (h : signalPath t = signalPath s)
    (hs : expectsCommand .par s) : expectsCommand .par t := by
  have hpath : expectsCommand .par (signalPath s) := hs
  rw [← h] at hpath
  exact hpath

/-- The words of a command beside a PROCESS, taken in one step. -/
theorem step_beside {c : Port × Instr} (hc : Beside c) (rest : List HostMove) {s : State}
    (he : expectsCommand .par s) :
    step (withHost ((encode c.2).map (.send c.1) ++ rest) s) = .next (withHost rest (execResult c.2 s)) := by
  obtain ⟨p, i⟩ := c
  obtain ⟨hp, hl⟩ := hc
  cases p with
  | cmd => exact absurd rfl hp
  | par => exact step_encode rest he hl
  | rd =>
    cases i with
    | rd a =>
      have hread := stepRunsDecodedInstruction.2 (a.setWidth 32) rest
        (withHost (.send .rd (a.setWidth 32) :: rest) s) rfl
      have haddr : BitVec.ofNat 4 ((a.setWidth 32).toNat % 16) = a := by
        have := a.isLt
        apply BitVec.eq_of_toNat_eq; simp; omega
      rw [haddr] at hread
      exact hread.trans (exec_eq _ _)
    | init | reset | process | processS | setFreq | setDepth | setWave => simp [Instr.legalOn] at hl

theorem runSteps_execResults {cs : List (Port × Instr)} (hcs : ∀ c ∈ cs, Beside c) (rest : List HostMove) {s : State}
    (he : expectsCommand .par s) :
    runSteps cs.length (withHost (sendAll cs ++ rest) s) = .next (withHost rest (execResults cs s)) := by
  induction cs generalizing s with
  | nil => rfl
  | cons c cs ih =>
    have hc : Beside c := hcs c List.mem_cons_self
    have hmoves : sendAll (c :: cs) ++ rest = (encode c.2).map (.send c.1) ++ (sendAll cs ++ rest) := by
      simp [sendAll]
    rw [hmoves, List.length_cons, runSteps_succ (step_beside hc _ he)]
    exact ih (fun d hd => hcs d (List.mem_cons_of_mem c hd))
      (expectsCommand_par_of_signalPath (signalPath_execResult hc s) he)

/-- The run of a PROCESS from its first sample on, with whole commands sent before the samples. -/
theorem runSteps_besideMoves {xs : List (List (Port × Instr) × Word)} (hxs : ∀ x ∈ xs, ∀ c ∈ x.1, Beside c)
    (rest : List HostMove) {s : State} (he : expectsCommand .par s) (hr : s.remain.toNat = xs.length) :
    runSteps (xs.length + (xs.flatMap Prod.fst).length) (withHost (besideMoves xs ++ rest) s) =
      .next (withHost rest (besideSteps xs s)) := by
  induction xs generalizing s with
  | nil => rfl
  | cons x xs ih =>
    have hx : ∀ c ∈ x.1, Beside c := hxs x List.mem_cons_self
    have hpath := signalPath_execResults hx s
    have hpar := expectsCommand_par_of_signalPath hpath he
    have ⟨_, hf, _, _⟩ := hpar
    have hremain : (execResults x.1 s).remain.toNat = xs.length + 1 := (congrArg (·.remain.toNat) hpath).trans hr
    have hmoves : besideMoves (x :: xs) ++ rest = sendAll x.1 ++ (.send .cmd x.2 :: (besideMoves xs ++ rest)) := by
      simp [besideMoves]
    have hlength : (x :: xs).length + ((x :: xs).flatMap Prod.fst).length =
        x.1.length + (xs.length + (xs.flatMap Prod.fst).length + 1) := by
      simp only [List.length_cons, List.flatMap_cons, List.length_append]; omega
    rw [hmoves, hlength, runSteps_add (runSteps_execResults hx _ he),
      runSteps_succ (step_sample_withHost (expectsSample_of_remain hf hremain))]
    exact ih (fun y hy => hxs y (List.mem_cons_of_mem x hy)) (expectsCommand_par_sampleStep hpar x.2)
      (sampleStep_remain_toNat hremain x.2)

/-! ### The run of a PROCESS (R99) -/

/-- Decode and latch of a PROCESS, one step. -/
theorem runSteps_process {cnt : BitVec 24} {s : State} (he : expectsCommand .cmd s) (hcfg : s.cfg = true) (k : Nat)
    (rest : List HostMove) :
    runSteps (1 + k) (withHost (sendAll [(.cmd, .process cnt)] ++ rest) s) =
      runSteps k (withHost rest (latch cnt s)) := by
  rw [sendAll, List.flatMap_singleton, Nat.add_comm, runSteps_succ (step_encode rest he rfl), execResult, if_pos hcfg]

/-- The word of a PROCESS (30_encoding.md R81). -/
theorem sendAll_process (cnt : BitVec 24) :
    sendAll [(.cmd, .process cnt)] = [.send .cmd (BitVec.ofNat 32 (0x30000000 + cnt.toNat))] := by
  have hencode := encode_process (Nat.le_of_lt_succ cnt.isLt : cnt.toNat ≤ maxCount)
  rw [BitVec.ofNat_toNat, BitVec.setWidth_eq] at hencode
  rw [sendAll, List.flatMap_singleton, hencode]
  rfl

/-- A PROCESS and its samples, nothing between them. -/
theorem runSteps_process_samples {cnt : BitVec 24} {xs : List Word} {s : State} (he : expectsCommand .cmd s)
    (hcfg : s.cfg = true) (hlen : xs.length = cnt.toNat) (rest : List HostMove) :
    runSteps (1 + cnt.toNat) (withHost (sendAll [(.cmd, .process cnt)] ++ (xs.map (.send .cmd) ++ rest)) s) =
      .next (withHost rest (sampleSteps xs (latch cnt s))) := by
  rw [runSteps_process he hcfg, ← hlen]
  exact runSteps_samples rest he.2.1 hlen.symm

/-- Settles O25: one step for the latch and one for each sample; the commands beside them leave the signal path to the
samples. -/
theorem processRunsToCompletion : Obligations.ProcessRunsToCompletion := by
  refine ⟨fun cnt xs rest s he hcfg hlen h => ?_, fun cnt xs rest s he hpar hcfg hlen hxs => ?_⟩ <;>
    have ⟨_, hf, _, hdec⟩ := he
  · obtain ⟨hremain, hcommand, ys, hout, hys⟩ := sampleSteps_spec (s := latch cnt s) hf hlen.symm hdec
    have hhost : s = withHost (sendAll [(.cmd, .process cnt)] ++ (xs.map (.send .cmd) ++ rest)) s := by
      rw [sendAll_process]; exact congrArg (withHost · s) h
    have hrun := runSteps_process_samples he hcfg hlen rest
    rw [← hhost] at hrun
    exact ⟨_, ys, hrun, rfl, hout, hys.trans hlen, hremain, (expectsCommand_withHost ..).2 hcommand⟩
  · have ⟨hp, _, _, hparDec⟩ := hpar
    have hparLatch : expectsCommand .par (latch cnt s) := ⟨hp, hf, by simp, hparDec⟩
    have hsamples : (xs.map Prod.snd).length = cnt.toNat := by rw [List.length_map, hlen]
    have hbeside : runSteps (1 + cnt.toNat + (xs.flatMap Prod.fst).length)
        (withHost (sendAll [(.cmd, .process cnt)] ++ (besideMoves xs ++ rest)) s) =
          .next (withHost rest (besideSteps xs (latch cnt s))) := by
      rw [Nat.add_assoc, runSteps_process he hcfg, ← hlen]
      exact runSteps_besideMoves hxs rest hparLatch hlen.symm
    have halone := runSteps_process_samples he hcfg hsamples rest
    rw [← List.append_assoc] at hbeside halone
    rw [List.map_map] at halone
    obtain ⟨hremain, -, -⟩ := sampleSteps_spec (s := latch cnt s) hf hsamples.symm hdec
    obtain ⟨hout, hcount, hscale, hrest⟩ := counters_of_signalPath
      (signalPath_besideSteps hxs (rfl : signalPath (latch cnt s) = signalPath (latch cnt s)))
    exact ⟨_, _, hbeside, halone, rfl, rfl, hout, hcount, hscale, hrest.trans hremain, hremain⟩

end Sys2Proof.Machine
end

section
/-! PROOFS. The family 60_exceptions.md: FAULTED, how a step enters it, what it keeps and how a step leaves it; no state
stops the block; and several channels. The idea: from `step_inv`, one lemma says all that a step can do in FAULTED, and
one that a command enters it through `raiseFault` only. -/

namespace Sys2Proof.Machine

/-! ### A step in FAULTED (R123, R125, R126) -/

theorem sameRegisters_trans {s t u : State} (h : sameRegisters s t) (h' : sameRegisters t u) : sameRegisters s u := by
  simp_all [sameRegisters]

theorem sameRegisters_fault {s t : State} (h : sameRegisters s t) : t.fault = s.fault := by
  obtain ⟨-, -, -, -, -, -, -, -, -, -, -, hfault, -⟩ := h
  exact hfault

/-- All that a step can do in FAULTED: take an RST, or serve a read, leave a word on its port or wait. -/
theorem StepTo.frozen_or_rst {s t : State} (h : StepTo s t) (hf : s.fault = true) :
    (∃ rest, s.host = .rst :: rest) ∨ sameRegisters s t ∧ t.out = s.out ∧ t.host <:+ s.host := by
  cases h with
  | idle => exact .inr (by simp [sameRegisters])
  | rst rest hh => exact .inl ⟨rest, hh⟩
  | read w rest hh | untaken p w rest _ hh => exact .inr (by simp [sameRegisters, hh])
  | sample x rest _ he =>
    obtain ⟨hfault, -⟩ := he
    simp [hf] at hfault
  | reject p w rest c _ he | awaits p op rest _ he | command p i rest _ he =>
    obtain ⟨-, hfault, -⟩ := he
    simp [hf] at hfault
  | data p op d rest _ _ hfault => simp [hf] at hfault

/-- Settles O45: every other step in FAULTED keeps FAULT. -/
theorem onlyRstLeavesFaulted : Obligations.OnlyRstLeavesFaulted := by
  intro s t hstep hf ht
  refine ((stepTo_of_step hstep).frozen_or_rst hf).resolve_right fun ⟨hsame, _⟩ => ?_
  simp [sameRegisters_fault hsame, hf] at ht

/-- Settles O41, by induction on the number of steps: each keeps the registers and OUT, and adds no RST to come. -/
theorem faultedIsFrozen : Obligations.FaultedIsFrozen := by
  intro k
  induction k with
  | zero => exact fun s _ _ => ⟨s, rfl, by simp [sameRegisters], rfl⟩
  | succ k ih =>
    intro s hf hrst
    obtain ⟨u, hu, hto⟩ := step_inv s
    rcases hto.frozen_or_rst hf with ⟨rest, hh⟩ | ⟨hsame, hout, hhost⟩
    · exact absurd (by simp [hh]) hrst
    · obtain ⟨t, ht, hsame', hout'⟩ := ih u ((sameRegisters_fault hsame).trans hf) fun hmem => hrst (hhost.subset hmem)
      exact ⟨t, (runSteps_succ hu).trans ht, sameRegisters_trans hsame hsame', hout'.trans hout⟩

/-- Settles O42: the word goes to the end of its port's list of untaken words. -/
theorem faultedLeavesWordsUntaken : Obligations.FaultedLeavesWordsUntaken :=
  fun _ _ _ hf => ⟨step_untaken (by simp) hf, step_untaken (by simp) hf⟩

/-! ### A fault on PAR beside a running PROCESS (R124) -/

/-- Bit 2 of STATUS (10_state.md R40). -/
theorem statusWord_getLsbD_two (s : State) : (statusWord s).getLsbD 2 = busy s := by
  have hbit : (statusWord s).toNat / 2 ^ 2 % 2 = (busy s).toNat := by
    have := s.cfg.toNat_le
    have := s.fault.toNat_le
    have := (busy s).toNat_le
    rw [statusWord_toNat]
    omega
  rw [BitVec.getLsbD, Nat.testBit_eq_decide_div_mod_eq, hbit]
  cases busy s <;> rfl

/-- The words that fault on PAR, by their causes in R121's order: PAR has no PROCESS, so of a legal opcode all the bits
27:0 are reserved. -/
theorem step_of_fault_on_par {w : Word} {rest : List HostMove} {s : State} (he : expectsCommand .par s)
    (h : s.host = .send .par w :: rest) (hw : w.toNat / 2 ^ 28 ≤ 3 ∨ 7 ≤ w.toNat / 2 ^ 28 ∨ w.toNat % 2 ^ 28 ≠ 0) :
    step s = .next (raiseFault (if w.toNat / 2 ^ 28 ≤ 3 ∨ 7 ≤ w.toNat / 2 ^ 28 then .illegalOpcode else .reservedBits)
      (withHost rest s)) := by
  split <;> rename_i hopc
  · exact (illegalOpcodeFaults .par w rest s he h).1 (.inr ⟨rfl, hopc⟩)
  · have hreserved := reservedBitsFaultOrOneRow .par w he.1
    rw [if_pos (.inr ⟨rfl, by omega⟩), if_pos (.inr (by omega))] at hreserved
    exact hreserved rest s he h

/-- Settles O43: the PAR word raises its fault, and the sample word after it stays untaken. -/
theorem faultOnParStopsProcess : Obligations.FaultOnParStopsProcess := by
  intro w x rest s ⟨hf, hr⟩ hdec h hw
  have hfault := step_of_fault_on_par ⟨by simp, hf, by simp, hdec⟩ h hw
  have huntaken := fun c => step_untaken (p := .cmd) (by simp)
    (raiseFault_fault c (withHost (.send .cmd x :: rest) s)) rfl
  refine ⟨_, (runSteps_succ hfault).trans (runSteps_succ (huntaken _)), rfl, rfl, rfl, ?_, rfl, rfl, rfl⟩
  exact (statusWord_getLsbD_two _).trans (by simpa [busy] using hr)

/-! ### A step that enters FAULTED (R118, R122) -/

/-- A meaning enters FAULTED by `raiseFault` of a cause, and does nothing else. -/
theorem ExecTo.eq_raiseFault {s t : State} {i : Instr} (h : ExecTo s i t) (hf : s.fault = false)
    (ht : t.fault = true) : ∃ c, c ≠ .none ∧ t = raiseFault c s := by
  cases h with
  | badRate => exact ⟨.badSampleRate, by simp, rfl⟩
  | unready => exact ⟨.notConfigured, by simp, rfl⟩
  | configure | clear | latch | write => simp [hf] at ht

/-- Settles O44: a command word rejected, or a meaning that raises a fault once its words are taken. -/
theorem faultsComeFromDecoding : Obligations.FaultsComeFromDecoding := by
  intro s t hstep hf ht
  cases stepTo_of_step hstep with
  | idle | rst | read | awaits => simp [hf] at ht
  | untaken p w rest _ _ hfault => simp [hf] at hfault
  | sample x rest => simp [sampleStep_fault, hf] at ht
  | reject p w rest c hh he hc =>
    obtain ⟨hp, -, hr, -⟩ := he
    refine ⟨⟨p, w, rest, hp, hh, fun ⟨hcmd, hne⟩ => hne (hr hcmd)⟩, ?_, by simp [sameRegisters], rfl⟩
    rcases hc with rfl | rfl <;> simp
  | command p i rest hh he =>
    obtain ⟨hp, -, hr, -⟩ := he
    obtain ⟨c, hc, heq⟩ := (execTo_execResult i (withHost rest s)).eq_raiseFault hf ht
    rw [heq]
    exact ⟨⟨p, _, _, hp, hh, fun ⟨hcmd, hne⟩ => hne (hr hcmd)⟩, hc, by simp [sameRegisters], rfl⟩
  | data p op d rest hp hh _ hr =>
    obtain ⟨c, hc, heq⟩ := (execTo_execResult (op.instr d)
      (withHost rest (setDecoder p Option.none s))).eq_raiseFault (by simpa using hf) ht
    rw [heq]
    exact ⟨⟨p, d, rest, hp, hh, fun ⟨hcmd, hne⟩ => hne (hr hcmd)⟩, hc, by simp [sameRegisters], by simp⟩

/-! ### Every state, and several channels (R118, R130, R131) -/

theorem step_of_host_nil {s : State} (h : s.host = []) : step s = .next s := by rw [step, fetch, h]

/-- Settles O48: `step_inv` answers a next state for every state, and an idle host has no word to take. -/
theorem everyStepCompletes : Obligations.EveryStepCompletes :=
  ⟨fun s => let ⟨t, ht, _⟩ := step_inv s; ⟨t, ht⟩, fun _ => step_of_host_nil⟩

/-- A step of a channel is a step of its block, written in its place. -/
theorem channelStep_eq_set {k : Nat} {channels : List State} {s t : State} (h : channels[k]? = some s)
    (hstep : step s = .next t) : channelStep k channels = channels.set k t := by
  rw [channelStep, h]; simp only [hstep]

/-- Settles O56: writing one place of a list leaves the others. -/
theorem channelsAreIndependent : Obligations.ChannelsAreIndependent := by
  intro k channels s h
  obtain ⟨t, hstep, -⟩ := step_inv s
  obtain ⟨hk, -⟩ := List.getElem?_eq_some_iff.1 h
  rw [channelStep_eq_set h hstep]
  exact ⟨⟨t, hstep, List.getElem?_set_self hk⟩, fun j hj => List.getElem?_set_ne hj.symm⟩

end Sys2Proof.Machine
end

section
/-! PROOFS. The family 70_reset_and_hazards.md: RST from every state, and the reset state itself. The idea: the step that
takes an RST answers `powerOn`, whose fields the lemmas of Laws/State.lean give, and `State.reset` is a state that RST
answers. -/

namespace Sys2Proof.Machine

/-! ### RST, from every state (R132, R133) -/

theorem step_rst {rest : List HostMove} {s : State} (h : s.host = .rst :: rest) :
    step s = .next (powerOn (withHost rest s)) := by
  rw [step, fetch, h]

/-- +0.0 is not `!=f` +0.0, so PENDING is 0 after RST (10_state.md R40). -/
theorem pending_powerOn (s : State) : pending (powerOn s) = false := by
  rw [pending, powerOn_pendScale, powerOn_curScale]; decide

theorem statusWord_powerOn (s : State) : statusWord (powerOn s) = 0#32 := by
  simp [statusWord, pending_powerOn, busy, Cause.code]

theorem blockState_powerOn (s : State) : blockState (powerOn s) = .unconfigured := by
  simp [blockState]

/-- Settles O46: whatever the state was, the step answers `powerOn`, which keeps only OUT, the answers on RD and the
host's later moves. -/
theorem rstRestoresPowerOn : Obligations.RstRestoresPowerOn := by
  intro rest s h
  refine ⟨_, step_rst h, ?_⟩
  simp [readReg, statusWord_powerOn, blockState_powerOn]

/-- What RD answers right after RST, at addresses 0 to 15: STATUS is 0, addresses 1 to 10 read fields at their power-on
values, and the last five are reserved (10_state.md R41). -/
theorem readReg_powerOn (s : State) :
    (List.range 16).map (fun a => (readReg (BitVec.ofNat 4 a) (powerOn s)).toNat) =
      [0, 0, 0x40000000, 0x42480000, 1, 0, 0, 0, 0, 0, 0, 0, 0, 0, 0, 0] := by
  simp [List.range_succ, readReg, statusWord_powerOn, Table.bit]

/-! ### The reset state (R132) -/

/-- The reset state is one that RST answers, with its own moves of the host to come. -/
theorem powerOn_withHost_reset (moves : List HostMove) :
    powerOn (withHost moves State.reset) = { State.reset with host := moves } := rfl

/-- Settles O47: RST keeps the reset state as it is, so its reads are those right after RST. -/
theorem resetRegisterValues : Obligations.ResetRegisterValues := readReg_powerOn State.reset

/-- Settles O54: RST answers a legal state from every state. -/
theorem resetIsLegal : Obligations.ResetIsLegal := fun moves =>
  powerOn_withHost_reset moves ▸ powerOn_legal (withHost moves State.reset)

end Sys2Proof.Machine
end
